-- ==== Sys2Proof/Word.lean ====
section
/-! DEFINITION. The widths of the engine (spec/00_scope.md R4, R7): bytes, window addresses, A-bus addresses, request words and
channel numbers. -/

namespace Sys2Proof

/-- A datum moved by the engine, a B-bus address, a mask, an 8-bit register (R4). -/
abbrev Byte := BitVec 8

/-- An A-bus offset, a 16-bit register, a window address (R4, R62). -/
abbrev Half := BitVec 16

/-- A 24-bit A-bus address: bank in bits 23:16, offset in bits 15:0 (R4). -/
abbrev Addr := BitVec 24

/-- A host request word (R91). -/
abbrev Req := BitVec 32

/-- A channel index, 0 to 7 (R1). -/
abbrev Chan := Fin 8

/-- `bank:offset` (R7). -/
abbrev mkAddr (bank : Byte) (off : Half) : Addr := bank ++ off

/-- The channels in ascending order: `for n in 0..7` (R10). -/
abbrev allChans : List Chan := [0, 1, 2, 3, 4, 5, 6, 7]

end Sys2Proof
end

