-- ==== Sys2Proof/Bus.lean ====
section
/-! DEFINITION. What the model keeps of the Bus, the collaborator that answers every access and is no part of the engine
(spec/00_scope.md R3): plain data. Its operations stand in Sys2Proof/Machine/Ops.lean. -/

namespace Sys2Proof.Machine

/-- One execution of a bus primitive, as the engine issues it: `MemRead`, `MemWrite`, `BRead`, `BWrite` (spec/00_scope.md R9). -/
inductive BusAccess where
  | aRead (a : Addr)
  | aWrite (a : Addr) (v : Byte)
  | bRead (x : Byte)
  | bWrite (x : Byte) (v : Byte)
deriving DecidableEq, Repr

/-- One event of the bus trace: space, kind, address, value (spec/20_memory.md R66). -/
inductive BusEvent where
  | aRead (a : Addr) (v : Byte)
  | aWrite (a : Addr) (v : Byte)
  | bRead (b : Byte) (v : Byte)
  | bWrite (b : Byte) (v : Byte)
deriving DecidableEq, Repr

/-- What the platform has at an address (the map is the platform's: spec/20_memory.md R60, R71). `memory` answers the byte it holds
there, `rom` too but ignores writes; a `device` answers as it pleases, and so does an address that reaches nothing (R69, R70).
Log 4, log 5. -/
inductive RegionKind where
  | memory | rom | device
deriving DecidableEq, Repr

/-- `size` addresses from `base` on, of one kind. -/
structure Region where
  base : Nat
  size : Nat
  kind : RegionKind
deriving DecidableEq, Repr

/-- A change of the Bus that is no access of the engine: a byte it holds becomes another, or a region of a space becomes of another
kind. -/
inductive BusChange where
  | aByte (a : Addr) (v : Byte)
  | bByte (x : Byte) (v : Byte)
  | aRegion (r : Region)
  | bRegion (r : Region)
deriving DecidableEq, Repr

/-- What the Bus, "an oracle that may answer any byte" (spec/20_memory.md R69), does at one access: the byte it answers where nothing
it holds decides the answer, and the side effects of the access, in order (R70). Log 3, log 6. -/
structure BusTurn where
  value : Byte
  effects : List BusChange
deriving DecidableEq, Repr, Inhabited

/-- Bytes by address, addresses strictly rising. An address that is not listed has no known byte (log 7). -/
abbrev Memory := List Host.Cell

/-- What the model knows of the Bus, which is no part of the engine (spec/00_scope.md R3, spec/20_memory.md R78). -/
structure Bus where
  aMem : Memory
  bMem : Memory
  aMap : List Region
  bMap : List Region
  /-- The Bus's turns at the accesses to come, next first; when none is listed the turn is the free value `Config.openTurn` (log 3). -/
  turns : List BusTurn
  /-- Changes other agents of the platform made (R76), oldest first, each with the number of accesses before it (log 6). -/
  outside : List (Nat × BusChange)
  /-- The bus trace, oldest event first (R66). -/
  trace : List BusEvent
deriving DecidableEq, Repr

end Sys2Proof.Machine
end

