-- ==== Sys2Proof/Config.lean ====
section
/-! DEFINITION. What the spec leaves open: the four cycle costs (spec/00_scope.md R5), what the Bus answers and does
(spec/20_memory.md R69, R70) and the reset contents the model names (spec/70_reset_and_hazards.md R280). An `opaque` constant has no
body: nothing can be proved about its value. -/

namespace Sys2Proof.Config

/-- `DMA_BYTE_CYCLES`: master cycles per byte moved by DO_DMA (R5). OPEN in the spec; log 2, safe. -/
opaque dmaByteCycles : Nat

/-- `DMA_CHANNEL_CYCLES`: master cycles per channel started by DO_DMA (R5). OPEN in the spec; log 2, safe. -/
opaque dmaChannelCycles : Nat

/-- `HDMA_BYTE_CYCLES`: master cycles per byte moved by DO_HDMA (R5). OPEN in the spec; log 2, safe. -/
opaque hdmaByteCycles : Nat

/-- `HDMA_CHANNEL_CYCLES`: master cycles per channel processed by DO_HDMA (R5). OPEN in the spec; log 2, safe. -/
opaque hdmaChannelCycles : Nat

/-- The turn the Bus takes at an access when `Bus.turns` lists none: any answer (R69) and any side effects (R70), which may depend on
the access and on everything before it, the trace among it. A free value; log 3, safe. -/
opaque openTurn : Machine.Bus → Machine.BusAccess → Machine.BusTurn

/-- DESIGN CHOICE (unsafe, log 1): the reset draw `State.reset` uses, 96 zero bytes. The spec leaves the draw open (R6, R280); a
statement about reset is made for every draw, with `State.resetWith`. -/
def resetDraw : Vector Byte 96 := Vector.replicate 96 0

end Sys2Proof.Config
end

