-- ==== Sys2Proof/Syntax.lean ====
section
/-! DEFINITION. The syntax: what the engine is handed (`Request`), an instruction's encoded form (`InstrWord`), and `Instr`, one
constructor per row of spec/opcode_table.json. Log 9 says how the rows that are not host commands are read as operations. -/

namespace Sys2Proof

/-- What a window access does at its address: return the byte or store `d` (spec/43_register_access.md R230, R233). -/
inductive Access where
  | read
  | write (d : Byte)
deriving DecidableEq, Repr

/-- The register byte a channel block's index r selects (spec/30_encoding.md R97). `unusedB` and `unusedF` are two indexes of one
byte (R236). -/
inductive ChanReg where
  | dmap | bbad | a1tLo | a1tHi | a1b | dasLo | dasHi | dasb | a2aLo | a2aHi | ntrl | unusedB | unusedF
deriving DecidableEq, Repr

/-- What a decoded window address selects (R96 to R98). -/
inductive WindowPort where
  | chan (n : Chan) (r : ChanReg)
  | mdmaen
  | hdmaen
deriving DecidableEq, Repr

/-- The unit that reads a channel's control byte DMAP (R100): the transfer-mode decoder, the A-bus step, the byte router (with the
byte index it moves) and the HDMA data addressing (with the byte index it moves). -/
inductive CtlUnit where
  | mode
  | step
  | route (k : Half)
  | addressing (k : Half)
deriving DecidableEq, Repr

/-- What waits in `State.pending`. `command` is the host's request word (R90, R91), the only thing the host sends the engine.
`window`, `control` and `table` ask ONE unit of the engine for the operation of one opcode-table row (log 9). `outside` is no request
to the engine: another agent of the platform changes the Bus between two commands (spec/20_memory.md R76; log 6). -/
inductive Request where
  | command (w : Req)
  | window (acc : Access) (a : Half)
  | control (u : CtlUnit) (n : Chan)
  | table (n : Chan)
  | outside (c : Machine.BusChange)
deriving DecidableEq, Repr

/-- An instruction's encoded form: the bits the decoder reads, with the unit and channel they are read for. The bits are the request
word (R91), the window address (R96), the channel's control byte (R100) or a table byte (R105). -/
inductive InstrWord where
  | command (w : Req)
  | window (acc : Access) (a : Half)
  | control (u : CtlUnit) (n : Chan) (b : Byte)
  | table (n : Chan) (b : Byte)
deriving DecidableEq, Repr

/-- One constructor per row of spec/opcode_table.json. In the control-byte rows `d` is DIR, `i` IND, `p` the bit with no function,
`st` STEP, `m` MODE, `n` the channel whose control byte it is and `k` the byte index. -/
inductive Instr where
  -- the five commands (R90)
  | regRead (a : Half)
  | regWrite (a : Half) (d : Byte)
  | initHdma
  | doHdma (m : Byte)
  | doDma (m : Byte)
  -- the window addresses (R97, R98)
  | regDmap (c : Chan) (acc : Access)
  | regBbad (c : Chan) (acc : Access)
  | regA1tLo (c : Chan) (acc : Access)
  | regA1tHi (c : Chan) (acc : Access)
  | regA1b (c : Chan) (acc : Access)
  | regDasLo (c : Chan) (acc : Access)
  | regDasHi (c : Chan) (acc : Access)
  | regDasb (c : Chan) (acc : Access)
  | regA2aLo (c : Chan) (acc : Access)
  | regA2aHi (c : Chan) (acc : Access)
  | regNtrl (c : Chan) (acc : Access)
  | regUnusedB (c : Chan) (acc : Access)
  | regUnusedF (c : Chan) (acc : Access)
  | regMdmaen (acc : Access)
  | regHdmaen (acc : Access)
  -- the transfer modes (R104)
  | mode0 (n : Chan) (d i p : Bool) (st : BitVec 2)
  | mode1 (n : Chan) (d i p : Bool) (st : BitVec 2)
  | mode2 (n : Chan) (d i p : Bool) (st : BitVec 2)
  | mode3 (n : Chan) (d i p : Bool) (st : BitVec 2)
  | mode4 (n : Chan) (d i p : Bool) (st : BitVec 2)
  | mode5 (n : Chan) (d i p : Bool) (st : BitVec 2)
  | mode6 (n : Chan) (d i p : Bool) (st : BitVec 2)
  | mode7 (n : Chan) (d i p : Bool) (st : BitVec 2)
  -- the A-bus step codes (R101)
  | stepInc (n : Chan) (d i p : Bool) (m : BitVec 3)
  | stepFixed (n : Chan) (d i p : Bool) (m : BitVec 3)
  | stepDec (n : Chan) (d i p : Bool) (m : BitVec 3)
  | stepFixedAlt (n : Chan) (d i p : Bool) (m : BitVec 3)
  -- the byte routes (R102)
  | dirAtoB (n : Chan) (k : Half) (i p : Bool) (st : BitVec 2) (m : BitVec 3)
  | dirBtoA (n : Chan) (k : Half) (i p : Bool) (st : BitVec 2) (m : BitVec 3)
  -- the HDMA addressings (R103)
  | hdmaDirect (n : Chan) (k : Half) (d p : Bool) (st : BitVec 2) (m : BitVec 3)
  | hdmaIndirect (n : Chan) (k : Half) (d p : Bool) (st : BitVec 2) (m : BitVec 3)
  -- the table bytes (R105)
  | hdmaEnd (n : Chan)
  | hdmaEntry (n : Chan) (c : BitVec 7)
  | hdmaEntryRepeat (n : Chan) (c : BitVec 7)
deriving DecidableEq, Repr

/-- Why a form is given no meaning (spec/60_exceptions.md R262). -/
inductive Reject where
  | illegalCommand
  | undecodedRead
  | undecodedWrite
deriving DecidableEq, Repr

/-- The pseudo-instructions of host programs (R109). -/
inductive Pseudo where
  | wr16 (a : Half) (v : Half)
  | wr24 (a : Half) (v : BitVec 24)
  | setch (n : Chan) (dmap bbad : Byte) (a24 : Addr) (das : Half)
  | sethd (n : Chan) (dmap bbad : Byte) (a24 : Addr) (dasb : Byte)
  | mdma (m : Byte)
deriving DecidableEq, Repr

end Sys2Proof
end

