-- ==== Sys2Proof/Machine/State.lean ====
section
/-! DEFINITION. The state: the engine's own (spec/10_state.md R20: "The complete state of the engine"), what the model knows of the
Bus, the last response and the requests waiting. Plain data throughout. -/

namespace Sys2Proof.Machine

/-- One channel's registers (R21) and its active flag (R30). The fields of `dmap` and `ntrl` are read through accessors (R22, R28). -/
structure Channel where
  /-- `DMAP`: DIR 7, IND 6, U5 5, STEP 4:3, MODE 2:0. -/
  dmap : Byte
  /-- `BBAD`: the B-bus base address. -/
  bbad : Byte
  /-- `A1T`: the A-bus offset of DMA, and the HDMA table's start offset. -/
  a1t : Half
  /-- `A1B`: the bank of the A-bus address and of the HDMA table. -/
  a1b : Byte
  /-- `DAS`: the DMA byte counter and the HDMA indirect address, one register (R25). -/
  das : Half
  /-- `DASB`: the bank of indirect HDMA data. -/
  dasb : Byte
  /-- `A2A`: the HDMA table pointer. -/
  a2a : Half
  /-- `NTRL`: repeat flag 7, line counter 6:0. -/
  ntrl : Byte
  /-- `UNUSED`: readable, writable, no function (R29). -/
  unused : Byte
  /-- `active`: in no window address (R30, R239). -/
  active : Bool
deriving DecidableEq, Repr

/-- The complete state of the engine between two commands (R20). -/
structure Engine where
  ch : Vector Channel 8
  mdmaen : Byte
  hdmaen : Byte
deriving DecidableEq, Repr

/-- A command's response (spec/30_encoding.md R95). -/
inductive Response where
  | none
  | data (v : Byte)
  | cycles (c : BitVec 32)
deriving DecidableEq, Repr

/-- The whole machine. -/
structure State where
  engine : Engine
  bus : Bus
  /-- The last operation's response (R95; log 8). -/
  response : Response
  /-- Requests handed to the engine and not yet executed, next first (log 13). -/
  pending : List Request
deriving DecidableEq, Repr

/-- The engine has no fault: "it never fails" (spec/60_exceptions.md R260, R261). No constructor, so nobody raises one; safe. -/
inductive Fault where
deriving DecidableEq, Repr

/-- Why a request is given no meaning (spec/60_exceptions.md R262). A refusal ends the run with no state change; safe. -/
inductive Refusal where
  /-- An opcode-table row whose meaning is not written yet: raised by `exec`'s arms only. Safe. -/
  | notModelled (mnemonic : String)
  /-- `IllegalCommand`: a request word that is no command (R94). Raised by `step` when the decoder refuses the word. Safe. -/
  | illegalCommand
  /-- `UndecodedRead`: a read of a window address other than a channel register (R234, R235). Raised by `execRegRead`, by a read of
  REG.MDMAEN or REG.HDMAEN, and by `step` on an undecoded window address. Safe. -/
  | undecodedRead
  /-- `UndecodedWrite`: a write of a window address the engine does not decode (R235). Raised by `execRegWrite`, and by `step` on an
  undecoded window address. Safe. -/
  | undecodedWrite
deriving DecidableEq, Repr

/-- The three outcomes of a step of this machine. -/
abbrev Outcome := Host.Outcome State Fault Refusal

/-- Byte r of channel n in a reset draw of 8 × 12 bytes, channel 0 first, r as in the window (spec/00_scope.md R6; log 16). -/
def drawByte (draw : Vector Byte 96) (n : Chan) (r : Fin 12) : Byte :=
  draw[12 * n.val + r.val]'(by have := n.isLt; have := r.isLt; omega)

/-- Channel n after reset: its 12 bytes from the draw, inactive (spec/70_reset_and_hazards.md R280, R282). -/
def Channel.ofDraw (draw : Vector Byte 96) (n : Chan) : Channel where
  dmap := drawByte draw n 0
  bbad := drawByte draw n 1
  a1t := drawByte draw n 3 ++ drawByte draw n 2
  a1b := drawByte draw n 4
  das := drawByte draw n 6 ++ drawByte draw n 5
  dasb := drawByte draw n 7
  a2a := drawByte draw n 9 ++ drawByte draw n 8
  ntrl := drawByte draw n 10
  unused := drawByte draw n 11
  active := false

/-- The machine after reset with the draw `CHANNEL_RESET = draw`, which the spec leaves open and a model takes as an argument (R280):
masks 0 (R281), no channel active (R282), no bus access made and no command in progress (R283). -/
def State.resetWith (draw : Vector Byte 96) : State where
  engine :=
    { ch := Vector.ofFn fun n => Channel.ofDraw draw n
      mdmaen := 0
      hdmaen := 0 }
  bus := { aMem := [], bMem := [], aMap := [], bMap := [], turns := [], outside := [], trace := [] }
  response := .none
  pending := []

/-- The machine right after reset, with the draw the model names (DESIGN CHOICE, log 1). -/
def State.reset : State := State.resetWith Config.resetDraw

end Sys2Proof.Machine
end

