-- ==== Sys2Proof/Machine/Flags.lean ====
section
/-! DEFINITION. The engine's only flags and counter test: the repeat flag and the line counter of NTRL (spec/10_state.md R28, R34;
spec/42_hdma.md R199 to R201). -/

namespace Sys2Proof.Machine

/-- The repeat flag, `NTRL[7]`. -/
def repeatFlag (b : Byte) : Bool := b.getLsbD 7

/-- The line counter, `NTRL[6:0]`. -/
def lineCount (b : Byte) : BitVec 7 := b.extractLsb' 0 7

/-- NTRL with its line counter decremented modulo 128 and its repeat flag kept (R199). -/
def decLine (b : Byte) : Byte := BitVec.ofBool (repeatFlag b) ++ (lineCount b - 1)

/-- Whether the channel reloads, from NTRL before the decrement: repeat clear and the decremented counter 0 (R200), or repeat set and
the old counter 0, the underflow (R201). -/
def reloadDue (old : Byte) : Bool :=
  if repeatFlag old then lineCount old == 0 else lineCount old - 1 == 0

/-- Bit n of a mask selects channel n (spec/30_encoding.md R92). -/
def maskBit (m : Byte) (n : Chan) : Bool := m.getLsbD n.val

end Sys2Proof.Machine
end

