-- ==== Sys2Proof/WellFormed.lean ====
section
/-! DEFINITION. Which terms of `Instr` are instructions. The types bound every field to its encoded width, so one check is left: the
line count of HDMA.ENTRY (spec/30_encoding.md R105: "`rccccccc`, not all zero"). -/

namespace Sys2Proof

/-- HDMA.ENTRY's line count is 1..127: 0 with repeat 0 is the terminator HDMA.END (R105, R207). Everything else is well formed: every
mode and step code is legal (R101, R133), every mask (R92), every window address of a command (R93; an undecoded one is refused when
it runs, R235). -/
def Instr.wf : Instr → Bool
  | .hdmaEntry _ c => c != 0
  | .regRead _ | .regWrite _ _ | .initHdma | .doHdma _ | .doDma _ => true
  | .regDmap _ _ | .regBbad _ _ | .regA1tLo _ _ | .regA1tHi _ _ | .regA1b _ _ => true
  | .regDasLo _ _ | .regDasHi _ _ | .regDasb _ _ | .regA2aLo _ _ | .regA2aHi _ _ => true
  | .regNtrl _ _ | .regUnusedB _ _ | .regUnusedF _ _ | .regMdmaen _ | .regHdmaen _ => true
  | .mode0 _ _ _ _ _ | .mode1 _ _ _ _ _ | .mode2 _ _ _ _ _ | .mode3 _ _ _ _ _ => true
  | .mode4 _ _ _ _ _ | .mode5 _ _ _ _ _ | .mode6 _ _ _ _ _ | .mode7 _ _ _ _ _ => true
  | .stepInc _ _ _ _ _ | .stepFixed _ _ _ _ _ | .stepDec _ _ _ _ _ | .stepFixedAlt _ _ _ _ _ => true
  | .dirAtoB _ _ _ _ _ _ | .dirBtoA _ _ _ _ _ _ => true
  | .hdmaDirect _ _ _ _ _ _ | .hdmaIndirect _ _ _ _ _ _ => true
  | .hdmaEnd _ | .hdmaEntryRepeat _ _ => true

end Sys2Proof
end

