-- ==== Sys2Proof/Decode.lean ====
section
/-! DEFINITION. The encodings (spec/30_encoding.md): the bit fields, the window's address map, the decoder, total on every form and
rejecting by name, the encoder, the opcode table's rows as data, and the pseudo-instructions' expansions. -/

namespace Sys2Proof

/-! ## The control byte's fields (R22, R100) -/

/-- `DIR`, bit 7. -/
def dmapDir (b : Byte) : Bool := b.getLsbD 7

/-- `IND`, bit 6. -/
def dmapInd (b : Byte) : Bool := b.getLsbD 6

/-- `U5`, bit 5: stored, no function. -/
def dmapU5 (b : Byte) : Bool := b.getLsbD 5

/-- `STEP`, bits 4:3. -/
def dmapStep (b : Byte) : BitVec 2 := b.extractLsb' 3 2

/-- `MODE`, bits 2:0. -/
def dmapMode (b : Byte) : BitVec 3 := b.extractLsb' 0 3

/-- The control byte with these fields (R100). -/
def dmapPack (d i p : Bool) (st : BitVec 2) (m : BitVec 3) : Byte :=
  BitVec.ofBool d ++ BitVec.ofBool i ++ BitVec.ofBool p ++ st ++ m

/-! ## The register window (R96 to R99) -/

/-- The register index r of a channel block; 0xC, 0xD and 0xE select nothing (R97). -/
def chanRegOf (r : BitVec 4) : Option ChanReg :=
  match r.toNat with
  | 0x0 => some .dmap
  | 0x1 => some .bbad
  | 0x2 => some .a1tLo
  | 0x3 => some .a1tHi
  | 0x4 => some .a1b
  | 0x5 => some .dasLo
  | 0x6 => some .dasHi
  | 0x7 => some .dasb
  | 0x8 => some .a2aLo
  | 0x9 => some .a2aHi
  | 0xA => some .ntrl
  | 0xB => some .unusedB
  | 0xF => some .unusedF
  | _ => none

/-- The register index of a channel register byte (R97). -/
def chanRegIndex : ChanReg → BitVec 4
  | .dmap => 0x0
  | .bbad => 0x1
  | .a1tLo => 0x2
  | .a1tHi => 0x3
  | .a1b => 0x4
  | .dasLo => 0x5
  | .dasHi => 0x6
  | .dasb => 0x7
  | .a2aLo => 0x8
  | .a2aHi => 0x9
  | .ntrl => 0xA
  | .unusedB => 0xB
  | .unusedF => 0xF

/-- A 3-bit field as a channel index. -/
def chanOf (c : BitVec 3) : Chan := ⟨c.toNat, c.isLt⟩

/-- What a window address selects: a channel register when bits 15:7 are 0b010000110 (R96, R97), a mask at 0x420B or 0x420C (R98),
nothing otherwise (R99). -/
def windowPort (a : Half) : Option WindowPort :=
  if a.extractLsb' 7 9 = 0b010000110 then
    (chanRegOf (a.extractLsb' 0 4)).map (.chan (chanOf (a.extractLsb' 4 3)))
  else if a = 0x420B then some .mdmaen
  else if a = 0x420C then some .hdmaen
  else none

/-- The window address of a port (R96 to R98). -/
def portAddr : WindowPort → Half
  | .chan n r => (0b010000110 : BitVec 9) ++ BitVec.ofNat 3 n.val ++ chanRegIndex r
  | .mdmaen => 0x420B
  | .hdmaen => 0x420C

/-- The opcode-table row of a port, as an access of it. -/
def portInstr (acc : Access) : WindowPort → Instr
  | .chan c .dmap => .regDmap c acc
  | .chan c .bbad => .regBbad c acc
  | .chan c .a1tLo => .regA1tLo c acc
  | .chan c .a1tHi => .regA1tHi c acc
  | .chan c .a1b => .regA1b c acc
  | .chan c .dasLo => .regDasLo c acc
  | .chan c .dasHi => .regDasHi c acc
  | .chan c .dasb => .regDasb c acc
  | .chan c .a2aLo => .regA2aLo c acc
  | .chan c .a2aHi => .regA2aHi c acc
  | .chan c .ntrl => .regNtrl c acc
  | .chan c .unusedB => .regUnusedB c acc
  | .chan c .unusedF => .regUnusedF c acc
  | .mdmaen => .regMdmaen acc
  | .hdmaen => .regHdmaen acc

/-- The name a refused window access goes by (spec/60_exceptions.md R262). -/
def undecodedAccess : Access → Reject
  | .read => .undecodedRead
  | .write _ => .undecodedWrite

/-! ## The decoder -/

/-- A request word: `z` 31:27, `a` 26:11, `d` 10:3, `cmd` 2:0 (R91). A command's unused fields must be 0 (R93); every other word is
illegal (R94). -/
def decodeCommand (w : Req) : Except Reject Instr :=
  let z := w.extractLsb' 27 5
  let a := w.extractLsb' 11 16
  let d := w.extractLsb' 3 8
  if z ≠ 0 then .error .illegalCommand
  else match (w.extractLsb' 0 3).toNat with
    | 0b000 => if d = 0 then .ok (.regRead a) else .error .illegalCommand
    | 0b001 => .ok (.regWrite a d)
    | 0b010 => if a = 0 ∧ d = 0 then .ok .initHdma else .error .illegalCommand
    | 0b011 => if a = 0 then .ok (.doHdma d) else .error .illegalCommand
    | 0b100 => if a = 0 then .ok (.doDma d) else .error .illegalCommand
    | _ => .error .illegalCommand

/-- A window address (R96 to R99). -/
def decodeWindow (acc : Access) (a : Half) : Except Reject Instr :=
  match windowPort a with
  | some p => .ok (portInstr acc p)
  | none => .error (undecodedAccess acc)

/-- The control byte as the transfer-mode decoder reads it (R104): every mode is legal (spec/40_transfer_mode.md R133). -/
def decodeMode (n : Chan) (b : Byte) : Instr :=
  let d := dmapDir b
  let i := dmapInd b
  let p := dmapU5 b
  let st := dmapStep b
  match (dmapMode b).toNat with
  | 0 => .mode0 n d i p st
  | 1 => .mode1 n d i p st
  | 2 => .mode2 n d i p st
  | 3 => .mode3 n d i p st
  | 4 => .mode4 n d i p st
  | 5 => .mode5 n d i p st
  | 6 => .mode6 n d i p st
  | _ => .mode7 n d i p st

/-- The control byte as the A-bus step reads it (R101): every code is legal. -/
def decodeStep (n : Chan) (b : Byte) : Instr :=
  let d := dmapDir b
  let i := dmapInd b
  let p := dmapU5 b
  let m := dmapMode b
  match (dmapStep b).toNat with
  | 0b00 => .stepInc n d i p m
  | 0b01 => .stepFixed n d i p m
  | 0b10 => .stepDec n d i p m
  | _ => .stepFixedAlt n d i p m

/-- The control byte as unit `u` reads it (R100 to R104). -/
def decodeControl (u : CtlUnit) (n : Chan) (b : Byte) : Instr :=
  match u with
  | .mode => decodeMode n b
  | .step => decodeStep n b
  | .route k =>
    if dmapDir b then .dirBtoA n k (dmapInd b) (dmapU5 b) (dmapStep b) (dmapMode b)
    else .dirAtoB n k (dmapInd b) (dmapU5 b) (dmapStep b) (dmapMode b)
  | .addressing k =>
    if dmapInd b then .hdmaIndirect n k (dmapDir b) (dmapU5 b) (dmapStep b) (dmapMode b)
    else .hdmaDirect n k (dmapDir b) (dmapU5 b) (dmapStep b) (dmapMode b)

/-- A table byte: 0x00 is the terminator, decoded before an entry; otherwise bit 7 is the repeat flag and bits 6:0 the line counter
(R105). -/
def decodeTable (n : Chan) (b : Byte) : Instr :=
  if b = 0 then .hdmaEnd n
  else if b.getLsbD 7 then .hdmaEntryRepeat n (b.extractLsb' 0 7)
  else .hdmaEntry n (b.extractLsb' 0 7)

/-- The decoder, total on every form. -/
def decode : InstrWord → Except Reject Instr
  | .command w => decodeCommand w
  | .window acc a => decodeWindow acc a
  | .control u n b => .ok (decodeControl u n b)
  | .table n b => .ok (decodeTable n b)

/-! ## The encoder -/

/-- The request word with these fields, `z` 0 (R91): `(a << 11) | (d << 3) | cmd`. -/
def commandWord (a : Half) (d : Byte) (cmd : BitVec 3) : Req := (0 : BitVec 5) ++ a ++ d ++ cmd

/-- The encoded form of an instruction, from the encodings of R93, R97, R98, R100 and R105. -/
def encode : Instr → InstrWord
  | .regRead a => .command (commandWord a 0 0b000)
  | .regWrite a d => .command (commandWord a d 0b001)
  | .initHdma => .command (commandWord 0 0 0b010)
  | .doHdma m => .command (commandWord 0 m 0b011)
  | .doDma m => .command (commandWord 0 m 0b100)
  | .regDmap c acc => .window acc (portAddr (.chan c .dmap))
  | .regBbad c acc => .window acc (portAddr (.chan c .bbad))
  | .regA1tLo c acc => .window acc (portAddr (.chan c .a1tLo))
  | .regA1tHi c acc => .window acc (portAddr (.chan c .a1tHi))
  | .regA1b c acc => .window acc (portAddr (.chan c .a1b))
  | .regDasLo c acc => .window acc (portAddr (.chan c .dasLo))
  | .regDasHi c acc => .window acc (portAddr (.chan c .dasHi))
  | .regDasb c acc => .window acc (portAddr (.chan c .dasb))
  | .regA2aLo c acc => .window acc (portAddr (.chan c .a2aLo))
  | .regA2aHi c acc => .window acc (portAddr (.chan c .a2aHi))
  | .regNtrl c acc => .window acc (portAddr (.chan c .ntrl))
  | .regUnusedB c acc => .window acc (portAddr (.chan c .unusedB))
  | .regUnusedF c acc => .window acc (portAddr (.chan c .unusedF))
  | .regMdmaen acc => .window acc (portAddr .mdmaen)
  | .regHdmaen acc => .window acc (portAddr .hdmaen)
  | .mode0 n d i p st => .control .mode n (dmapPack d i p st 0)
  | .mode1 n d i p st => .control .mode n (dmapPack d i p st 1)
  | .mode2 n d i p st => .control .mode n (dmapPack d i p st 2)
  | .mode3 n d i p st => .control .mode n (dmapPack d i p st 3)
  | .mode4 n d i p st => .control .mode n (dmapPack d i p st 4)
  | .mode5 n d i p st => .control .mode n (dmapPack d i p st 5)
  | .mode6 n d i p st => .control .mode n (dmapPack d i p st 6)
  | .mode7 n d i p st => .control .mode n (dmapPack d i p st 7)
  | .stepInc n d i p m => .control .step n (dmapPack d i p 0b00 m)
  | .stepFixed n d i p m => .control .step n (dmapPack d i p 0b01 m)
  | .stepDec n d i p m => .control .step n (dmapPack d i p 0b10 m)
  | .stepFixedAlt n d i p m => .control .step n (dmapPack d i p 0b11 m)
  | .dirAtoB n k i p st m => .control (.route k) n (dmapPack false i p st m)
  | .dirBtoA n k i p st m => .control (.route k) n (dmapPack true i p st m)
  | .hdmaDirect n k d p st m => .control (.addressing k) n (dmapPack d false p st m)
  | .hdmaIndirect n k d p st m => .control (.addressing k) n (dmapPack d true p st m)
  | .hdmaEnd n => .table n 0
  | .hdmaEntry n c => .table n ((0 : BitVec 1) ++ c)
  | .hdmaEntryRepeat n c => .table n ((1 : BitVec 1) ++ c)

/-! ## The opcode table as data -/

/-- The four formats of spec/opcode_table.json. -/
inductive Format where
  | cmd32 | regAddr16 | dmap8 | entry8
deriving DecidableEq, Repr

/-- A row of spec/opcode_table.json: its format, `match` and `mask`. -/
structure Row where
  format : Format
  pat : Nat
  mask : Nat
deriving DecidableEq, Repr

/-- The row of spec/opcode_table.json an instruction stands for. -/
def tableRow : Instr → Row
  | .regRead _ => ⟨.cmd32, 0x00000000, 0xF80007FF⟩
  | .regWrite _ _ => ⟨.cmd32, 0x00000001, 0xF8000007⟩
  | .initHdma => ⟨.cmd32, 0x00000002, 0xFFFFFFFF⟩
  | .doHdma _ => ⟨.cmd32, 0x00000003, 0xFFFFF807⟩
  | .doDma _ => ⟨.cmd32, 0x00000004, 0xFFFFF807⟩
  | .regDmap _ _ => ⟨.regAddr16, 0x4300, 0xFF8F⟩
  | .regBbad _ _ => ⟨.regAddr16, 0x4301, 0xFF8F⟩
  | .regA1tLo _ _ => ⟨.regAddr16, 0x4302, 0xFF8F⟩
  | .regA1tHi _ _ => ⟨.regAddr16, 0x4303, 0xFF8F⟩
  | .regA1b _ _ => ⟨.regAddr16, 0x4304, 0xFF8F⟩
  | .regDasLo _ _ => ⟨.regAddr16, 0x4305, 0xFF8F⟩
  | .regDasHi _ _ => ⟨.regAddr16, 0x4306, 0xFF8F⟩
  | .regDasb _ _ => ⟨.regAddr16, 0x4307, 0xFF8F⟩
  | .regA2aLo _ _ => ⟨.regAddr16, 0x4308, 0xFF8F⟩
  | .regA2aHi _ _ => ⟨.regAddr16, 0x4309, 0xFF8F⟩
  | .regNtrl _ _ => ⟨.regAddr16, 0x430A, 0xFF8F⟩
  | .regUnusedB _ _ => ⟨.regAddr16, 0x430B, 0xFF8F⟩
  | .regUnusedF _ _ => ⟨.regAddr16, 0x430F, 0xFF8F⟩
  | .regMdmaen _ => ⟨.regAddr16, 0x420B, 0xFFFF⟩
  | .regHdmaen _ => ⟨.regAddr16, 0x420C, 0xFFFF⟩
  | .mode0 _ _ _ _ _ => ⟨.dmap8, 0x00, 0x07⟩
  | .mode1 _ _ _ _ _ => ⟨.dmap8, 0x01, 0x07⟩
  | .mode2 _ _ _ _ _ => ⟨.dmap8, 0x02, 0x07⟩
  | .mode3 _ _ _ _ _ => ⟨.dmap8, 0x03, 0x07⟩
  | .mode4 _ _ _ _ _ => ⟨.dmap8, 0x04, 0x07⟩
  | .mode5 _ _ _ _ _ => ⟨.dmap8, 0x05, 0x07⟩
  | .mode6 _ _ _ _ _ => ⟨.dmap8, 0x06, 0x07⟩
  | .mode7 _ _ _ _ _ => ⟨.dmap8, 0x07, 0x07⟩
  | .stepInc _ _ _ _ _ => ⟨.dmap8, 0x00, 0x18⟩
  | .stepFixed _ _ _ _ _ => ⟨.dmap8, 0x08, 0x18⟩
  | .stepDec _ _ _ _ _ => ⟨.dmap8, 0x10, 0x18⟩
  | .stepFixedAlt _ _ _ _ _ => ⟨.dmap8, 0x18, 0x18⟩
  | .dirAtoB _ _ _ _ _ _ => ⟨.dmap8, 0x00, 0x80⟩
  | .dirBtoA _ _ _ _ _ _ => ⟨.dmap8, 0x80, 0x80⟩
  | .hdmaDirect _ _ _ _ _ _ => ⟨.dmap8, 0x00, 0x40⟩
  | .hdmaIndirect _ _ _ _ _ _ => ⟨.dmap8, 0x40, 0x40⟩
  | .hdmaEnd _ => ⟨.entry8, 0x00, 0xFF⟩
  | .hdmaEntry _ _ => ⟨.entry8, 0x00, 0x80⟩
  | .hdmaEntryRepeat _ _ => ⟨.entry8, 0x80, 0x80⟩

/-- The bits of an encoded form as a number, and their format. -/
def wordBits : InstrWord → Format × Nat
  | .command w => (.cmd32, w.toNat)
  | .window _ a => (.regAddr16, a.toNat)
  | .control _ _ b => (.dmap8, b.toNat)
  | .table _ b => (.entry8, b.toNat)

/-- An encoded form carries a row's fixed bits. -/
def Row.fits (r : Row) (w : InstrWord) : Bool :=
  let f := wordBits w
  match r.format, f.1 with
  | .cmd32, .cmd32 => f.2 &&& r.mask == r.pat
  | .regAddr16, .regAddr16 => f.2 &&& r.mask == r.pat
  | .dmap8, .dmap8 => f.2 &&& r.mask == r.pat
  | .entry8, .entry8 => f.2 &&& r.mask == r.pat
  | _, _ => false

/-! ## The table's words as the host numbers them -/

/-- The field under `mask` stands out of byte `b`: every bit outside it is 0 and it is not 0, or every bit outside it is 1 and it is
not all ones. -/
def standsOut (mask b : Byte) : Bool :=
  (b &&& ~~~mask == 0 && b &&& mask != 0) || (b &&& ~~~mask == ~~~mask && b &&& mask != mask)

/-- DESIGN CHOICE (log 10, about the host's table words only): the unit an 8-bit table word is handed to, for channel 0 and byte index
0. One byte carries the fixed bits of up to six rows; it goes to the unit whose field stands out of the byte (MODE, STEP, DIR, IND in
that order), 0x00 and the bytes whose only other set bit is the one with no function (0x20, 0xA0) are table bytes, and the rest go to
the transfer-mode decoder. -/
def byteForm (b : Byte) : InstrWord :=
  if b = 0 ∨ b = 0x20 ∨ b = 0xA0 then .table 0 b
  else if standsOut 0x07 b then .control .mode 0 b
  else if standsOut 0x18 b then .control .step 0 b
  else if standsOut 0x80 b then .control (.route 0) 0 b
  else if standsOut 0x40 b then .control (.addressing 0) 0 b
  else .control .mode 0 b

/-- The encoded form of a table word of `nbits` bits: a request word, a window address (as the write of 0x00, which every one of the 15
ports takes; log 11), or a byte. -/
def tableForm (nbits w : Nat) : Option InstrWord :=
  if nbits = 32 then some (.command (BitVec.ofNat 32 w))
  else if nbits = 16 then some (.window (.write 0) (BitVec.ofNat 16 w))
  else if nbits = 8 then some (byteForm (BitVec.ofNat 8 w))
  else none

/-- The instruction the decoder reads from a table word. -/
def decodeTableWord (nbits w : Nat) : Option Instr :=
  match tableForm nbits w with
  | none => none
  | some f =>
    match decode f with
    | .ok i => some i
    | .error _ => none

/-! ## Pseudo-instructions (R109) -/

/-- The commands of `WR16 addr, v16`. DESIGN CHOICE (log 19, safe): `addr+1` past 0xFFFF, where the spec says nothing, is taken modulo
2^16. -/
def wr16 (a v : Half) : List Instr :=
  [.regWrite a (v.extractLsb' 0 8), .regWrite (a + 1) (v.extractLsb' 8 8)]

/-- The commands of `WR24 addr, v24`. DESIGN CHOICE (log 19, safe): `addr+1` and `addr+2` past 0xFFFF, where the spec says nothing, are
taken modulo 2^16. -/
def wr24 (a : Half) (v : BitVec 24) : List Instr :=
  [.regWrite a (v.extractLsb' 0 8), .regWrite (a + 1) (v.extractLsb' 8 8), .regWrite (a + 2) (v.extractLsb' 16 8)]

/-- The expansion of a pseudo-instruction. -/
def expand : Pseudo → List Instr
  | .wr16 a v => wr16 a v
  | .wr24 a v => wr24 a v
  | .setch n dmap bbad a24 das =>
    [.regWrite (portAddr (.chan n .dmap)) dmap, .regWrite (portAddr (.chan n .bbad)) bbad] ++
      wr24 (portAddr (.chan n .a1tLo)) a24 ++ wr16 (portAddr (.chan n .dasLo)) das
  | .sethd n dmap bbad a24 dasb =>
    [.regWrite (portAddr (.chan n .dmap)) dmap, .regWrite (portAddr (.chan n .bbad)) bbad] ++
      wr24 (portAddr (.chan n .a1tLo)) a24 ++ [.regWrite (portAddr (.chan n .dasb)) dasb]
  | .mdma m => [.regWrite (portAddr .mdmaen) m, .doDma m]

end Sys2Proof
end

