-- ==== Sys2Proof/Machine/Operands.lean ====
section
/-! DEFINITION. The transfer-mode decoder and the address generator (spec/40_transfer_mode.md), and the addresses a channel's registers
form. -/

namespace Sys2Proof.Machine

/-- The unit length of each mode (R130), "a static lookup table". -/
def unitLens : List Nat := [1, 2, 2, 4, 4, 4, 2, 4]

/-- The B-bus offsets of each mode, byte by byte of a unit (R131). -/
def modeOffsets : List (List Nat) :=
  [[0], [0, 1], [0, 0], [0, 0, 1, 1], [0, 1, 2, 3], [0, 1, 0, 1], [0, 0], [0, 0, 1, 1]]

/-- `UnitLen(mode)` (R130). -/
def unitLen (m : BitVec 3) : Nat := unitLens.getD m.toNat 0

/-- `Offset(mode, j)` for j below `UnitLen(mode)` (R131). -/
def modeOffset (m : BitVec 3) (j : Nat) : Nat := (modeOffsets.getD m.toNat []).getD j 0

/-- `BAddr(n, k)` from the channel's base and mode, modulo 256 (R134). -/
def bAddr (bbad : Byte) (m : BitVec 3) (k : Nat) : Byte :=
  bbad + BitVec.ofNat 8 (modeOffset m (k % unitLen m))

/-- `StepA(off, step)`, modulo 2^16 (R136). -/
def stepA (off : Half) (st : BitVec 2) : Half :=
  match st.toNat with
  | 0b00 => off + 1
  | 0b10 => off - 1
  | _ => off

/-- `A1B:A1T`, the A-bus address of the next DMA byte (R135). -/
def Channel.dmaAddr (c : Channel) : Addr := mkAddr c.a1b c.a1t

/-- `A1B:A2A`, the address of the next HDMA table byte (spec/10_state.md R27). -/
def Channel.tableAddr (c : Channel) : Addr := mkAddr c.a1b c.a2a

/-- `DASB:DAS`, the address of the next indirect HDMA data byte (spec/10_state.md R26). -/
def Channel.indirectAddr (c : Channel) : Addr := mkAddr c.dasb c.das

/-- A 16-bit register's low byte, at the lower window address (spec/30_encoding.md R107). -/
def lowByte (v : Half) : Byte := v.extractLsb' 0 8

/-- A 16-bit register's high byte (R107). -/
def highByte (v : Half) : Byte := v.extractLsb' 8 8

/-- `v` with bits 7:0 written (R107, R237). -/
def setLow (v : Half) (d : Byte) : Half := highByte v ++ d

/-- `v` with bits 15:8 written (R107, R237). -/
def setHigh (v : Half) (d : Byte) : Half := d ++ lowByte v

/-- The byte of a channel a register index selects (spec/43_register_access.md R233). -/
def Channel.readByte (c : Channel) : ChanReg → Byte
  | .dmap => c.dmap
  | .bbad => c.bbad
  | .a1tLo => lowByte c.a1t
  | .a1tHi => highByte c.a1t
  | .a1b => c.a1b
  | .dasLo => lowByte c.das
  | .dasHi => highByte c.das
  | .dasb => c.dasb
  | .a2aLo => lowByte c.a2a
  | .a2aHi => highByte c.a2a
  | .ntrl => c.ntrl
  | .unusedB => c.unused
  | .unusedF => c.unused

/-- The channel with that byte stored (spec/43_register_access.md R230). -/
def Channel.writeByte (c : Channel) (d : Byte) : ChanReg → Channel
  | .dmap => { c with dmap := d }
  | .bbad => { c with bbad := d }
  | .a1tLo => { c with a1t := setLow c.a1t d }
  | .a1tHi => { c with a1t := setHigh c.a1t d }
  | .a1b => { c with a1b := d }
  | .dasLo => { c with das := setLow c.das d }
  | .dasHi => { c with das := setHigh c.das d }
  | .dasb => { c with dasb := d }
  | .a2aLo => { c with a2a := setLow c.a2a d }
  | .a2aHi => { c with a2a := setHigh c.a2a d }
  | .ntrl => { c with ntrl := d }
  | .unusedB => { c with unused := d }
  | .unusedF => { c with unused := d }

end Sys2Proof.Machine
end

