-- ==== Sys2Proof/Machine/Ops.lean ====
section
/-! DEFINITION. The shared operations: memory, the four bus primitives (spec/00_scope.md R9), the channel registers, the register
window, the byte moves (spec/40_transfer_mode.md R139, spec/42_hdma.md R197), LoadEntry (spec/42_hdma.md R192), and fetching. There is
no exception to take and none to return from (spec/60_exceptions.md R265, R266). -/

namespace Sys2Proof.Machine

/-! ## Memory -/

/-- The byte listed at an address. -/
def Memory.read : Memory → Nat → Option Byte
  | [], _ => none
  | (x, v) :: m, a => if x = a then some v else Memory.read m a

/-- A byte stored, addresses kept rising. -/
def Memory.write : Memory → Nat → Byte → Memory
  | [], a, d => [(a, d)]
  | (x, v) :: m, a, d =>
    if a < x then (a, d) :: (x, v) :: m
    else if a = x then (a, d) :: m
    else (x, v) :: Memory.write m a d

/-- Every address of `m` lies at or above `lo` and they rise strictly. -/
def Memory.risingFrom : Nat → Memory → Bool
  | _, [] => true
  | lo, (x, _) :: m => decide (lo ≤ x) && Memory.risingFrom (x + 1) m

/-- The canonical form: addresses strictly rising, so equal memories are equal lists. An unlisted address has no byte, so no entry can
equal it. -/
def Memory.wf (m : Memory) : Bool := Memory.risingFrom 0 m

/-- Every listed address is one of the space's `size`. -/
def Memory.within (size : Nat) (m : Memory) : Bool := m.all fun c => decide (c.1 < size)

/-! ## The Bus -/

/-- The kind of the first region that holds the address. Where the platform's map says nothing it is a device's or reaches nothing: any
answer (spec/20_memory.md R69; log 4, log 5). -/
def kindAt : List Region → Nat → RegionKind
  | [], _ => .device
  | r :: rs, a => if r.base ≤ a ∧ a < r.base + r.size then r.kind else kindAt rs a

/-- What the platform has at an A-bus address (R60). -/
def Bus.kindA (b : Bus) (a : Addr) : RegionKind := kindAt b.aMap a.toNat

/-- What the platform has at a B-bus address (R61). -/
def Bus.kindB (b : Bus) (x : Byte) : RegionKind := kindAt b.bMap x.toNat

/-- The Bus's turn at an access: the one listed, or a free one (R69, R70; log 3). -/
def Bus.turn (b : Bus) (acc : BusAccess) : BusTurn :=
  match b.turns with
  | t :: _ => t
  | [] => Config.openTurn b acc

/-- A kind, a known byte and the oracle's byte: what a read answers (R69). -/
def answer (k : RegionKind) (known : Option Byte) (free : Byte) : Byte :=
  match k, known with
  | .device, _ => free
  | _, some v => v
  | _, none => free

/-- What the Bus answers to an A-bus read now. -/
def Bus.answerA (b : Bus) (a : Addr) : Byte :=
  answer (b.kindA a) (b.aMem.read a.toNat) (b.turn (.aRead a)).value

/-- What the Bus answers to a B-bus read now. -/
def Bus.answerB (b : Bus) (x : Byte) : Byte :=
  answer (b.kindB x) (b.bMem.read x.toNat) (b.turn (.bRead x)).value

/-- A write's effect on the bytes a space holds: only memory keeps the byte (R69: "ignored-write semantics"). -/
def stored (k : RegionKind) (m : Memory) (a : Nat) (v : Byte) : Memory :=
  match k with
  | .memory => m.write a v
  | .rom => m
  | .device => m

/-- The event an access appends to the trace (R66). -/
def Bus.event (b : Bus) : BusAccess → BusEvent
  | .aRead a => .aRead a (b.answerA a)
  | .aWrite a v => .aWrite a v
  | .bRead x => .bRead x (b.answerB x)
  | .bWrite x v => .bWrite x v

/-- An access's own effect on the bytes the Bus holds: a write stores its byte. -/
def Bus.own (b : Bus) : BusAccess → Bus
  | .aRead _ => b
  | .aWrite a v => { b with aMem := stored (b.kindA a) b.aMem a.toNat v }
  | .bRead _ => b
  | .bWrite x v => { b with bMem := stored (b.kindB x) b.bMem x.toNat v }

/-- One change of the Bus: a byte held there, or a region put before all others. -/
def Bus.change (b : Bus) : BusChange → Bus
  | .aByte a v => { b with aMem := b.aMem.write a.toNat v }
  | .bByte x v => { b with bMem := b.bMem.write x.toNat v }
  | .aRegion r => { b with aMap := r :: b.aMap }
  | .bRegion r => { b with bMap := r :: b.bMap }

/-- A change another agent makes between two commands (R76), recorded. -/
def Bus.changeOutside (b : Bus) (c : BusChange) : Bus :=
  { b.change c with outside := b.outside ++ [(b.trace.length, c)] }

/-- One access (spec/00_scope.md R9): its event (R66), its own effect, the Bus's turn taken, and then the side effects of that turn,
in order (R70). -/
def Bus.access (b : Bus) (acc : BusAccess) : Bus :=
  (b.turn acc).effects.foldl Bus.change { b.own acc with turns := b.turns.tail, trace := b.trace ++ [b.event acc] }

/-- `MemRead(a24, 1)`'s effect on the Bus. -/
def Bus.readA (b : Bus) (a : Addr) : Bus := b.access (.aRead a)

/-- `BRead(b8)`'s effect on the Bus. -/
def Bus.readB (b : Bus) (x : Byte) : Bus := b.access (.bRead x)

/-- `MemWrite(a24, 1, v8)`'s effect on the Bus. -/
def Bus.writeA (b : Bus) (a : Addr) (v : Byte) : Bus := b.access (.aWrite a v)

/-- `BWrite(b8, v8)`'s effect on the Bus. -/
def Bus.writeB (b : Bus) (x : Byte) (v : Byte) : Bus := b.access (.bWrite x v)

/-! ## The state's parts -/

/-- The state with another Bus: the only part a bus access changes (spec/10_state.md R37, spec/20_memory.md R78). -/
def State.setBus (s : State) (b : Bus) : State := { s with bus := b }

/-- The state with another response (spec/30_encoding.md R95). -/
def State.respond (s : State) (r : Response) : State := { s with response := r }

/-- The state with other requests waiting. -/
def State.setPending (s : State) (q : List Request) : State := { s with pending := q }

/-- Channel n's registers. -/
def State.ch (s : State) (n : Chan) : Channel := s.engine.ch[n.val]

/-- The state with channel n's registers changed by `f`. -/
def State.modCh (s : State) (n : Chan) (f : Channel → Channel) : State :=
  { s with engine := { s.engine with ch := s.engine.ch.set n.val (f (s.ch n)) } }

/-- `MDMAEN <- v`. -/
def State.setMdmaen (s : State) (v : Byte) : State := { s with engine := { s.engine with mdmaen := v } }

/-- `HDMAEN <- v`. -/
def State.setHdmaen (s : State) (v : Byte) : State := { s with engine := { s.engine with hdmaen := v } }

/-- `A1T[n] <- v`. -/
def State.setA1t (s : State) (n : Chan) (v : Half) : State := s.modCh n fun c => { c with a1t := v }

/-- `DAS[n] <- v`. -/
def State.setDas (s : State) (n : Chan) (v : Half) : State := s.modCh n fun c => { c with das := v }

/-- `A2A[n] <- v`. -/
def State.setA2a (s : State) (n : Chan) (v : Half) : State := s.modCh n fun c => { c with a2a := v }

/-- `NTRL[n] <- v`. -/
def State.setNtrl (s : State) (n : Chan) (v : Byte) : State := s.modCh n fun c => { c with ntrl := v }

/-- `active[n] <- v`. -/
def State.setActive (s : State) (n : Chan) (v : Bool) : State := s.modCh n fun c => { c with active := v }

/-! ## The register window (spec/43_register_access.md) -/

/-- The byte a port answers a read with: a channel register's; the masks are write only (R233, R234). -/
def State.readPort (s : State) : WindowPort → Option Byte
  | .chan n r => some ((s.ch n).readByte r)
  | .mdmaen => none
  | .hdmaen => none

/-- The byte stored at a port (R230 to R232): exactly the 8 bits it addresses (R237). -/
def State.writePort (s : State) (d : Byte) : WindowPort → State
  | .chan n r => s.modCh n fun c => c.writeByte d r
  | .mdmaen => s.setMdmaen d
  | .hdmaen => s.setHdmaen d

/-- One window access at a decoded address: a read returns the byte, or is refused at a mask (R233, R234); a write stores it
(R230 to R232). -/
def accessPort (p : WindowPort) (acc : Access) (s : State) : Outcome :=
  match acc with
  | .read =>
    match s.readPort p with
    | some v => .next (s.respond (.data v))
    | none => .refused .undecodedRead
  | .write d => .next ((s.writePort d p).respond .none)

/-! ## The byte moves -/

/-- `ByteMove(n, a24, b8)` in direction `dir` (spec/40_transfer_mode.md R139): the read before the write, the byte unchanged. -/
def byteMove (dir : Bool) (a : Addr) (x : Byte) (s : State) : State :=
  if dir then s.setBus ((s.bus.readB x).writeA a (s.bus.answerB x))
  else s.setBus ((s.bus.readA a).writeB x (s.bus.answerA a))

/-- The DMA byte of index `k` of channel n, in mode `m` and direction `dir`: between `A1B:A1T` and `BAddr(n, k)`
(spec/41_dma.md R160, R164, R172). -/
def dmaMove (n : Chan) (dir : Bool) (m : BitVec 3) (k : Nat) (s : State) : State :=
  byteMove dir (s.ch n).dmaAddr (bAddr (s.ch n).bbad m k) s

/-- `A1T[n] <- StepA(A1T[n], st)` (spec/40_transfer_mode.md R137). -/
def stepA1t (n : Chan) (st : BitVec 2) (s : State) : State := s.setA1t n (stepA (s.ch n).a1t st)

/-- The HDMA data byte of index `k` of channel n (spec/42_hdma.md R195, R197, R198): read at the table pointer, or at the indirect
address when `ind`; the pointer read is incremented in its bank; then the byte goes to `BAddr(n, k)`. -/
def hdmaMove (n : Chan) (ind : Bool) (m : BitVec 3) (k : Nat) (s : State) : State :=
  let c := s.ch n
  let a := if ind then c.indirectAddr else c.tableAddr
  let v := s.bus.answerA a
  let s1 := s.setBus (s.bus.readA a)
  let s2 := if ind then s1.setDas n (c.das + 1) else s1.setA2a n (c.a2a + 1)
  s2.setBus (s2.bus.writeB (bAddr c.bbad m k) v)

/-- One unit of channel n in mode `m`: bytes 0 to `UnitLen(m) - 1`, each byte's write before the next byte's read (R198). -/
def hdmaUnit (n : Chan) (ind : Bool) (m : BitVec 3) (s : State) : State :=
  (List.range (unitLen m)).foldl (fun s k => hdmaMove n ind m k s) s

/-! ## LoadEntry (spec/42_hdma.md R192) -/

/-- A table byte of channel n: read at `A1B:A2A`, the pointer advanced modulo 2^16 in its bank. -/
def readTable (n : Chan) (s : State) : Byte × State :=
  let c := s.ch n
  (s.bus.answerA c.tableAddr, (s.setBus (s.bus.readA c.tableAddr)).setA2a n (c.a2a + 1))

/-- The indirect address of an entry: two table bytes, low byte first (R106), into DAS. -/
def loadIndirect (n : Chan) (s : State) : State :=
  let lo := readTable n s
  let hi := readTable n lo.2
  hi.2.setDas n (hi.1 ++ lo.1)

/-- What LoadEntry does with the line-count byte `b` it read: 0x00 ends the table; any other starts an entry. -/
def loadByte (n : Chan) (b : Byte) (s : State) : State :=
  if b = 0 then s.setActive n false
  else
    let s1 := s.setNtrl n b
    let s2 := if dmapInd (s1.ch n).dmap then loadIndirect n s1 else s1
    s2.setActive n true

/-- `LoadEntry(n)`. -/
def loadEntry (n : Chan) (s : State) : State := loadByte n (readTable n s).1 (readTable n s).2

/-! ## Fetching -/

/-- The refusal a decoder's rejection is reported as (spec/60_exceptions.md R262). -/
def refusalOf : Reject → Refusal
  | .illegalCommand => .illegalCommand
  | .undecodedRead => .undecodedRead
  | .undecodedWrite => .undecodedWrite

/-- What a request hands to the decoder, and the state after it is fetched: a request word and a window address come with the request;
a control byte is the channel's `DMAP`; a table byte is read from the A-bus at the table pointer (spec/42_hdma.md R192). A change of
the Bus by another agent hands over nothing (spec/20_memory.md R76; log 6). -/
def fetch (r : Request) (s : State) : Option InstrWord × State :=
  match r with
  | .command w => (some (.command w), s)
  | .window acc a => (some (.window acc a), s)
  | .control u n => (some (.control u n (s.ch n).dmap), s)
  | .table n => (some (.table n (readTable n s).1), (readTable n s).2)
  | .outside c => (none, s.setBus (s.bus.changeOutside c))

/-- The state with an encoded form placed where the next step fetches it: the request first in `pending`; a control byte in its channel's
`DMAP`; a table byte at the channel's table pointer, in an address the platform's map makes memory, with a turn of the Bus for the
read that fetches it, one without side effects (log 13). -/
def placeForm (f : InstrWord) (s : State) : State :=
  match f with
  | .command w => s.setPending (.command w :: s.pending)
  | .window acc a => s.setPending (.window acc a :: s.pending)
  | .control u n b => (s.modCh n fun c => { c with dmap := b }).setPending (.control u n :: s.pending)
  | .table n b =>
    let a := (s.ch n).tableAddr.toNat
    (s.setBus
      { s.bus with
        aMap := ⟨a, 1, .memory⟩ :: s.bus.aMap
        aMem := s.bus.aMem.write a b
        turns := ⟨b, []⟩ :: s.bus.turns }).setPending (.table n :: s.pending)

/-- `placeForm` for a table word as the host numbers its bits; a word of no table width places nothing. -/
def placeTableWord (nbits w : Nat) (s : State) : State :=
  match tableForm nbits w with
  | some f => placeForm f s
  | none => s

end Sys2Proof.Machine
end

