-- ==== Sys2Proof/Machine/Control.lean ====
section
/-! DEFINITION. The control-byte rows: the operation each unit does for channel `n` under that field value (log 9). MODE0 to MODE7 move
one unit (spec/40_transfer_mode.md R141 to R148, spec/42_hdma.md R198); STEP.* step A1T once (R136, R137); DIR.* move one DMA byte
(R139, spec/41_dma.md R172); HDMA.DIRECT and HDMA.INDIRECT move one HDMA byte (spec/42_hdma.md R197). DO_DMA and DO_HDMA are made of
these operations. -/

namespace Sys2Proof.Machine

/-- MODE0: unit length 1, offset 0 (R141). -/
def execMode0 (n : Chan) (i : Bool) (s : State) : Outcome := .next ((hdmaUnit n i 0 s).respond .none)

/-- MODE1: unit length 2, offsets 0, 1 (R142). -/
def execMode1 (n : Chan) (i : Bool) (s : State) : Outcome := .next ((hdmaUnit n i 1 s).respond .none)

/-- MODE2: unit length 2, offsets 0, 0 (R143). -/
def execMode2 (n : Chan) (i : Bool) (s : State) : Outcome := .next ((hdmaUnit n i 2 s).respond .none)

/-- MODE3: unit length 4, offsets 0, 0, 1, 1 (R144). -/
def execMode3 (n : Chan) (i : Bool) (s : State) : Outcome := .next ((hdmaUnit n i 3 s).respond .none)

/-- MODE4: unit length 4, offsets 0, 1, 2, 3 (R145). -/
def execMode4 (n : Chan) (i : Bool) (s : State) : Outcome := .next ((hdmaUnit n i 4 s).respond .none)

/-- MODE5: unit length 4, offsets 0, 1, 0, 1 (R146). -/
def execMode5 (n : Chan) (i : Bool) (s : State) : Outcome := .next ((hdmaUnit n i 5 s).respond .none)

/-- MODE6: as MODE2 (R147). -/
def execMode6 (n : Chan) (i : Bool) (s : State) : Outcome := .next ((hdmaUnit n i 6 s).respond .none)

/-- MODE7: as MODE3 (R148). -/
def execMode7 (n : Chan) (i : Bool) (s : State) : Outcome := .next ((hdmaUnit n i 7 s).respond .none)

/-- STEP.INC (R136). -/
def execStepInc (n : Chan) (s : State) : Outcome := .next ((stepA1t n 0b00 s).respond .none)

/-- STEP.FIXED (R136). -/
def execStepFixed (n : Chan) (s : State) : Outcome := .next ((stepA1t n 0b01 s).respond .none)

/-- STEP.DEC (R136). -/
def execStepDec (n : Chan) (s : State) : Outcome := .next ((stepA1t n 0b10 s).respond .none)

/-- STEP.FIXED_ALT: the same mode as STEP.FIXED (spec/30_encoding.md R101). -/
def execStepFixedAlt (n : Chan) (s : State) : Outcome := .next ((stepA1t n 0b11 s).respond .none)

/-- DIR.AtoB: byte k read from the A-bus, written to the B-bus (R139). -/
def execDirAtoB (n : Chan) (k : Half) (m : BitVec 3) (s : State) : Outcome :=
  .next ((dmaMove n false m k.toNat s).respond .none)

/-- DIR.BtoA: byte k read from the B-bus, written to the A-bus (R139, R172). -/
def execDirBtoA (n : Chan) (k : Half) (m : BitVec 3) (s : State) : Outcome :=
  .next ((dmaMove n true m k.toNat s).respond .none)

/-- HDMA.DIRECT: byte k read from the table (R197). -/
def execHdmaDirect (n : Chan) (k : Half) (m : BitVec 3) (s : State) : Outcome :=
  .next ((hdmaMove n false m k.toNat s).respond .none)

/-- HDMA.INDIRECT: byte k read from the indirect address (R197). -/
def execHdmaIndirect (n : Chan) (k : Half) (m : BitVec 3) (s : State) : Outcome :=
  .next ((hdmaMove n true m k.toNat s).respond .none)

end Sys2Proof.Machine
end

