-- ==== Sys2Proof/Machine/Dma.lean ====
section
/-! DEFINITION. DO_DMA (spec/41_dma.md R160). -/

namespace Sys2Proof.Machine

/-- One turn of the inner loop but for the count: byte k of channel n moved, then A1T stepped, then DAS decremented (R160). -/
def dmaByte (n : Chan) (k : Nat) (s : State) : State :=
  let dmap := (s.ch n).dmap
  let s1 := dmaMove n (dmapDir dmap) (dmapMode dmap) k s
  let s2 := stepA1t n (dmapStep dmap) s1
  s2.setDas n ((s2.ch n).das - 1)

/-- `repeat … until DAS[n] == 0` from byte index k and cycle sum `cyc`, at most `fuel` turns. 65536 turns always suffice (R163). -/
def dmaLoop (n : Chan) : Nat → Nat → State → Nat → State × Nat
  | 0, _, s, cyc => (s, cyc)
  | fuel + 1, k, s, cyc =>
    let s' := dmaByte n k s
    let cyc' := cyc + Config.dmaByteCycles
    if (s'.ch n).das = 0 then (s', cyc') else dmaLoop n fuel (k + 1) s' cyc'

/-- Channel n's turn of DO_DMA's outer loop (R160, R161): nothing unless its mask bit is 1. -/
def dmaChannel (m : Byte) (p : State × Nat) (n : Chan) : State × Nat :=
  if maskBit m n then dmaLoop n 65536 0 p.1 (p.2 + Config.dmaChannelCycles) else p

/-- DO_DMA `m` (R160): the selected channels in ascending order (R162), then `MDMAEN <- 0` (R167); the response is the cycle sum modulo
2^32 (R166). -/
def execDoDma (m : Byte) (s : State) : Outcome :=
  let r := allChans.foldl (dmaChannel m) (s, 0)
  .next ((r.1.setMdmaen 0).respond (.cycles (BitVec.ofNat 32 r.2)))

end Sys2Proof.Machine
end

