-- ==== Sys2Proof/Machine/Hdma.lean ====
section
/-! DEFINITION. INIT_HDMA, DO_HDMA and the table bytes (spec/42_hdma.md R191, R192, R195). -/

namespace Sys2Proof.Machine

/-- Channel n's turn of INIT_HDMA (R191): the pointer copied and the first entry loaded (R193), or made inactive (R194). -/
def initChannel (s : State) (n : Chan) : State :=
  if maskBit s.engine.hdmaen n then loadEntry n (s.setA2a n (s.ch n).a1t) else s.setActive n false

/-- INIT_HDMA (R191): no response. -/
def execInitHdma (s : State) : Outcome := .next ((allChans.foldl initChannel s).respond .none)

/-- Channel n is processed: active, enabled in HDMAEN, and in the mask (R196). -/
def processed (m : Byte) (s : State) (n : Chan) : Bool :=
  (s.ch n).active && maskBit s.engine.hdmaen n && maskBit m n

/-- The line counter's turn of a processed channel: NTRL's counter decremented (R199), then a reload when it is due (R200, R201). -/
def countLine (n : Chan) (s : State) : State :=
  let old := (s.ch n).ntrl
  let s1 := s.setNtrl n (decLine old)
  if reloadDue old then loadEntry n s1 else s1

/-- A processed channel's line: one unit in its mode and addressing (R198), then the line counter. -/
def hdmaLine (n : Chan) (s : State) : State :=
  let dmap := (s.ch n).dmap
  countLine n (hdmaUnit n (dmapInd dmap) (dmapMode dmap) s)

/-- What DO_HDMA carries from channel to channel: the state, `nch` and `nb` (R195). -/
structure LineRun where
  st : State
  nch : Nat
  nb : Nat
deriving DecidableEq, Repr

/-- Channel n's turn of DO_HDMA (R195, R196). -/
def hdmaChannel (m : Byte) (r : LineRun) (n : Chan) : LineRun :=
  if processed m r.st n then
    { st := hdmaLine n r.st, nch := r.nch + 1, nb := r.nb + unitLen (dmapMode (r.st.ch n).dmap) }
  else r

/-- DO_HDMA `m` (R195): the processed channels in ascending order (R204); the response is
`(nch · HDMA_CHANNEL_CYCLES + nb · HDMA_BYTE_CYCLES) mod 2^32` (R203). -/
def execDoHdma (m : Byte) (s : State) : Outcome :=
  let r := allChans.foldl (hdmaChannel m) { st := s, nch := 0, nb := 0 }
  .next (r.st.respond (.cycles (BitVec.ofNat 32 (r.nch * Config.hdmaChannelCycles + r.nb * Config.hdmaByteCycles))))

/-- HDMA.END, table byte 0x00: the channel is inactive for the rest of the frame; NTRL and DAS unchanged (R192, R202). -/
def execHdmaEnd (n : Chan) (s : State) : Outcome := .next ((loadByte n 0 s).respond .none)

/-- HDMA.ENTRY, table byte `0ccccccc`: an entry of `c` lines, repeat clear (R192, R200). A term with c = 0 is not well formed; it acts
as the byte it stands for, the terminator (log 17). -/
def execHdmaEntry (n : Chan) (c : BitVec 7) (s : State) : Outcome := .next ((loadByte n ((0 : BitVec 1) ++ c) s).respond .none)

/-- HDMA.ENTRY_REPEAT, table byte `1ccccccc`: an entry of `c + 1` lines, repeat set (R192, R201). -/
def execHdmaEntryRepeat (n : Chan) (c : BitVec 7) (s : State) : Outcome := .next ((loadByte n ((1 : BitVec 1) ++ c) s).respond .none)

end Sys2Proof.Machine
end

