-- ==== Sys2Proof/Machine/Register.lean ====
section
/-! DEFINITION. REG_READ, REG_WRITE and the window rows REG.* (spec/43_register_access.md). -/

namespace Sys2Proof.Machine

/-- REG_READ `a` (R233): the byte at `a`, no side effect; refused at a mask or an undecoded address (R234, R235). -/
def execRegRead (a : Half) (s : State) : Outcome :=
  match windowPort a with
  | some p => accessPort p .read s
  | none => .refused .undecodedRead

/-- REG_WRITE `a`, `d` (R230 to R232): stores `d` at `a`; refused at an undecoded address (R235). -/
def execRegWrite (a : Half) (d : Byte) (s : State) : Outcome :=
  match windowPort a with
  | some p => accessPort p (.write d) s
  | none => .refused .undecodedWrite

/-- REG.DMAP, window address 0x43c0. -/
def execRegDmap (c : Chan) (acc : Access) (s : State) : Outcome := accessPort (.chan c .dmap) acc s

/-- REG.BBAD, 0x43c1. -/
def execRegBbad (c : Chan) (acc : Access) (s : State) : Outcome := accessPort (.chan c .bbad) acc s

/-- REG.A1T_LO, 0x43c2. -/
def execRegA1tLo (c : Chan) (acc : Access) (s : State) : Outcome := accessPort (.chan c .a1tLo) acc s

/-- REG.A1T_HI, 0x43c3. -/
def execRegA1tHi (c : Chan) (acc : Access) (s : State) : Outcome := accessPort (.chan c .a1tHi) acc s

/-- REG.A1B, 0x43c4. -/
def execRegA1b (c : Chan) (acc : Access) (s : State) : Outcome := accessPort (.chan c .a1b) acc s

/-- REG.DAS_LO, 0x43c5. -/
def execRegDasLo (c : Chan) (acc : Access) (s : State) : Outcome := accessPort (.chan c .dasLo) acc s

/-- REG.DAS_HI, 0x43c6. -/
def execRegDasHi (c : Chan) (acc : Access) (s : State) : Outcome := accessPort (.chan c .dasHi) acc s

/-- REG.DASB, 0x43c7. -/
def execRegDasb (c : Chan) (acc : Access) (s : State) : Outcome := accessPort (.chan c .dasb) acc s

/-- REG.A2A_LO, 0x43c8. -/
def execRegA2aLo (c : Chan) (acc : Access) (s : State) : Outcome := accessPort (.chan c .a2aLo) acc s

/-- REG.A2A_HI, 0x43c9. -/
def execRegA2aHi (c : Chan) (acc : Access) (s : State) : Outcome := accessPort (.chan c .a2aHi) acc s

/-- REG.NTRL, 0x43cA. -/
def execRegNtrl (c : Chan) (acc : Access) (s : State) : Outcome := accessPort (.chan c .ntrl) acc s

/-- REG.UNUSED_B, 0x43cB (R236). -/
def execRegUnusedB (c : Chan) (acc : Access) (s : State) : Outcome := accessPort (.chan c .unusedB) acc s

/-- REG.UNUSED_F, 0x43cF, the same byte (R236). -/
def execRegUnusedF (c : Chan) (acc : Access) (s : State) : Outcome := accessPort (.chan c .unusedF) acc s

/-- REG.MDMAEN, 0x420B: write only (R231, R234). -/
def execRegMdmaen (acc : Access) (s : State) : Outcome := accessPort .mdmaen acc s

/-- REG.HDMAEN, 0x420C: write only (R232, R234). -/
def execRegHdmaen (acc : Access) (s : State) : Outcome := accessPort .hdmaen acc s

end Sys2Proof.Machine
end

