-- ==== Sys2Proof/Machine/Dispatch.lean ====
section
/-! DEFINITION. One arm per constructor of `Instr`, each one call of its meaning. -/

namespace Sys2Proof.Machine

/-- What an instruction does. -/
def exec (i : Instr) (s : State) : Host.Outcome State Fault Refusal :=
  match i with
  -- commands
  | .regRead a => Sys2Proof.Machine.execRegRead a s
  | .regWrite a d => Sys2Proof.Machine.execRegWrite a d s
  | .initHdma => Sys2Proof.Machine.execInitHdma s
  | .doHdma m => Sys2Proof.Machine.execDoHdma m s
  | .doDma m => Sys2Proof.Machine.execDoDma m s
  -- the register window
  | .regDmap c acc => Sys2Proof.Machine.execRegDmap c acc s
  | .regBbad c acc => Sys2Proof.Machine.execRegBbad c acc s
  | .regA1tLo c acc => Sys2Proof.Machine.execRegA1tLo c acc s
  | .regA1tHi c acc => Sys2Proof.Machine.execRegA1tHi c acc s
  | .regA1b c acc => Sys2Proof.Machine.execRegA1b c acc s
  | .regDasLo c acc => Sys2Proof.Machine.execRegDasLo c acc s
  | .regDasHi c acc => Sys2Proof.Machine.execRegDasHi c acc s
  | .regDasb c acc => Sys2Proof.Machine.execRegDasb c acc s
  | .regA2aLo c acc => Sys2Proof.Machine.execRegA2aLo c acc s
  | .regA2aHi c acc => Sys2Proof.Machine.execRegA2aHi c acc s
  | .regNtrl c acc => Sys2Proof.Machine.execRegNtrl c acc s
  | .regUnusedB c acc => Sys2Proof.Machine.execRegUnusedB c acc s
  | .regUnusedF c acc => Sys2Proof.Machine.execRegUnusedF c acc s
  | .regMdmaen acc => Sys2Proof.Machine.execRegMdmaen acc s
  | .regHdmaen acc => Sys2Proof.Machine.execRegHdmaen acc s
  -- control-byte rows
  | .mode0 n _ ind _ _ => Sys2Proof.Machine.execMode0 n ind s
  | .mode1 n _ ind _ _ => Sys2Proof.Machine.execMode1 n ind s
  | .mode2 n _ ind _ _ => Sys2Proof.Machine.execMode2 n ind s
  | .mode3 n _ ind _ _ => Sys2Proof.Machine.execMode3 n ind s
  | .mode4 n _ ind _ _ => Sys2Proof.Machine.execMode4 n ind s
  | .mode5 n _ ind _ _ => Sys2Proof.Machine.execMode5 n ind s
  | .mode6 n _ ind _ _ => Sys2Proof.Machine.execMode6 n ind s
  | .mode7 n _ ind _ _ => Sys2Proof.Machine.execMode7 n ind s
  | .stepInc n _ _ _ _ => Sys2Proof.Machine.execStepInc n s
  | .stepFixed n _ _ _ _ => Sys2Proof.Machine.execStepFixed n s
  | .stepDec n _ _ _ _ => Sys2Proof.Machine.execStepDec n s
  | .stepFixedAlt n _ _ _ _ => Sys2Proof.Machine.execStepFixedAlt n s
  | .dirAtoB n k _ _ _ m => Sys2Proof.Machine.execDirAtoB n k m s
  | .dirBtoA n k _ _ _ m => Sys2Proof.Machine.execDirBtoA n k m s
  | .hdmaDirect n k _ _ _ m => Sys2Proof.Machine.execHdmaDirect n k m s
  | .hdmaIndirect n k _ _ _ m => Sys2Proof.Machine.execHdmaIndirect n k m s
  -- table bytes
  | .hdmaEnd n => Sys2Proof.Machine.execHdmaEnd n s
  | .hdmaEntry n c => Sys2Proof.Machine.execHdmaEntry n c s
  | .hdmaEntryRepeat n c => Sys2Proof.Machine.execHdmaEntryRepeat n c s

end Sys2Proof.Machine
end

