-- ==== Sys2Proof/Machine/Step.lean ====
section
/-! DEFINITION. One step: the next request fetched, decoded and executed; and where the host's table words are placed. -/

namespace Sys2Proof.Machine

/-- One step. With nothing waiting the engine idles and holds its whole state (spec/60_exceptions.md R273,
spec/70_reset_and_hazards.md R284). Otherwise the next request is taken, fetched and decoded: an instruction is executed, a form the
decoder rejects is refused by name (spec/30_encoding.md R94, spec/60_exceptions.md R262). -/
def step (s : State) : Host.Outcome State Fault Refusal :=
  match s.pending with
  | [] => .next s
  | r :: rest =>
    match fetch r (s.setPending rest) with
    | (none, t) => .next t
    | (some f, t) =>
      match decode f with
      | .ok i => exec i t
      | .error e => .refused (refusalOf e)

/-- The state with a table word placed where `step` fetches its next instruction (log 10, log 11, log 13). -/
def State.withFetchWord (s : State) (nbits w : Nat) : State := placeTableWord nbits w s

end Sys2Proof.Machine
end

