-- ==== Sys2Proof/Safety.lean ====
section
/-! DEFINITION. The terms claims are made in: which instructions the engine admits (spec/60_exceptions.md R260, R262), the invariant of
the state, and the host's mask duties (spec/70_reset_and_hazards.md R286). A safe run is one in which no step is refused; the engine
has no other way to fail. -/

namespace Sys2Proof.Machine

/-- The engine gives the instruction a meaning: everything but a read of an address that is no channel register and a write of an
undecoded address (R262). -/
def admitted : Instr → Bool
  | .regRead a =>
    match windowPort a with
    | some (.chan _ _) => true
    | _ => false
  | .regWrite a _ => (windowPort a).isSome
  | .regMdmaen acc => acc != .read
  | .regHdmaen acc => acc != .read
  | _ => true

/-- The Bus's known bytes are in canonical form and in their spaces: 2^24 A-bus and 256 B-bus addresses (spec/20_memory.md R60, R61). -/
def Bus.canonical (b : Bus) : Bool :=
  b.aMem.wf && b.aMem.within (2 ^ 24) && b.bMem.wf && b.bMem.within (2 ^ 8)

/-- The mask the host owes a command (R286): DO_HDMA's is HDMAEN, DO_DMA's the value software wrote to MDMAEN. The engine does not
check it (spec/41_dma.md R161); the scheduling duties of R286 are the host's and no state of the engine shows them. -/
def hostDuty (s : State) : Instr → Bool
  | .doHdma m => m == s.engine.hdmaen
  | .doDma m => m == s.engine.mdmaen
  | _ => true

/-- A run is safe as far as it goes: the step answers a next state. -/
def stepSafe (s : State) : Bool :=
  match step s with
  | .next _ => true
  | .fault _ => false
  | .refused _ => false

/-- The access an event records: the event without the byte a read was answered. -/
def BusEvent.access : BusEvent → BusAccess
  | .aRead a _ => .aRead a
  | .aWrite a v => .aWrite a v
  | .bRead x _ => .bRead x
  | .bWrite x v => .bWrite x v

/-- The space, kind and address of an event, its byte left out. -/
def BusEvent.blank : BusEvent → BusEvent
  | .aRead a _ => .aRead a 0
  | .aWrite a _ => .aWrite a 0
  | .bRead x _ => .bRead x 0
  | .bWrite x _ => .bWrite x 0

/-- The Bus after the accesses `es`, in order, from Bus `b`; none if some read event's value is not what the Bus answers at that point.
So `b.run es = some b'` says that `es` is exactly what was appended to the trace and that `b'` is what those accesses, with their side
effects, make of `b` (spec/20_memory.md R66 to R70). -/
def Bus.run (b : Bus) : List BusEvent → Option Bus
  | [] => some b
  | e :: es => if e = b.event e.access then (b.access e.access).run es else none

/-- The side effects of the accesses `es`, in order (R70). -/
def Bus.sideEffects (b : Bus) : List BusEvent → List BusChange
  | [] => []
  | e :: es => (b.turn e.access).effects ++ (b.access e.access).sideEffects es

/-- No access of `es` changes A-bus byte `y` on the side. -/
def Bus.sparesA (b : Bus) (es : List BusEvent) (y : Nat) : Prop :=
  ∀ a v, BusChange.aByte a v ∈ b.sideEffects es → a.toNat ≠ y

/-- No access of `es` changes B-bus byte `y` on the side. -/
def Bus.sparesB (b : Bus) (es : List BusEvent) (y : Nat) : Prop :=
  ∀ x v, BusChange.bByte x v ∈ b.sideEffects es → x.toNat ≠ y

/-- The frame of the accesses `es` in A-bus memory: every byte whose address is not in `W`, and that no access changes on the side, reads
as before. -/
def Bus.keepsA (b b' : Bus) (es : List BusEvent) (W : Nat → Prop) : Prop :=
  ∀ y : Nat, ¬ W y → b.sparesA es y → b'.aMem.read y = b.aMem.read y

/-- The same in B-bus memory. -/
def Bus.keepsB (b b' : Bus) (es : List BusEvent) (W : Nat → Prop) : Prop :=
  ∀ y : Nat, ¬ W y → b.sparesB es y → b'.bMem.read y = b.bMem.read y

/-! ## Closed forms

What the property rules of spec/41_dma.md and spec/42_hdma.md say a command does to one channel and on the buses, with no loop: claims
compare the meanings with these. `vs k` stands for the k-th byte moved, `b`, `lo`, `hi` for the table bytes read. -/

/-- The bytes a DMA moves: the byte counter, 0 read as 65536 (spec/41_dma.md R163). -/
def dmaCount (das : Half) : Nat := if das = 0 then 65536 else das.toNat

/-- A1T after k bytes: the start plus k, minus k, or unchanged (spec/41_dma.md R165). -/
def a1tAfter (c : Channel) (k : Nat) : Half :=
  if dmapStep c.dmap = 0b00 then c.a1t + BitVec.ofNat 16 k
  else if dmapStep c.dmap = 0b10 then c.a1t - BitVec.ofNat 16 k
  else c.a1t

/-- The two accesses of one byte move (spec/40_transfer_mode.md R139). -/
def moveEvents (dir : Bool) (a : Addr) (x : Byte) (v : Byte) : List BusEvent :=
  if dir then [.bRead x v, .aWrite a v] else [.aRead a v, .bWrite x v]

/-- The accesses of a channel's DMA: byte k between `A1B:` A1T after k bytes and `BAddr(n, k)` (spec/41_dma.md R163 to R165, R172). -/
def dmaEvents (c : Channel) (vs : Nat → Byte) : List BusEvent :=
  (List.range (dmaCount c.das)).flatMap fun k =>
    moveEvents (dmapDir c.dmap) (mkAddr c.a1b (a1tAfter c k)) (bAddr c.bbad (dmapMode c.dmap) k) (vs k)

/-- A channel after its DMA: A1T stepped once per byte, DAS 0 (spec/41_dma.md R163, R165). -/
def dmaDone (c : Channel) : Channel := { c with a1t := a1tAfter c (dmaCount c.das), das := 0 }

/-- The address of an HDMA data byte, k bytes past the pointer, in its bank (spec/42_hdma.md R197). -/
def unitAddr (ind : Bool) (c : Channel) (k : Nat) : Addr :=
  if ind then mkAddr c.dasb (c.das + BitVec.ofNat 16 k) else mkAddr c.a1b (c.a2a + BitVec.ofNat 16 k)

/-- The accesses of one unit (spec/42_hdma.md R198). -/
def unitEvents (ind : Bool) (m : BitVec 3) (c : Channel) (vs : Nat → Byte) : List BusEvent :=
  (List.range (unitLen m)).flatMap fun k => moveEvents false (unitAddr ind c k) (bAddr c.bbad m k) (vs k)

/-- A channel whose data pointer has passed k bytes (spec/42_hdma.md R197). -/
def pointerPast (ind : Bool) (k : Nat) (c : Channel) : Channel :=
  if ind then { c with das := c.das + BitVec.ofNat 16 k } else { c with a2a := c.a2a + BitVec.ofNat 16 k }

/-- The accesses of LoadEntry: a terminator and a direct entry one read, an indirect entry three (spec/42_hdma.md R192). -/
def entryEvents (c : Channel) (b lo hi : Byte) : List BusEvent :=
  .aRead (mkAddr c.a1b c.a2a) b ::
    if b ≠ 0 ∧ dmapInd c.dmap then [.aRead (mkAddr c.a1b (c.a2a + 1)) lo, .aRead (mkAddr c.a1b (c.a2a + 2)) hi] else []

/-- A channel after LoadEntry read `b` (and `lo`, `hi`) (spec/42_hdma.md R192). -/
def entryDone (c : Channel) (b lo hi : Byte) : Channel :=
  if b = 0 then { c with a2a := c.a2a + 1, active := false }
  else if dmapInd c.dmap then { c with a2a := c.a2a + 3, ntrl := b, das := hi ++ lo, active := true }
  else { c with a2a := c.a2a + 1, ntrl := b, active := true }

/-- A processed channel past its unit and with its line counter decremented, before any reload (spec/42_hdma.md R197, R199). -/
def lineCounted (c : Channel) : Channel :=
  { pointerPast (dmapInd c.dmap) (unitLen (dmapMode c.dmap)) c with ntrl := decLine c.ntrl }

/-- The accesses of a processed channel's line (spec/42_hdma.md R198, R200, R201). -/
def lineEvents (c : Channel) (vs : Nat → Byte) (b lo hi : Byte) : List BusEvent :=
  unitEvents (dmapInd c.dmap) (dmapMode c.dmap) c vs ++
    if reloadDue c.ntrl then entryEvents (lineCounted c) b lo hi else []

/-- A processed channel after its line (spec/42_hdma.md R197 to R202). -/
def lineDone (c : Channel) (b lo hi : Byte) : Channel :=
  if reloadDue c.ntrl then entryDone (lineCounted c) b lo hi else lineCounted c

/-- The lines a channel goes on with NTRL `b`, from its next DO_HDMA to the one that reloads: c with repeat clear, c + 1 with repeat set,
and 128 for the counter 0 with repeat clear that only a REG_WRITE leaves (spec/42_hdma.md R207). -/
def entryLines (b : Byte) : Nat :=
  if repeatFlag b then (lineCount b).toNat + 1 else if lineCount b = 0 then 128 else (lineCount b).toNat

/-- What an operation on channel n leaves alone beside that channel and the Bus. -/
def restKept (n : Chan) (s t : State) : Prop :=
  (∀ k, k ≠ n → t.ch k = s.ch k) ∧ t.engine.mdmaen = s.engine.mdmaen ∧ t.engine.hdmaen = s.engine.hdmaen ∧ t.pending = s.pending

/-- The bytes a DO_DMA moves in all (spec/41_dma.md R166: B). -/
def dmaBytes (m : Byte) (s : State) : Nat :=
  (allChans.map fun n => if maskBit m n then dmaCount (s.ch n).das else 0).sum

/-- The channels a DO_DMA selects, counted (spec/41_dma.md R166: C). -/
def dmaSelected (m : Byte) : Nat := allChans.countP (maskBit m)

/-- The bytes a DO_HDMA writes to the B-bus (spec/42_hdma.md R203: nb). -/
def hdmaBytes (m : Byte) (s : State) : Nat :=
  (allChans.map fun n => if processed m s n then unitLen (dmapMode (s.ch n).dmap) else 0).sum

/-- The channels a DO_HDMA processes, counted (spec/42_hdma.md R203: nch). -/
def hdmaProcessed (m : Byte) (s : State) : Nat := allChans.countP (processed m s)

end Sys2Proof.Machine
end

