-- ==== Sys2Proof/Certificates/Slice0/Obligations.lean ====
section
/-! DEFINITION. The statements for the provers. The closed forms they compare the meanings with (`dmaEvents`, `dmaDone`, `unitEvents`,
`entryEvents`, `entryDone`, `lineEvents`, `lineDone`, `Bus.run`, …) stand in Sys2Proof/Safety.lean. -/

open Sys2Proof Sys2Proof.Machine

/-! ## Encoding -/

/-- Decoding what the encoder writes gives the instruction back, every operand at every value. -/
def Obligations.DecodeUndoesEncode : Prop :=
  ∀ i : Instr, i.wf = true → decode (encode i) = .ok i

/-- A form that decodes is what the encoder writes for its instruction, which is well formed. -/
def Obligations.EncodeUndoesDecode : Prop :=
  ∀ (f : InstrWord) (i : Instr), decode f = .ok i → encode i = f ∧ i.wf = true

/-- spec/30_encoding.md R93: the five commands are exactly the words with the match bits of their rows, and their operands are the fields. -/
def Obligations.RequestWordsDecodeByMatchAndMask : Prop :=
  ∀ w : Req, decode (.command w) =
    if w &&& 0xF80007FF = 0x00000000 then .ok (.regRead (w.extractLsb' 11 16))
    else if w &&& 0xF8000007 = 0x00000001 then .ok (.regWrite (w.extractLsb' 11 16) (w.extractLsb' 3 8))
    else if w = 0x00000002 then .ok .initHdma
    else if w &&& 0xFFFFF807 = 0x00000003 then .ok (.doHdma (w.extractLsb' 3 8))
    else if w &&& 0xFFFFF807 = 0x00000004 then .ok (.doDma (w.extractLsb' 3 8))
    else .error .illegalCommand

/-- spec/30_encoding.md R94: cmd 0b101 to 0b111, a non-zero z, a non-zero must-be-zero field: exactly these words are refused as
IllegalCommand. -/
def Obligations.IllegalWordsAreRefused : Prop :=
  ∀ (s : State) (w : Req) (rest : List Request), s.pending = .command w :: rest →
    (step s = .refused .illegalCommand ↔
      (w.extractLsb' 27 5 ≠ 0 ∨ 5 ≤ (w.extractLsb' 0 3).toNat ∨
        (w.extractLsb' 0 3 = 0 ∧ w.extractLsb' 3 8 ≠ 0) ∨
        (w.extractLsb' 0 3 = 2 ∧ (w.extractLsb' 11 16 ≠ 0 ∨ w.extractLsb' 3 8 ≠ 0)) ∨
        (w.extractLsb' 0 3 = 3 ∧ w.extractLsb' 11 16 ≠ 0) ∨
        (w.extractLsb' 0 3 = 4 ∧ w.extractLsb' 11 16 ≠ 0)))

/-- spec/95_test_vectors.md 2.1, and one word of each other family (spec/30_encoding.md R97, R98, R100, R105), written out. -/
def Obligations.SpecWordsDecode : Prop :=
  decode (.command 0x0000000C) = .ok (.doDma 0x01) ∧ decode (.command 0x00000013) = .ok (.doHdma 0x02) ∧
  decode (.command 0x00000002) = .ok .initHdma ∧ decode (.command 0x02180009) = .ok (.regWrite 0x4300 0x01) ∧
  decode (.command 0x02181000) = .ok (.regRead 0x4302) ∧ decode (.command 0x0000080C) = .error .illegalCommand ∧
  decode (.window .read 0x4325) = .ok (.regDasLo 2 .read) ∧ decode (.window (.write 7) 0x420C) = .ok (.regHdmaen (.write 7)) ∧
  decode (.control .mode 1 0x91) = .ok (.mode1 1 true false false 0b10) ∧
  decode (.control .step 1 0x91) = .ok (.stepDec 1 true false false 0b001) ∧
  decode (.control (.route 3) 1 0x91) = .ok (.dirBtoA 1 3 false false 0b10 0b001) ∧
  decode (.control (.addressing 0) 3 0x42) = .ok (.hdmaIndirect 3 0 false false 0b00 0b010) ∧
  decode (.table 0 0x00) = .ok (.hdmaEnd 0) ∧ decode (.table 0 0x85) = .ok (.hdmaEntryRepeat 0 5) ∧
  decode (.table 0 0x02) = .ok (.hdmaEntry 0 2)

/-- spec/30_encoding.md R97: the register byte each index r of channel n's block selects, as an access of it (log 9). -/
def Obligations.WindowAddressesSelectTheirRegisters : Prop :=
  ∀ (acc : Access) (n : Chan),
    let at' := fun r : Nat => decode (.window acc (BitVec.ofNat 16 (0x4300 + 0x10 * n.val + r)))
    at' 0x0 = .ok (.regDmap n acc) ∧ at' 0x1 = .ok (.regBbad n acc) ∧ at' 0x2 = .ok (.regA1tLo n acc) ∧
    at' 0x3 = .ok (.regA1tHi n acc) ∧ at' 0x4 = .ok (.regA1b n acc) ∧ at' 0x5 = .ok (.regDasLo n acc) ∧
    at' 0x6 = .ok (.regDasHi n acc) ∧ at' 0x7 = .ok (.regDasb n acc) ∧ at' 0x8 = .ok (.regA2aLo n acc) ∧
    at' 0x9 = .ok (.regA2aHi n acc) ∧ at' 0xA = .ok (.regNtrl n acc) ∧ at' 0xB = .ok (.regUnusedB n acc) ∧
    at' 0xF = .ok (.regUnusedF n acc) ∧
    (∀ r ∈ [0xC, 0xD, 0xE], at' r = .error (match acc with | .read => .undecodedRead | .write _ => .undecodedWrite))

/-! ## Steps -/

/-- A step runs the decoded instruction: the request taken off the queue, its form fetched, decoded and executed. For a request word
(spec/30_encoding.md R91 to R94) the state executed in is the state without that request. The queue itself is the model's choice (log 13),
and so are the requests for a window access and for a control byte, asked for alone (log 9). -/
def Obligations.StepExecutesTheDecodedInstruction : Prop :=
  ∀ (s : State) (r : Request) (rest : List Request), s.pending = r :: rest →
    (∀ f t i, fetch r (s.setPending rest) = (some f, t) → decode f = .ok i → step s = exec i t) ∧
    (∀ w i, r = .command w → decode (.command w) = .ok i → step s = exec i (s.setPending rest)) ∧
    (∀ acc a i, r = .window acc a → decode (.window acc a) = .ok i → step s = exec i (s.setPending rest)) ∧
    (∀ u n, r = .control u n → step s = exec (decodeControl u n (s.ch n).dmap) (s.setPending rest))

/-- The model's reading of a table request (log 9): one A-bus read at `A1B:A2A`, the pointer past it, the byte's row executed. -/
def Obligations.StepExecutesTheTableByte : Prop :=
  ∀ (s : State) (n : Chan) (rest : List Request), s.pending = .table n :: rest →
    ∃ t, step s = exec (decodeTable n (s.bus.answerA (mkAddr (s.ch n).a1b (s.ch n).a2a))) t ∧
      t.bus = s.bus.readA (mkAddr (s.ch n).a1b (s.ch n).a2a) ∧ t.ch n = { s.ch n with a2a := (s.ch n).a2a + 1 } ∧
      (∀ k, k ≠ n → t.ch k = s.ch k) ∧ t.engine.mdmaen = s.engine.mdmaen ∧ t.engine.hdmaen = s.engine.hdmaen ∧
      t.response = s.response ∧ t.pending = rest

/-- spec/60_exceptions.md R260, R262, of the five commands: an admitted one answers a next state in every state, the others are refused
as UndecodedRead or UndecodedWrite, nothing faults. The same of the 34 rows that are no command, executed alone, is the model's reading
(log 9), and so is what an ill-formed HDMA.ENTRY of 0 lines does (log 17). -/
def Obligations.AdmittedInstructionsNeverFail : Prop :=
  ∀ (i : Instr) (s : State),
    (admitted i = true → ∃ t, exec i s = .next t) ∧
    (admitted i = false → exec i s = .refused .undecodedRead ∨ exec i s = .refused .undecodedWrite)

/-- With nothing waiting the engine is idle and holds its whole state; so it does right after reset, whatever the draw. That idling is a
step is the model's choice (log 13). -/
def Obligations.IdleEngineHoldsItsState : Prop :=
  (∀ s : State, s.pending = [] → step s = .next s) ∧
  ∀ draw, step (State.resetWith draw) = .next (State.resetWith draw)

/-- Another agent's change of the Bus between two commands (spec/20_memory.md R76; that it is a request of its own is the model's choice,
log 6): one byte of one bus, or one region of one map, and nothing else but its record. Where the platform's map has memory or a rom
(log 4, log 5) the Bus then answers that byte. -/
def Obligations.OutsideChangeReachesOnlyItsPart : Prop :=
  ∀ (s : State) (c : BusChange) (rest : List Request), s.pending = .outside c :: rest →
    ∃ t, step s = .next t ∧ t.engine = s.engine ∧ t.pending = rest ∧ t.response = s.response ∧ t.bus.trace = s.bus.trace ∧
      t.bus.turns = s.bus.turns ∧ t.bus.outside = s.bus.outside ++ [(s.bus.trace.length, c)] ∧
      (∀ a v, c = .aByte a v → t.bus.aMem.read a.toNat = some v ∧
        (∀ y : Nat, y ≠ a.toNat → t.bus.aMem.read y = s.bus.aMem.read y) ∧ t.bus.bMem = s.bus.bMem ∧
        t.bus.aMap = s.bus.aMap ∧ t.bus.bMap = s.bus.bMap ∧ (s.bus.kindA a ≠ .device → t.bus.answerA a = v)) ∧
      (∀ x v, c = .bByte x v → t.bus.bMem.read x.toNat = some v ∧
        (∀ y : Nat, y ≠ x.toNat → t.bus.bMem.read y = s.bus.bMem.read y) ∧ t.bus.aMem = s.bus.aMem ∧
        t.bus.aMap = s.bus.aMap ∧ t.bus.bMap = s.bus.bMap ∧ (s.bus.kindB x ≠ .device → t.bus.answerB x = v)) ∧
      (∀ r, c = .aRegion r → t.bus.aMap = r :: s.bus.aMap ∧ t.bus.bMap = s.bus.bMap ∧ t.bus.aMem = s.bus.aMem ∧
        t.bus.bMem = s.bus.bMem) ∧
      (∀ r, c = .bRegion r → t.bus.bMap = r :: s.bus.bMap ∧ t.bus.aMap = s.bus.aMap ∧ t.bus.aMem = s.bus.aMem ∧
        t.bus.bMem = s.bus.bMem)

/-! ## Invariants -/

/-- The Bus's known bytes keep their canonical form (the model's own, log 7) in every step, from every state that has it. -/
def Obligations.StepKeepsTheBusCanonical : Prop :=
  ∀ s t : State, s.bus.canonical = true → step s = .next t → t.bus.canonical = true

/-- Right after reset, whatever the draw: no bus access has been made and no command is in progress (spec/70_reset_and_hazards.md R283),
which in this model is an empty trace (log 8) and an empty queue (log 13), with no response; and of the Bus nothing is known, so that its
bytes are in canonical form (the form and the empty lists are the model's choices: log 7, log 18). -/
def Obligations.ResetBusIsCanonical : Prop :=
  ∀ draw, (State.resetWith draw).bus.canonical = true ∧ (State.resetWith draw).bus.trace = [] ∧ (State.resetWith draw).pending = [] ∧
    (State.resetWith draw).response = .none ∧ (State.resetWith draw).bus.aMem = [] ∧ (State.resetWith draw).bus.bMem = [] ∧
    (State.resetWith draw).bus.aMap = [] ∧ (State.resetWith draw).bus.bMap = [] ∧ (State.resetWith draw).bus.turns = [] ∧
    (State.resetWith draw).bus.outside = []

/-- Whatever an instruction does to the Bus is a run of single-byte accesses, appended to the trace in order, every read's value being
what the Bus answers at that point (spec/20_memory.md R66 to R69); and every byte of memory reads as before that no write of the run
goes to and no access of it changes on the side (R70; side effects as log 6 has them). -/
def Obligations.EveryInstructionIsARunOfAccesses : Prop :=
  ∀ (i : Instr) (s t : State), exec i s = .next t →
    ∃ es, s.bus.run es = some t.bus ∧ t.bus.trace = s.bus.trace ++ es ∧ t.pending = s.pending ∧
      s.bus.keepsA t.bus es (fun y => ∃ a v, BusEvent.aWrite a v ∈ es ∧ y = a.toNat) ∧
      s.bus.keepsB t.bus es (fun y => ∃ x v, BusEvent.bWrite x v ∈ es ∧ y = x.toNat)

/-- spec/20_memory.md R63: which command reaches which bus, and how. -/
def Obligations.CommandsReachOnlyTheirBuses : Prop :=
  (∀ (a : Half) (d : Byte) (s t : State), exec (.regRead a) s = .next t ∨ exec (.regWrite a d) s = .next t → t.bus = s.bus) ∧
  (∀ s t : State, exec .initHdma s = .next t →
    ∃ es, t.bus.trace = s.bus.trace ++ es ∧ ∀ e ∈ es, ∃ a v, e = .aRead a v) ∧
  (∀ (m : Byte) (s t : State), exec (.doHdma m) s = .next t →
    ∃ es, t.bus.trace = s.bus.trace ++ es ∧ ∀ e ∈ es, (∃ a v, e = .aRead a v) ∨ ∃ x v, e = .bWrite x v) ∧
  (∀ (m : Byte) (s t : State), exec (.doDma m) s = .next t →
    ∃ es, t.bus.trace = s.bus.trace ++ es ∧ ∀ e ∈ es,
      (((∃ a v, e = .aRead a v) ∨ ∃ x v, e = .bWrite x v) ∧ ∃ n, maskBit m n = true ∧ dmapDir (s.ch n).dmap = false) ∨
      (((∃ x v, e = .bRead x v) ∨ ∃ a v, e = .aWrite a v) ∧ ∃ n, maskBit m n = true ∧ dmapDir (s.ch n).dmap = true))

/-! ## Reset -/

/-- spec/70_reset_and_hazards.md R281, R282: masks 0 and no channel active, so that no DO_HDMA before the first INIT_HDMA does
anything. -/
def Obligations.ResetLeavesMasksAndFlagsClear : Prop :=
  ∀ draw, (State.resetWith draw).engine.mdmaen = 0x00 ∧ (State.resetWith draw).engine.hdmaen = 0x00 ∧
    (∀ n, ((State.resetWith draw).ch n).active = false) ∧
    (∀ m, exec (.doHdma m) (State.resetWith draw) = .next ((State.resetWith draw).respond (.cycles 0)))

/-- After reset REG_READ returns the draw's bytes, whatever the draw; their order in the draw is the model's reading (log 16). -/
def Obligations.ResetRegistersReadTheDraw : Prop :=
  ∀ (draw : Vector Byte 96) (n : Chan) (r : Fin 12),
    exec (.regRead (BitVec.ofNat 16 (0x4300 + 0x10 * n.val + r.val))) (State.resetWith draw) =
      .next ((State.resetWith draw).respond (.data (drawByte draw n r)))

/-! ## The register window -/

/-- spec/43_register_access.md R233: REG_READ of a channel register returns the byte and has no side effect. -/
def Obligations.RegReadReturnsTheByte : Prop :=
  ∀ (s : State) (n : Chan),
    let rd := fun r : Nat => exec (.regRead (BitVec.ofNat 16 (0x4300 + 0x10 * n.val + r))) s
    let ret := fun v : Byte => Host.Outcome.next (s.respond (.data v))
    let c := s.ch n
    rd 0x0 = ret c.dmap ∧ rd 0x1 = ret c.bbad ∧ rd 0x2 = ret (c.a1t.extractLsb' 0 8) ∧ rd 0x3 = ret (c.a1t.extractLsb' 8 8) ∧
    rd 0x4 = ret c.a1b ∧ rd 0x5 = ret (c.das.extractLsb' 0 8) ∧ rd 0x6 = ret (c.das.extractLsb' 8 8) ∧ rd 0x7 = ret c.dasb ∧
    rd 0x8 = ret (c.a2a.extractLsb' 0 8) ∧ rd 0x9 = ret (c.a2a.extractLsb' 8 8) ∧ rd 0xA = ret c.ntrl ∧
    rd 0xB = ret c.unused ∧ rd 0xF = ret c.unused ∧
    (∀ r ∈ [0xC, 0xD, 0xE], rd r = .refused .undecodedRead)

/-- spec/43_register_access.md R230: REG_WRITE of a channel register stores the byte. -/
def Obligations.RegWriteStoresTheByte : Prop :=
  ∀ (s : State) (n : Chan) (d : Byte),
    let wr := fun r : Nat => exec (.regWrite (BitVec.ofNat 16 (0x4300 + 0x10 * n.val + r)) d) s
    let put := fun c : Channel => Host.Outcome.next ((s.modCh n fun _ => c).respond .none)
    let c := s.ch n
    wr 0x0 = put { c with dmap := d } ∧ wr 0x1 = put { c with bbad := d } ∧
    wr 0x2 = put { c with a1t := c.a1t.extractLsb' 8 8 ++ d } ∧ wr 0x3 = put { c with a1t := d ++ c.a1t.extractLsb' 0 8 } ∧
    wr 0x4 = put { c with a1b := d } ∧ wr 0x5 = put { c with das := c.das.extractLsb' 8 8 ++ d } ∧
    wr 0x6 = put { c with das := d ++ c.das.extractLsb' 0 8 } ∧ wr 0x7 = put { c with dasb := d } ∧
    wr 0x8 = put { c with a2a := c.a2a.extractLsb' 8 8 ++ d } ∧ wr 0x9 = put { c with a2a := d ++ c.a2a.extractLsb' 0 8 } ∧
    wr 0xA = put { c with ntrl := d } ∧ wr 0xB = put { c with unused := d } ∧ wr 0xF = put { c with unused := d } ∧
    (∀ r ∈ [0xC, 0xD, 0xE], wr r = .refused .undecodedWrite)

/-- spec/43_register_access.md R231, R232: REG_WRITE of a mask stores it and does nothing else: it starts no transfer and changes no
active flag. -/
def Obligations.MaskWritesOnlyStore : Prop :=
  ∀ (s : State) (d : Byte),
    exec (.regWrite 0x420B d) s =
      .next { s with engine := { s.engine with mdmaen := d }, response := .none } ∧
    exec (.regWrite 0x420C d) s =
      .next { s with engine := { s.engine with hdmaen := d }, response := .none }

/-- spec/43_register_access.md R234: REG_READ of either mask is refused. -/
def Obligations.MaskReadsAreRefused : Prop :=
  ∀ s : State, exec (.regRead 0x420B) s = .refused .undecodedRead ∧ exec (.regRead 0x420C) s = .refused .undecodedRead

/-- spec/43_register_access.md R235 with spec/30_encoding.md R99: an access of an address the engine does not decode is refused. -/
def Obligations.UndecodedAddressesAreRefused : Prop :=
  ∀ (a : Half) (d : Byte) (s : State),
    (¬ (0x4300 ≤ a.toNat ∧ a.toNat ≤ 0x437F) ∨ a.toNat % 16 = 0xC ∨ a.toNat % 16 = 0xD ∨ a.toNat % 16 = 0xE) →
    a ≠ 0x420B → a ≠ 0x420C →
    exec (.regRead a) s = .refused .undecodedRead ∧ exec (.regWrite a d) s = .refused .undecodedWrite

/-- A window row, as an access of its own (log 9), reads or stores its register byte, every row, in every state; a read of a mask's row
is refused. -/
def Obligations.WindowRowsAccessTheirByte : Prop :=
  ∀ (s : State) (n : Chan) (d : Byte),
    let ret := fun v : Byte => Host.Outcome.next (s.respond (.data v))
    let put := fun c : Channel => Host.Outcome.next ((s.modCh n fun _ => c).respond .none)
    let c := s.ch n
    exec (.regDmap n .read) s = ret c.dmap ∧ exec (.regBbad n .read) s = ret c.bbad ∧
    exec (.regA1tLo n .read) s = ret (c.a1t.extractLsb' 0 8) ∧ exec (.regA1tHi n .read) s = ret (c.a1t.extractLsb' 8 8) ∧
    exec (.regA1b n .read) s = ret c.a1b ∧ exec (.regDasLo n .read) s = ret (c.das.extractLsb' 0 8) ∧
    exec (.regDasHi n .read) s = ret (c.das.extractLsb' 8 8) ∧ exec (.regDasb n .read) s = ret c.dasb ∧
    exec (.regA2aLo n .read) s = ret (c.a2a.extractLsb' 0 8) ∧ exec (.regA2aHi n .read) s = ret (c.a2a.extractLsb' 8 8) ∧
    exec (.regNtrl n .read) s = ret c.ntrl ∧ exec (.regUnusedB n .read) s = ret c.unused ∧
    exec (.regUnusedF n .read) s = ret c.unused ∧
    exec (.regMdmaen .read) s = .refused .undecodedRead ∧ exec (.regHdmaen .read) s = .refused .undecodedRead ∧
    exec (.regDmap n (.write d)) s = put { c with dmap := d } ∧ exec (.regBbad n (.write d)) s = put { c with bbad := d } ∧
    exec (.regA1tLo n (.write d)) s = put { c with a1t := c.a1t.extractLsb' 8 8 ++ d } ∧
    exec (.regA1tHi n (.write d)) s = put { c with a1t := d ++ c.a1t.extractLsb' 0 8 } ∧
    exec (.regA1b n (.write d)) s = put { c with a1b := d } ∧
    exec (.regDasLo n (.write d)) s = put { c with das := c.das.extractLsb' 8 8 ++ d } ∧
    exec (.regDasHi n (.write d)) s = put { c with das := d ++ c.das.extractLsb' 0 8 } ∧
    exec (.regDasb n (.write d)) s = put { c with dasb := d } ∧
    exec (.regA2aLo n (.write d)) s = put { c with a2a := c.a2a.extractLsb' 8 8 ++ d } ∧
    exec (.regA2aHi n (.write d)) s = put { c with a2a := d ++ c.a2a.extractLsb' 0 8 } ∧
    exec (.regNtrl n (.write d)) s = put { c with ntrl := d } ∧ exec (.regUnusedB n (.write d)) s = put { c with unused := d } ∧
    exec (.regUnusedF n (.write d)) s = put { c with unused := d } ∧
    exec (.regMdmaen (.write d)) s = .next { s with engine := { s.engine with mdmaen := d }, response := .none } ∧
    exec (.regHdmaen (.write d)) s = .next { s with engine := { s.engine with hdmaen := d }, response := .none }

/-- spec/43_register_access.md R237: a REG_WRITE changes exactly the 8 bits it addresses: that byte reads back as written, every other
byte of every channel reads as before, no active flag, no other mask, no bus access. -/
def Obligations.RegWriteChangesExactlyOneByte : Prop :=
  ∀ (a : Half) (d : Byte) (s t : State), exec (.regWrite a d) s = .next t →
    t.bus = s.bus ∧ t.pending = s.pending ∧ (∀ n, (t.ch n).active = (s.ch n).active) ∧
    (∀ b : Half, b ≠ a → (∀ n : Chan, ¬ ((a = BitVec.ofNat 16 (0x430B + 0x10 * n.val) ∧ b = BitVec.ofNat 16 (0x430F + 0x10 * n.val)) ∨
        (a = BitVec.ofNat 16 (0x430F + 0x10 * n.val) ∧ b = BitVec.ofNat 16 (0x430B + 0x10 * n.val)))) →
      ∀ u, exec (.regRead b) s = .next u → ∃ u', exec (.regRead b) t = .next u' ∧ u'.response = u.response) ∧
    (a ≠ 0x420B → a ≠ 0x420C → ∃ u, exec (.regRead a) t = .next u ∧ u.response = .data d) ∧
    (a ≠ 0x420B → t.engine.mdmaen = s.engine.mdmaen) ∧ (a ≠ 0x420C → t.engine.hdmaen = s.engine.hdmaen)

/-- spec/43_register_access.md R236: 0x43nB and 0x43nF reach the same byte; a write to either is read back from both. -/
def Obligations.UnusedByteHasTwoAddresses : Prop :=
  ∀ (s : State) (n : Chan) (d : Byte),
    ∀ a ∈ [BitVec.ofNat 16 (0x430B + 0x10 * n.val), BitVec.ofNat 16 (0x430F + 0x10 * n.val)],
    ∀ b ∈ [BitVec.ofNat 16 (0x430B + 0x10 * n.val), BitVec.ofNat 16 (0x430F + 0x10 * n.val)],
      ∃ t u, exec (.regWrite a d) s = .next t ∧ exec (.regRead b) t = .next u ∧ u.response = .data d

/-! ## Whole-machine rules -/

/-- spec/10_state.md R36: which command writes which state. -/
def Obligations.CommandsWriteOnlyTheirState : Prop :=
  (∀ (a : Half) (s t : State), exec (.regRead a) s = .next t → t.engine = s.engine) ∧
  (∀ (a : Half) (d : Byte) (s t : State), exec (.regWrite a d) s = .next t →
    ∃ p, windowPort a = some p ∧ t.engine = (s.writePort d p).engine) ∧
  (∀ (m : Byte) (s t : State), exec (.doDma m) s = .next t →
    t.engine.hdmaen = s.engine.hdmaen ∧
    ∀ n, (maskBit m n = false → t.ch n = s.ch n) ∧ ∃ a1t das, t.ch n = { s.ch n with a1t := a1t, das := das }) ∧
  (∀ s t : State, exec .initHdma s = .next t →
    t.engine.mdmaen = s.engine.mdmaen ∧ t.engine.hdmaen = s.engine.hdmaen ∧
    ∀ n, ∃ a2a ntrl das act, t.ch n = { s.ch n with a2a := a2a, ntrl := ntrl, das := das, active := act }) ∧
  (∀ (m : Byte) (s t : State), exec (.doHdma m) s = .next t →
    t.engine.mdmaen = s.engine.mdmaen ∧ t.engine.hdmaen = s.engine.hdmaen ∧
    ∀ n, (processed m s n = false → t.ch n = s.ch n) ∧
      ∃ a2a das ntrl act, t.ch n = { s.ch n with a2a := a2a, das := das, ntrl := ntrl, active := act })

/-- spec/10_state.md R36's last sentence, for every instruction: BBAD, A1B, DASB, DMAP, UNUSED and HDMAEN change only by a window write. -/
def Obligations.OnlyWindowWritesChangeTheSetUp : Prop :=
  ∀ (i : Instr) (s t : State), exec i s = .next t → (∀ a d, i ≠ .regWrite a d) → (∀ p d, i ≠ portInstr (.write d) p) →
    t.engine.hdmaen = s.engine.hdmaen ∧
    ∀ n, (t.ch n).bbad = (s.ch n).bbad ∧ (t.ch n).a1b = (s.ch n).a1b ∧ (t.ch n).dasb = (s.ch n).dasb ∧
      (t.ch n).dmap = (s.ch n).dmap ∧ (t.ch n).unused = (s.ch n).unused

/-- spec/10_state.md R30, R31, spec/43_register_access.md R239: an active flag changes only by INIT_HDMA, DO_HDMA or a table byte;
MDMAEN only by its window write or DO_DMA. -/
def Obligations.OnlyTheseChangeFlagsAndMdmaen : Prop :=
  ∀ (i : Instr) (s t : State), exec i s = .next t →
    (∀ n, (t.ch n).active ≠ (s.ch n).active →
      i = .initHdma ∨ (∃ m, i = .doHdma m) ∨ i = .hdmaEnd n ∨ (∃ c, i = .hdmaEntry n c) ∨ ∃ c, i = .hdmaEntryRepeat n c) ∧
    (t.engine.mdmaen ≠ s.engine.mdmaen → (∃ m, i = .doDma m) ∨ (∃ d, i = .regWrite 0x420B d) ∨ ∃ d, i = .regMdmaen (.write d))

/-! ## The transfer-mode decoder and the address generator -/

/-- spec/40_transfer_mode.md R130, R131: unit lengths and offsets of the eight modes. -/
def Obligations.TransferModeTable : Prop :=
  [0, 1, 2, 3, 4, 5, 6, 7].map (fun m : BitVec 3 => unitLen m) = [1, 2, 2, 4, 4, 4, 2, 4] ∧
  [0, 1, 2, 3, 4, 5, 6, 7].map (fun m : BitVec 3 => (List.range (unitLen m)).map (modeOffset m)) =
    [[0], [0, 1], [0, 0], [0, 0, 1, 1], [0, 1, 2, 3], [0, 1, 0, 1], [0, 0], [0, 0, 1, 1]]

/-- spec/40_transfer_mode.md R134: the B-bus address of byte k, modulo 256. -/
def Obligations.BBusAddressWraps : Prop :=
  ∀ (b : Byte) (m : BitVec 3) (k : Nat),
    (bAddr b m k).toNat = (b.toNat + modeOffset m (k % unitLen m)) % 256 ∧ modeOffset m (k % unitLen m) ≤ 3

/-- spec/40_transfer_mode.md R136: the A-bus step, modulo 2^16. -/
def Obligations.AddressStepWraps : Prop :=
  ∀ off : Half, (stepA off 0b00).toNat = (off.toNat + 1) % 65536 ∧ stepA off 0b01 = off ∧
    (stepA off 0b10).toNat = (off.toNat + 65535) % 65536 ∧ stepA off 0b11 = off ∧
    stepA 0xFFFF 0b00 = 0x0000 ∧ stepA 0x0000 0b10 = 0xFFFF

/-- spec/40_transfer_mode.md R132: modes 6 and 2, and 7 and 3, have one unit length and one offset pattern, and nothing distinguishes them
but the stored bits: setting bit 2 of the control byte of a channel in mode 2 or 3 changes no bus access, no response and no other state
of any command. -/
def Obligations.AliasedModesBehaveAlike : Prop :=
  (unitLen 6 = unitLen 2 ∧ unitLen 7 = unitLen 3 ∧ ∀ j, modeOffset 6 j = modeOffset 2 j ∧ modeOffset 7 j = modeOffset 3 j) ∧
  ∀ (s : State) (n : Chan), dmapMode (s.ch n).dmap = 2 ∨ dmapMode (s.ch n).dmap = 3 →
    let f := fun c : Channel => { c with dmap := c.dmap ||| 0x04 }
    (∀ m t, exec (.doDma m) s = .next t → exec (.doDma m) (s.modCh n f) = .next (t.modCh n f)) ∧
    (∀ t, exec .initHdma s = .next t → exec .initHdma (s.modCh n f) = .next (t.modCh n f)) ∧
    (∀ m t, exec (.doHdma m) s = .next t → exec (.doHdma m) (s.modCh n f) = .next (t.modCh n f))

/-- spec/42_hdma.md R206, spec/30_encoding.md R102: HDMA ignores STEP and DIR. Giving a channel any other control byte with the same IND
and MODE changes no bus access, no response and no other state of INIT_HDMA and DO_HDMA. -/
def Obligations.HdmaIgnoresStepAndDir : Prop :=
  ∀ (s : State) (n : Chan) (b : Byte), dmapInd b = dmapInd (s.ch n).dmap → dmapMode b = dmapMode (s.ch n).dmap →
    let f := fun c : Channel => { c with dmap := b }
    (∀ t, exec .initHdma s = .next t → exec .initHdma (s.modCh n f) = .next (t.modCh n f)) ∧
    (∀ m t, exec (.doHdma m) s = .next t → exec (.doHdma m) (s.modCh n f) = .next (t.modCh n f))

/-! ## The control-byte and table-byte rows (what a row does alone is the model's reading, log 9) -/

/-- DIR.AtoB and DIR.BtoA move one byte (log 9; spec/40_transfer_mode.md R139): the read before the write, the byte unchanged, no register
changed; every byte but the one written reads as before unless an access changes it on the side (log 6); the byte written is there if the
platform has memory there (log 4, log 5) and the write does not change it on the side. -/
def Obligations.RouteRowsMoveOneByte : Prop :=
  ∀ (s : State) (n : Chan) (k : Half) (i p : Bool) (st : BitVec 2) (m : BitVec 3),
    let a := mkAddr (s.ch n).a1b (s.ch n).a1t
    let x := bAddr (s.ch n).bbad m k.toNat
    (∃ t, exec (.dirAtoB n k i p st m) s = .next t ∧ t.engine = s.engine ∧ t.pending = s.pending ∧ t.response = .none ∧
      let v := s.bus.answerA a
      t.bus = (s.bus.readA a).writeB x v ∧ t.bus.trace = s.bus.trace ++ [.aRead a v, .bWrite x v] ∧
      s.bus.keepsA t.bus [.aRead a v, .bWrite x v] (fun _ => False) ∧
      s.bus.keepsB t.bus [.aRead a v, .bWrite x v] (fun y => y = x.toNat) ∧
      ((s.bus.readA a).kindB x = .memory → (s.bus.readA a).sparesB [.bWrite x v] x.toNat → t.bus.bMem.read x.toNat = some v)) ∧
    (∃ t, exec (.dirBtoA n k i p st m) s = .next t ∧ t.engine = s.engine ∧ t.pending = s.pending ∧ t.response = .none ∧
      let v := s.bus.answerB x
      t.bus = (s.bus.readB x).writeA a v ∧ t.bus.trace = s.bus.trace ++ [.bRead x v, .aWrite a v] ∧
      s.bus.keepsB t.bus [.bRead x v, .aWrite a v] (fun _ => False) ∧
      s.bus.keepsA t.bus [.bRead x v, .aWrite a v] (fun y => y = a.toNat) ∧
      ((s.bus.readB x).kindA a = .memory → (s.bus.readB x).sparesA [.aWrite a v] a.toNat → t.bus.aMem.read a.toNat = some v))

/-- STEP.INC, STEP.FIXED, STEP.DEC and STEP.FIXED_ALT step A1T of their channel once and change nothing else
(log 9; spec/40_transfer_mode.md R136, R137). -/
def Obligations.StepRowsStepOnce : Prop :=
  ∀ (s : State) (n : Chan) (d i p : Bool) (m : BitVec 3),
    let c := s.ch n
    let put := fun v : Half => Host.Outcome.next ((s.modCh n fun _ => { c with a1t := v }).respond .none)
    exec (.stepInc n d i p m) s = put (c.a1t + 1) ∧ exec (.stepFixed n d i p m) s = put c.a1t ∧
    exec (.stepDec n d i p m) s = put (c.a1t - 1) ∧ exec (.stepFixedAlt n d i p m) s = put c.a1t

/-- HDMA.DIRECT and HDMA.INDIRECT move one data byte (log 9; spec/42_hdma.md R197): read at the table pointer, or at DASB:DAS; that pointer
one further in its bank; written to BAddr(n, k); nothing else changed, but what an access changes on the side (log 6). -/
def Obligations.AddressingRowsMoveOneByte : Prop :=
  ∀ (s : State) (n : Chan) (k : Half) (d p : Bool) (st : BitVec 2) (m : BitVec 3),
    let c := s.ch n
    let x := bAddr c.bbad m k.toNat
    let moved := fun (a : Addr) (t : State) =>
      let es := [BusEvent.aRead a (s.bus.answerA a), .bWrite x (s.bus.answerA a)]
      s.bus.run es = some t.bus ∧ t.bus.trace = s.bus.trace ++ es ∧ s.bus.keepsA t.bus es (fun _ => False) ∧
        s.bus.keepsB t.bus es (fun y => y = x.toNat)
    (∃ t, exec (.hdmaDirect n k d p st m) s = .next t ∧ t.ch n = { c with a2a := c.a2a + 1 } ∧ restKept n s t ∧
      t.response = .none ∧ moved (mkAddr c.a1b c.a2a) t) ∧
    (∃ t, exec (.hdmaIndirect n k d p st m) s = .next t ∧ t.ch n = { c with das := c.das + 1 } ∧ restKept n s t ∧
      t.response = .none ∧ moved (mkAddr c.dasb c.das) t)

/-- A channel's unit with these B-bus offsets, from `s` to `t`: byte k read k past the data pointer, written to the base plus the k-th
offset; the pointer past the unit; nothing else changed, but what an access changes on the side. -/
def unitMoved (n : Chan) (ind : Bool) (offs : List Nat) (s t : State) : Prop :=
  (∃ vs : Nat → Byte,
    let es := offs.zipIdx.flatMap fun q =>
      [BusEvent.aRead (unitAddr ind (s.ch n) q.2) (vs q.2), .bWrite ((s.ch n).bbad + BitVec.ofNat 8 q.1) (vs q.2)]
    s.bus.run es = some t.bus ∧ s.bus.keepsA t.bus es (fun _ => False) ∧
      s.bus.keepsB t.bus es (fun y => ∃ o ∈ offs, y = ((s.ch n).bbad + BitVec.ofNat 8 o).toNat)) ∧
  t.ch n = pointerPast ind offs.length (s.ch n) ∧ restKept n s t ∧ t.response = .none

/-- MODE0 to MODE7 move one unit (log 9), with the unit length and offsets spec/40_transfer_mode.md R141 to R148 give the mode; MODE6 does
what MODE2 does, and MODE7 what MODE3 does. -/
def Obligations.ModeRowsMoveOneUnit : Prop :=
  ∀ (s : State) (n : Chan) (d i p : Bool) (st : BitVec 2),
    (∃ t, exec (.mode0 n d i p st) s = .next t ∧ unitMoved n i [0] s t) ∧
    (∃ t, exec (.mode1 n d i p st) s = .next t ∧ unitMoved n i [0, 1] s t) ∧
    (∃ t, exec (.mode2 n d i p st) s = .next t ∧ unitMoved n i [0, 0] s t) ∧
    (∃ t, exec (.mode3 n d i p st) s = .next t ∧ unitMoved n i [0, 0, 1, 1] s t) ∧
    (∃ t, exec (.mode4 n d i p st) s = .next t ∧ unitMoved n i [0, 1, 2, 3] s t) ∧
    (∃ t, exec (.mode5 n d i p st) s = .next t ∧ unitMoved n i [0, 1, 0, 1] s t) ∧
    (∃ t, exec (.mode6 n d i p st) s = .next t ∧ unitMoved n i [0, 0] s t) ∧
    (∃ t, exec (.mode7 n d i p st) s = .next t ∧ unitMoved n i [0, 0, 1, 1] s t) ∧
    exec (.mode6 n d i p st) s = exec (.mode2 n d i p st) s ∧ exec (.mode7 n d i p st) s = exec (.mode3 n d i p st) s

/-- The table-byte rows (log 9): HDMA.END makes its channel inactive and changes nothing else; HDMA.ENTRY and HDMA.ENTRY_REPEAT set NTRL to the
byte and the channel active, and in indirect mode read the indirect address, low byte first (spec/42_hdma.md R192). -/
def Obligations.TableRowsLoadTheirEntry : Prop :=
  ∀ (s : State) (n : Chan) (c : BitVec 7),
    (∃ t, exec (.hdmaEnd n) s = .next t ∧ t.ch n = { s.ch n with active := false } ∧ restKept n s t ∧ t.bus = s.bus ∧
      t.response = .none) ∧
    (∀ b i, (i = .hdmaEntry n c ∧ c ≠ 0 ∧ b = (0 : BitVec 1) ++ c) ∨ (i = .hdmaEntryRepeat n c ∧ b = (1 : BitVec 1) ++ c) →
      ∃ t, exec i s = .next t ∧ restKept n s t ∧ t.response = .none ∧
        (dmapInd (s.ch n).dmap = false → t.bus = s.bus ∧ t.ch n = { s.ch n with ntrl := b, active := true }) ∧
        (dmapInd (s.ch n).dmap = true → ∃ lo hi,
          let es := [BusEvent.aRead (mkAddr (s.ch n).a1b (s.ch n).a2a) lo, .aRead (mkAddr (s.ch n).a1b ((s.ch n).a2a + 1)) hi]
          s.bus.run es = some t.bus ∧ s.bus.keepsA t.bus es (fun _ => False) ∧ s.bus.keepsB t.bus es (fun _ => False) ∧
          t.ch n = { s.ch n with a2a := (s.ch n).a2a + 2, ntrl := b, das := hi ++ lo, active := true }))

/-- spec/42_hdma.md R192, LoadEntry whole, as a table request runs it (log 9): one read for a terminator or a direct entry, three for an indirect
one, the pointer past them, NTRL, DAS and the active flag as the bytes say. -/
def Obligations.LoadEntryReadsOneEntry : Prop :=
  ∀ (s : State) (n : Chan) (rest : List Request), s.pending = .table n :: rest →
    ∃ b lo hi t, step s = .next t ∧ s.bus.run (entryEvents (s.ch n) b lo hi) = some t.bus ∧
      t.ch n = entryDone (s.ch n) b lo hi ∧ (∀ k, k ≠ n → t.ch k = s.ch k) ∧ t.engine.mdmaen = s.engine.mdmaen ∧
      t.engine.hdmaen = s.engine.hdmaen ∧ t.pending = rest ∧ t.response = .none

/-! ## DO_DMA -/

/-- DO_DMA whole (spec/41_dma.md R161 to R165, R167, R172): the selected channels' byte moves in ascending channel order, each channel's bytes
in order from index 0, as many as its counter says, and nothing else on either bus; every selected channel done, every other as it was, and
MDMAEN 0. -/
def Obligations.DoDmaMovesExactlyItsBytes : Prop :=
  ∀ (m : Byte) (s : State), ∃ (t : State) (vs : Chan → Nat → Byte), exec (.doDma m) s = .next t ∧
    s.bus.run (allChans.flatMap fun n => if maskBit m n then dmaEvents (s.ch n) (vs n) else []) = some t.bus ∧
    (∀ n, t.ch n = if maskBit m n then dmaDone (s.ch n) else s.ch n) ∧
    t.engine.mdmaen = 0 ∧ t.engine.hdmaen = s.engine.hdmaen ∧ t.pending = s.pending

/-- spec/41_dma.md R166: the response. -/
def Obligations.DoDmaReturnsItsCycles : Prop :=
  ∀ (m : Byte) (s : State), ∃ t, exec (.doDma m) s = .next t ∧
    t.response = .cycles (BitVec.ofNat 32 (dmaSelected m * Config.dmaChannelCycles + dmaBytes m s * Config.dmaByteCycles))

/-- spec/41_dma.md R167: MDMAEN is 0 afterwards, whatever the mask was. -/
def Obligations.DoDmaClearsMdmaen : Prop :=
  ∀ (m : Byte) (s : State), ∃ t, exec (.doDma m) s = .next t ∧ t.engine.mdmaen = 0x00

/-- spec/41_dma.md R168: mask 0 makes no bus access, changes no channel, clears MDMAEN and returns 0. -/
def Obligations.DoDmaOfNothing : Prop :=
  ∀ s : State, exec (.doDma 0) s =
    .next { s with engine := { s.engine with mdmaen := 0 }, response := .cycles 0 }

/-- spec/41_dma.md R170: DO_DMA writes no active flag, NTRL, A2A or HDMAEN and reads none of them: with any others in their place it does
the same, to a channel running HDMA too; and it leaves DAS, the indirect address, 0. -/
def Obligations.DoDmaLeavesHdmaStateAlone : Prop :=
  ∀ (m : Byte) (s : State), ∃ t, exec (.doDma m) s = .next t ∧ t.engine.hdmaen = s.engine.hdmaen ∧
    (∀ n, (t.ch n).active = (s.ch n).active ∧ (t.ch n).ntrl = (s.ch n).ntrl ∧ (t.ch n).a2a = (s.ch n).a2a ∧
      (maskBit m n = true → (t.ch n).das = 0)) ∧
    ∀ (n : Chan) (x : Bool) (v : Byte) (p : Half) (h : Byte),
      let f := fun c : Channel => { c with active := x, ntrl := v, a2a := p }
      exec (.doDma m) ((s.modCh n f).setHdmaen h) = .next ((t.modCh n f).setHdmaen h)

/-- spec/41_dma.md R171: at most 524288 bytes, at most twice as many accesses. -/
def Obligations.DoDmaIsBounded : Prop :=
  ∀ (m : Byte) (s : State), ∃ t, exec (.doDma m) s = .next t ∧ dmaBytes m s ≤ 524288 ∧
    t.bus.trace.length = s.bus.trace.length + 2 * dmaBytes m s

/-- spec/70_reset_and_hazards.md R292, of a channel selected alone (a mask with other channels in it: DoDmaMovesExactlyItsBytes): with its
counter 0 it moves 65536 bytes, not none. -/
def Obligations.ZeroCounterMovesAllBytes : Prop :=
  ∀ (s : State) (n : Chan), (s.ch n).das = 0 → ∃ t, exec (.doDma (BitVec.twoPow 8 n.val)) s = .next t ∧
    t.bus.trace.length = s.bus.trace.length + 2 * 65536 ∧ (t.ch n).das = 0

/-- The frame of DO_DMA in memory: an A-bus byte changes only at the address of a byte a B-to-A channel moves, a B-bus byte only at the
address of a byte an A-to-B channel moves, or where an access changes it on the side (log 6). -/
def Obligations.DoDmaStoresOnlyWhereItMoves : Prop :=
  ∀ (m : Byte) (s : State), ∃ t es, exec (.doDma m) s = .next t ∧ s.bus.run es = some t.bus ∧
    s.bus.keepsA t.bus es (fun y => ∃ n k, maskBit m n = true ∧ dmapDir (s.ch n).dmap = true ∧ k < dmaCount (s.ch n).das ∧
      y = (mkAddr (s.ch n).a1b (a1tAfter (s.ch n) k)).toNat) ∧
    s.bus.keepsB t.bus es (fun y => ∃ n k, maskBit m n = true ∧ dmapDir (s.ch n).dmap = false ∧ k < dmaCount (s.ch n).das ∧
      y = (bAddr (s.ch n).bbad (dmapMode (s.ch n).dmap) k).toNat)

/-- spec/20_memory.md R69, R70, spec/93_implementation_defined.md I3, I4: the engine checks nothing of what the Bus answers and relies on
no side effect. DO_DMA makes the same accesses at the same addresses in the same order, ends in the same engine state and answers the same
response on every Bus, whatever it holds, answers and does on the side; and the Bus may answer any bytes: for any choice of the bytes there
is a Bus (as log 3 has it) on which DO_DMA moves exactly them. -/
def Obligations.DoDmaIsTheSameOnEveryBus : Prop :=
  (∀ (m : Byte) (s : State) (b : Bus), ∃ t u es fs, exec (.doDma m) s = .next t ∧ exec (.doDma m) (s.setBus b) = .next u ∧
    u.engine = t.engine ∧ u.response = t.response ∧ u.pending = t.pending ∧ t.bus.trace = s.bus.trace ++ es ∧
    u.bus.trace = b.trace ++ fs ∧ es.map BusEvent.blank = fs.map BusEvent.blank) ∧
  ∀ (m : Byte) (s : State) (vs : Chan → Nat → Byte), ∃ b t, exec (.doDma m) (s.setBus b) = .next t ∧
    t.bus.trace = b.trace ++ allChans.flatMap fun n => if maskBit m n then dmaEvents (s.ch n) (vs n) else []

/-- A one-byte DO_DMA is its channel's route row, its step row, and the counter at 0 (the model's reading of the rows, log 9). -/
def Obligations.OneByteDmaIsItsRows : Prop :=
  ∀ (s u v : State) (n : Chan), (s.ch n).das = 1 →
    exec (decodeControl (.route 0) n (s.ch n).dmap) s = .next u → exec (decodeControl .step n (s.ch n).dmap) u = .next v →
    ∃ t, exec (.doDma (BitVec.twoPow 8 n.val)) s = .next t ∧ t.bus = v.bus ∧ ∀ k, t.ch k = (v.setDas n 0).ch k

/-! ## INIT_HDMA and DO_HDMA -/

/-- INIT_HDMA whole (spec/42_hdma.md R191 to R194): every enabled channel's pointer at its table's start and one entry loaded from
there, in ascending channel order; every other channel inactive and nothing read for it. -/
def Obligations.InitHdmaLoadsEveryEnabledChannel : Prop :=
  ∀ s : State, ∃ (t : State) (b lo hi : Chan → Byte), exec .initHdma s = .next t ∧
    s.bus.run (allChans.flatMap fun n =>
      if maskBit s.engine.hdmaen n then entryEvents { s.ch n with a2a := (s.ch n).a1t } (b n) (lo n) (hi n) else []) = some t.bus ∧
    (∀ n, t.ch n = if maskBit s.engine.hdmaen n then entryDone { s.ch n with a2a := (s.ch n).a1t } (b n) (lo n) (hi n)
      else { s.ch n with active := false }) ∧
    t.engine.mdmaen = s.engine.mdmaen ∧ t.engine.hdmaen = s.engine.hdmaen ∧ t.response = .none ∧ t.pending = s.pending

/-- DO_HDMA whole (spec/42_hdma.md R195 to R202, R204, R205): the processed channels' lines in ascending channel order and nothing else on
either bus; a processed channel past its unit, its line counter decremented, reloaded when due (when it is
due is the spec's own decision D18: log 15); every other channel as it was. -/
def Obligations.DoHdmaRunsExactlyOneLine : Prop :=
  ∀ (m : Byte) (s : State), ∃ (t : State) (vs : Chan → Nat → Byte) (b lo hi : Chan → Byte), exec (.doHdma m) s = .next t ∧
    s.bus.run (allChans.flatMap fun n =>
      if (s.ch n).active && maskBit s.engine.hdmaen n && maskBit m n then lineEvents (s.ch n) (vs n) (b n) (lo n) (hi n) else []) =
        some t.bus ∧
    (∀ n, t.ch n = if (s.ch n).active && maskBit s.engine.hdmaen n && maskBit m n then lineDone (s.ch n) (b n) (lo n) (hi n)
      else s.ch n) ∧
    t.engine.mdmaen = s.engine.mdmaen ∧ t.engine.hdmaen = s.engine.hdmaen ∧ t.pending = s.pending

/-- spec/42_hdma.md R203: the response. -/
def Obligations.DoHdmaReturnsItsCycles : Prop :=
  ∀ (m : Byte) (s : State), ∃ t, exec (.doHdma m) s = .next t ∧
    t.response = .cycles (BitVec.ofNat 32 (hdmaProcessed m s * Config.hdmaChannelCycles + hdmaBytes m s * Config.hdmaByteCycles))

/-- spec/42_hdma.md R205, R196: with no channel processed DO_HDMA changes nothing and returns 0; a channel enabled after INIT_HDMA, or in
no mask, is left as it is. -/
def Obligations.UnprocessedChannelsAreUntouched : Prop :=
  ∀ (m : Byte) (s : State),
    ((∀ n, (s.ch n).active = false ∨ maskBit s.engine.hdmaen n = false ∨ maskBit m n = false) →
      exec (.doHdma m) s = .next (s.respond (.cycles 0))) ∧
    ∃ t, exec (.doHdma m) s = .next t ∧
      ∀ n, (s.ch n).active = false ∨ maskBit s.engine.hdmaen n = false ∨ maskBit m n = false → t.ch n = s.ch n

/-- spec/42_hdma.md R199: the line counter goes down by 1 modulo 128 and the repeat bit is kept; from 0 it goes to 127. -/
def Obligations.LineCounterGoesDownModulo128 : Prop :=
  ∀ b : Byte, (lineCount (decLine b)).toNat = ((lineCount b).toNat + 127) % 128 ∧ repeatFlag (decLine b) = repeatFlag b ∧
    (lineCount b = 0 → lineCount (decLine b) = 127)

/-- spec/42_hdma.md R200, R201: a processed channel reads the table again in this DO_HDMA exactly when its repeat flag is clear and the
decremented counter is 0, or its repeat flag is set and the counter was 0; otherwise it keeps its entry and its table pointer (past the
unit in direct mode). When a repeat entry reloads is the decision D18 the spec marks as its own (log 15). -/
def Obligations.ReloadExactlyWhenDue : Prop :=
  ∀ (m : Byte) (s : State) (n : Chan), processed m s n = true → ∃ t, exec (.doHdma m) s = .next t ∧
    ((repeatFlag (s.ch n).ntrl = false ∧ lineCount (s.ch n).ntrl - 1 = 0) ∨
        (repeatFlag (s.ch n).ntrl = true ∧ lineCount (s.ch n).ntrl = 0) →
      ∃ b lo hi, t.ch n = entryDone (lineCounted (s.ch n)) b lo hi) ∧
    (¬ ((repeatFlag (s.ch n).ntrl = false ∧ lineCount (s.ch n).ntrl - 1 = 0) ∨
        (repeatFlag (s.ch n).ntrl = true ∧ lineCount (s.ch n).ntrl = 0)) → t.ch n = lineCounted (s.ch n) ∧ (t.ch n).active = true)

/-- spec/42_hdma.md R207: how long an entry lasts. While channel n is enabled, in the mask and active, DO_HDMA commands one after another
leave it in its entry for all but the last of `entryLines NTRL` of them, its data pointer one unit further each time, and the last one
reloads (with repeat set by the decision D18 the spec marks as its own, log 15). -/
def Obligations.EntryLastsItsLines : Prop :=
  ∀ (m : Byte) (s : State) (n : Chan) (j : Nat) (rest : List Request), processed m s n = true →
    j ≤ entryLines (s.ch n).ntrl → s.pending = List.replicate j (.command (commandWord 0 m 0b011)) ++ rest →
    let ind := dmapInd (s.ch n).dmap
    let len := unitLen (dmapMode (s.ch n).dmap)
    let c := { pointerPast ind (j * len) (s.ch n) with ntrl := decLine^[j] (s.ch n).ntrl }
    ∃ t, Host.Core.run core j s = .next t ∧ t.pending = rest ∧
      (j < entryLines (s.ch n).ntrl → t.ch n = c) ∧
      (j = entryLines (s.ch n).ntrl → ∃ b lo hi, t.ch n = entryDone c b lo hi)

/-- The frame of the HDMA commands in memory: INIT_HDMA stores nothing; DO_HDMA stores nothing on the A-bus, and on the B-bus only at the
addresses of a processed channel's unit; every other byte changes only where an access changes it on the side (log 6). -/
def Obligations.HdmaStoresOnlyItsUnits : Prop :=
  (∀ s : State, ∃ t es, exec .initHdma s = .next t ∧ s.bus.run es = some t.bus ∧ s.bus.keepsA t.bus es (fun _ => False) ∧
    s.bus.keepsB t.bus es (fun _ => False)) ∧
  (∀ (m : Byte) (s : State), ∃ t es, exec (.doHdma m) s = .next t ∧ s.bus.run es = some t.bus ∧
    s.bus.keepsA t.bus es (fun _ => False) ∧
    s.bus.keepsB t.bus es (fun y => ∃ n k, processed m s n = true ∧ k < unitLen (dmapMode (s.ch n).dmap) ∧
      y = (bAddr (s.ch n).bbad (dmapMode (s.ch n).dmap) k).toNat))

/-- spec/42_hdma.md R209: INIT_HDMA reads at most 3 bytes a channel; DO_HDMA at most UnitLen + 3 and writes at most UnitLen a channel. -/
def Obligations.HdmaCommandsAreBounded : Prop :=
  (∀ s : State, ∃ t, exec .initHdma s = .next t ∧
    t.bus.trace.length ≤ s.bus.trace.length + 3 * allChans.countP (maskBit s.engine.hdmaen)) ∧
  (∀ (m : Byte) (s : State), ∃ t, exec (.doHdma m) s = .next t ∧
    t.bus.trace.length ≤ s.bus.trace.length + 2 * hdmaBytes m s + 3 * hdmaProcessed m s)

/-- A DO_HDMA of one channel is its MODE row, the line counter, and, when a reload is due, its table byte (the model's reading of the rows,
log 9; when a reload is due, log 15). -/
def Obligations.OneChannelLineIsItsRows : Prop :=
  ∀ (s u : State) (n : Chan), processed (BitVec.twoPow 8 n.val) s n = true →
    exec (decodeControl .mode n (s.ch n).dmap) s = .next u →
    ∃ t, exec (.doHdma (BitVec.twoPow 8 n.val)) s = .next t ∧
      (reloadDue (s.ch n).ntrl = false → t.bus = u.bus ∧ ∀ k, t.ch k = (u.setNtrl n (decLine (s.ch n).ntrl)).ch k) ∧
      (reloadDue (s.ch n).ntrl = true → ∀ v,
        step ((u.setNtrl n (decLine (s.ch n).ntrl)).setPending [.table n]) = .next v → t.bus = v.bus ∧ ∀ k, t.ch k = v.ch k)

/-! ## Host programs -/

/-- spec/30_encoding.md R109, spec/70_reset_and_hazards.md R286: the pseudo-instruction MDMA's two commands meet the host's duty for DO_DMA
(mask = the value written to MDMAEN), and complete. -/
def Obligations.MdmaMeetsTheHostDuty : Prop :=
  ∀ (m : Byte) (s : State), expand (.mdma m) = [.regWrite 0x420B m, .doDma m] ∧
    ∃ t u, exec (.regWrite 0x420B m) s = .next t ∧ hostDuty t (.doDma m) = true ∧ exec (.doDma m) t = .next u
end

