-- ==== Sys2Proof/Laws/Bus.lean ====
section
/-! SUPPORT. Memory and the Bus: read after write, the canonical form, and what a run of accesses makes of the Bus. -/

namespace Sys2Proof.Machine

/-! ## Memory -/

@[simp] theorem Memory.read_write_same (m : Memory) (a : Nat) (d : Byte) : (m.write a d).read a = some d := by
  induction m with
  | nil => simp [Memory.write, Memory.read]
  | cons c m ih =>
    obtain ⟨x, v⟩ := c
    simp only [Memory.write]
    split
    · simp [Memory.read]
    · split
      · simp [Memory.read]
      · rename_i _ h
        simp [Memory.read, Ne.symm h, ih]

theorem Memory.read_write_ne (m : Memory) {a b : Nat} (d : Byte) (h : b ≠ a) : (m.write a d).read b = m.read b := by
  induction m with
  | nil => simp [Memory.write, Memory.read, h.symm]
  | cons c m ih =>
    obtain ⟨x, v⟩ := c
    simp only [Memory.write]
    split
    · simp [Memory.read, h.symm]
    · split
      · rename_i _ e
        subst e
        simp [Memory.read, h.symm]
      · simp [Memory.read, ih]

theorem Memory.risingFrom_write (m : Memory) {lo a : Nat} (d : Byte) (ha : lo ≤ a) (h : Memory.risingFrom lo m) :
    Memory.risingFrom lo (m.write a d) := by
  induction m generalizing lo with
  | nil => simpa [Memory.write, Memory.risingFrom] using ha
  | cons c m ih =>
    obtain ⟨x, v⟩ := c
    simp only [Memory.risingFrom, Bool.and_eq_true, decide_eq_true_eq] at h
    simp only [Memory.write]
    split
    · simp [Memory.risingFrom, ha, h.2]; omega
    · split
      · rename_i _ e
        simp [Memory.risingFrom, e, h.1, h.2]
      · simp only [Memory.risingFrom, Bool.and_eq_true, decide_eq_true_eq]
        exact ⟨h.1, ih (by omega) h.2⟩

/-- A write keeps the canonical form. -/
theorem Memory.wf_write (m : Memory) (a : Nat) (d : Byte) (h : m.wf) : (m.write a d).wf :=
  Memory.risingFrom_write m d (Nat.zero_le a) h

theorem Memory.within_write (m : Memory) {size a : Nat} (d : Byte) (ha : a < size) (h : m.within size) :
    (m.write a d).within size := by
  induction m with
  | nil => simpa [Memory.write, Memory.within] using ha
  | cons c m ih =>
    obtain ⟨x, v⟩ := c
    simp only [Memory.within, List.all_cons, Bool.and_eq_true, decide_eq_true_eq] at h ih
    simp only [Memory.write]
    split
    · simp [Memory.within, List.all_cons, ha, h.1]
      simpa using h.2
    · split
      · simp [Memory.within, List.all_cons, ha]
        simpa using h.2
      · simp only [Memory.within, List.all_cons, Bool.and_eq_true, decide_eq_true_eq]
        exact ⟨h.1, ih h.2⟩

theorem stored_read_ne (k : RegionKind) (m : Memory) {a b : Nat} (v : Byte) (h : b ≠ a) :
    (stored k m a v).read b = m.read b := by
  cases k <;> simp [stored, Memory.read_write_ne m v h]

theorem stored_wf (k : RegionKind) (m : Memory) (a : Nat) (v : Byte) (h : m.wf) : (stored k m a v).wf := by
  cases k <;> simp [stored, h, Memory.wf_write]

theorem stored_within (k : RegionKind) (m : Memory) {size a : Nat} (v : Byte) (ha : a < size) (h : m.within size) :
    (stored k m a v).within size := by
  cases k <;> simp [stored, h, Memory.within_write m v ha]

/-! ## Changes of the Bus -/

section Change
variable (b : Bus) (c : BusChange) (cs : List BusChange)

@[simp] theorem change_trace : (b.change c).trace = b.trace := by cases c <;> rfl
@[simp] theorem change_turns : (b.change c).turns = b.turns := by cases c <;> rfl
@[simp] theorem change_outside : (b.change c).outside = b.outside := by cases c <;> rfl

/-- What one change keeps, a list of changes keeps. -/
theorem changes_keep {β : Type} (f : Bus → β) (h : ∀ b, ∀ c ∈ cs, f (Bus.change b c) = f b) : f (cs.foldl Bus.change b) = f b := by
  induction cs generalizing b with
  | nil => rfl
  | cons c cs ih =>
    rw [List.foldl_cons, ih _ fun b' c' hc => h b' c' (List.mem_cons_of_mem _ hc), h _ _ (List.mem_cons_self ..)]

@[simp] theorem changes_trace : (cs.foldl Bus.change b).trace = b.trace := changes_keep b cs Bus.trace fun b c _ => change_trace b c
@[simp] theorem changes_turns : (cs.foldl Bus.change b).turns = b.turns := changes_keep b cs Bus.turns fun b c _ => change_turns b c

theorem changes_aMem_read (y : Nat) (h : ∀ a v, BusChange.aByte a v ∈ cs → a.toNat ≠ y) :
    (cs.foldl Bus.change b).aMem.read y = b.aMem.read y := by
  refine changes_keep b cs (fun b => b.aMem.read y) fun b c hc => ?_
  cases c <;> simp only [Bus.change]
  exact Memory.read_write_ne _ _ (h _ _ hc).symm

theorem changes_bMem_read (y : Nat) (h : ∀ x v, BusChange.bByte x v ∈ cs → x.toNat ≠ y) :
    (cs.foldl Bus.change b).bMem.read y = b.bMem.read y := by
  refine changes_keep b cs (fun b => b.bMem.read y) fun b c hc => ?_
  cases c <;> simp only [Bus.change]
  exact Memory.read_write_ne _ _ (h _ _ hc).symm

theorem canonical_iff : b.canonical = true ↔
    b.aMem.wf = true ∧ b.aMem.within (2 ^ 24) = true ∧ b.bMem.wf = true ∧ b.bMem.within (2 ^ 8) = true := by
  simp [Bus.canonical, and_assoc]

variable {b}

theorem canonical_change (h : b.canonical) : (b.change c).canonical := by
  rw [canonical_iff] at *
  cases c with
  | aByte a v => exact ⟨Memory.wf_write _ _ _ h.1, Memory.within_write _ _ a.isLt h.2.1, h.2.2⟩
  | bByte x v => exact ⟨h.1, h.2.1, Memory.wf_write _ _ _ h.2.2.1, Memory.within_write _ _ x.isLt h.2.2.2⟩
  | aRegion r => exact h
  | bRegion r => exact h

theorem canonical_changes (h : b.canonical) : (cs.foldl Bus.change b).canonical := by
  induction cs generalizing b with
  | nil => exact h
  | cons c cs ih => exact ih (canonical_change c h)

theorem canonical_changeOutside (h : b.canonical) : (b.changeOutside c).canonical := canonical_change c h

end Change

/-! ## One access -/

section Access
variable (b : Bus) (acc : BusAccess) (a : Addr) (x v : Byte)

@[simp] theorem access_trace : (b.access acc).trace = b.trace ++ [b.event acc] := by simp [Bus.access]
@[simp] theorem access_turns : (b.access acc).turns = b.turns.tail := by simp [Bus.access]

@[simp] theorem readA_trace : (b.readA a).trace = b.trace ++ [.aRead a (b.answerA a)] := access_trace ..
@[simp] theorem readB_trace : (b.readB x).trace = b.trace ++ [.bRead x (b.answerB x)] := access_trace ..
@[simp] theorem writeA_trace : (b.writeA a v).trace = b.trace ++ [.aWrite a v] := access_trace ..
@[simp] theorem writeB_trace : (b.writeB x v).trace = b.trace ++ [.bWrite x v] := access_trace ..

/-- With a turn listed, an access takes it; its side effects come after its own effect. -/
theorem access_listed {t : BusTurn} {ts : List BusTurn} (h : b.turns = t :: ts) :
    b.access acc = t.effects.foldl Bus.change { b.own acc with turns := ts, trace := b.trace ++ [b.event acc] } := by
  simp [Bus.access, Bus.turn, h]

/-- An access leaves alone an A-bus byte that it does not write and its side effects do not reach. -/
theorem access_aMem_read (y : Nat) (hw : ∀ a v, acc = .aWrite a v → a.toNat ≠ y)
    (hs : ∀ a v, BusChange.aByte a v ∈ (b.turn acc).effects → a.toNat ≠ y) : (b.access acc).aMem.read y = b.aMem.read y := by
  rw [Bus.access, changes_aMem_read _ _ _ hs]
  cases acc with
  | aWrite a v => exact stored_read_ne _ _ _ (hw a v rfl).symm
  | _ => rfl

/-- An access leaves alone a B-bus byte that it does not write and its side effects do not reach. -/
theorem access_bMem_read (y : Nat) (hw : ∀ x v, acc = .bWrite x v → x.toNat ≠ y)
    (hs : ∀ x v, BusChange.bByte x v ∈ (b.turn acc).effects → x.toNat ≠ y) : (b.access acc).bMem.read y = b.bMem.read y := by
  rw [Bus.access, changes_bMem_read _ _ _ hs]
  cases acc with
  | bWrite x v => exact stored_read_ne _ _ _ (hw x v rfl).symm
  | _ => rfl

/-- A byte written to A-bus memory is there afterwards, unless the write changes it on the side. -/
theorem writeA_read (hk : b.kindA a = .memory)
    (hs : ∀ a' v', BusChange.aByte a' v' ∈ (b.turn (.aWrite a v)).effects → a'.toNat ≠ a.toNat) :
    (b.writeA a v).aMem.read a.toNat = some v := by
  rw [Bus.writeA, Bus.access, changes_aMem_read _ _ _ hs]
  simp [Bus.own, hk, stored]

/-- A byte written to B-bus memory is there afterwards, unless the write changes it on the side. -/
theorem writeB_read (hk : b.kindB x = .memory)
    (hs : ∀ x' v', BusChange.bByte x' v' ∈ (b.turn (.bWrite x v)).effects → x'.toNat ≠ x.toNat) :
    (b.writeB x v).bMem.read x.toNat = some v := by
  rw [Bus.writeB, Bus.access, changes_bMem_read _ _ _ hs]
  simp [Bus.own, hk, stored]

variable {b}

theorem canonical_access (h : b.canonical) : (b.access acc).canonical := by
  refine canonical_changes _ ?_
  rw [canonical_iff] at *
  cases acc with
  | aRead a => exact h
  | bRead x => exact h
  | aWrite a v => exact ⟨stored_wf _ _ _ _ h.1, stored_within _ _ _ a.isLt h.2.1, h.2.2⟩
  | bWrite x v => exact ⟨h.1, h.2.1, stored_wf _ _ _ _ h.2.2.1, stored_within _ _ _ x.isLt h.2.2.2⟩

end Access

/-! ## Runs of accesses -/

section Run
variable (b : Bus) (a : Addr) (x v : Byte) (es : List BusEvent)

@[simp] theorem run_nil : b.run [] = some b := rfl
@[simp] theorem run_aRead : b.run (.aRead a v :: es) = if v = b.answerA a then (b.readA a).run es else none := by
  simp [Bus.run, BusEvent.access, Bus.event, Bus.readA]
@[simp] theorem run_aWrite : b.run (.aWrite a v :: es) = (b.writeA a v).run es := by
  simp [Bus.run, BusEvent.access, Bus.event, Bus.writeA]
@[simp] theorem run_bRead : b.run (.bRead x v :: es) = if v = b.answerB x then (b.readB x).run es else none := by
  simp [Bus.run, BusEvent.access, Bus.event, Bus.readB]
@[simp] theorem run_bWrite : b.run (.bWrite x v :: es) = (b.writeB x v).run es := by
  simp [Bus.run, BusEvent.access, Bus.event, Bus.writeB]

variable {b es} {b' b'' : Bus} {e : BusEvent} {es' : List BusEvent}

/-- The first access of a run, and the rest. -/
theorem run_cons : b.run (e :: es) = some b' ↔ e = b.event e.access ∧ (b.access e.access).run es = some b' := by
  rw [Bus.run, Option.ite_none_right_eq_some]

/-- Runs compose. -/
theorem run_append (h : b.run es = some b') (h' : b'.run es' = some b'') : b.run (es ++ es') = some b'' := by
  induction es generalizing b with
  | nil => simp only [run_nil, Option.some.injEq] at h; subst h; simpa using h'
  | cons e es ih =>
    rw [run_cons] at h
    exact run_cons.mpr ⟨h.1, ih h.2⟩

/-- An invariant of the Bus that every access keeps is kept by a run. -/
theorem run_invariant (P : Bus → Prop) (hP : ∀ c acc, P c → P (c.access acc)) (h : b.run es = some b') (hb : P b) : P b' := by
  induction es generalizing b with
  | nil => simp only [run_nil, Option.some.injEq] at h; subst h; exact hb
  | cons e es ih => exact ih (run_cons.mp h).2 (hP _ _ hb)

/-- A run keeps the canonical form. -/
theorem run_canonical (h : b.run es = some b') (hb : b.canonical) : b'.canonical :=
  run_invariant (fun c => c.canonical = true) (fun _ acc => canonical_access acc) h hb

/-- A run appends exactly its events to the trace. -/
theorem run_trace (h : b.run es = some b') : b'.trace = b.trace ++ es := by
  induction es generalizing b with
  | nil => simp only [run_nil, Option.some.injEq] at h; subst h; simp
  | cons e es ih =>
    obtain ⟨he, h⟩ := run_cons.mp h
    rw [ih h, access_trace, ← he, List.append_assoc]
    rfl

/-- Accesses without side effects spare every A-bus byte. -/
theorem sparesA_of_quiet (h : b.sideEffects es = []) (y : Nat) : b.sparesA es y := fun a v hm => by
  rw [h] at hm
  cases hm

/-- Accesses without side effects spare every B-bus byte. -/
theorem sparesB_of_quiet (h : b.sideEffects es = []) (y : Nat) : b.sparesB es y := fun x v hm => by
  rw [h] at hm
  cases hm

/-- A run leaves an A-bus byte alone that no event of it writes and no side effect of it reaches. -/
theorem run_keepsA (W : Nat → Prop) (hW : ∀ a v, BusEvent.aWrite a v ∈ es → W a.toNat) (h : b.run es = some b') :
    b.keepsA b' es W := by
  intro y hy hs
  induction es generalizing b with
  | nil => simp only [run_nil, Option.some.injEq] at h; subst h; rfl
  | cons e es ih =>
    obtain ⟨-, h⟩ := run_cons.mp h
    rw [ih (fun a v hm => hW a v (List.mem_cons_of_mem _ hm)) h fun a v hm => hs a v (List.mem_append_right _ hm)]
    refine access_aMem_read _ _ _ (fun a v he hay => hy ?_) fun a v hm => hs a v (List.mem_append_left _ hm)
    cases e <;> simp only [BusEvent.access, BusAccess.aWrite.injEq, reduceCtorEq] at he
    obtain ⟨rfl, rfl⟩ := he
    exact hay ▸ hW _ _ (List.mem_cons_self ..)

/-- A run leaves a B-bus byte alone that no event of it writes and no side effect of it reaches. -/
theorem run_keepsB (W : Nat → Prop) (hW : ∀ x v, BusEvent.bWrite x v ∈ es → W x.toNat) (h : b.run es = some b') :
    b.keepsB b' es W := by
  intro y hy hs
  induction es generalizing b with
  | nil => simp only [run_nil, Option.some.injEq] at h; subst h; rfl
  | cons e es ih =>
    obtain ⟨-, h⟩ := run_cons.mp h
    rw [ih (fun x v hm => hW x v (List.mem_cons_of_mem _ hm)) h fun x v hm => hs x v (List.mem_append_right _ hm)]
    refine access_bMem_read _ _ _ (fun x v he hxy => hy ?_) fun x v hm => hs x v (List.mem_append_left _ hm)
    cases e <;> simp only [BusEvent.access, BusAccess.bWrite.injEq, reduceCtorEq] at he
    obtain ⟨rfl, rfl⟩ := he
    exact hxy ▸ hW _ _ (List.mem_cons_self ..)

end Run

end Sys2Proof.Machine
end

