-- ==== Sys2Proof/Laws/State.lean ====
section
/-! SUPPORT. The state's updates, field by field: what each update of `Machine/Ops.lean` does to each part of the state. -/

namespace Sys2Proof.Machine

section Parts
variable (s : State) (b : Bus) (r : Response) (q : List Request) (n k : Chan) (v : Byte) (h : Half) (x : Bool) (f : Channel → Channel)

@[simp] theorem setBus_engine : (s.setBus b).engine = s.engine := rfl
@[simp] theorem setBus_bus : (s.setBus b).bus = b := rfl
@[simp] theorem setBus_response : (s.setBus b).response = s.response := rfl
@[simp] theorem setBus_pending : (s.setBus b).pending = s.pending := rfl
@[simp] theorem setBus_ch : (s.setBus b).ch k = s.ch k := rfl

@[simp] theorem respond_engine : (s.respond r).engine = s.engine := rfl
@[simp] theorem respond_bus : (s.respond r).bus = s.bus := rfl
@[simp] theorem respond_response : (s.respond r).response = r := rfl
@[simp] theorem respond_pending : (s.respond r).pending = s.pending := rfl
@[simp] theorem respond_ch : (s.respond r).ch k = s.ch k := rfl

@[simp] theorem setPending_engine : (s.setPending q).engine = s.engine := rfl
@[simp] theorem setPending_bus : (s.setPending q).bus = s.bus := rfl
@[simp] theorem setPending_response : (s.setPending q).response = s.response := rfl
@[simp] theorem setPending_pending : (s.setPending q).pending = q := rfl
@[simp] theorem setPending_ch : (s.setPending q).ch k = s.ch k := rfl

@[simp] theorem setMdmaen_mdmaen : (s.setMdmaen v).engine.mdmaen = v := rfl
@[simp] theorem setMdmaen_hdmaen : (s.setMdmaen v).engine.hdmaen = s.engine.hdmaen := rfl
@[simp] theorem setMdmaen_bus : (s.setMdmaen v).bus = s.bus := rfl
@[simp] theorem setMdmaen_response : (s.setMdmaen v).response = s.response := rfl
@[simp] theorem setMdmaen_pending : (s.setMdmaen v).pending = s.pending := rfl
@[simp] theorem setMdmaen_ch : (s.setMdmaen v).ch k = s.ch k := rfl

@[simp] theorem setHdmaen_mdmaen : (s.setHdmaen v).engine.mdmaen = s.engine.mdmaen := rfl
@[simp] theorem setHdmaen_hdmaen : (s.setHdmaen v).engine.hdmaen = v := rfl
@[simp] theorem setHdmaen_bus : (s.setHdmaen v).bus = s.bus := rfl
@[simp] theorem setHdmaen_response : (s.setHdmaen v).response = s.response := rfl
@[simp] theorem setHdmaen_pending : (s.setHdmaen v).pending = s.pending := rfl
@[simp] theorem setHdmaen_ch : (s.setHdmaen v).ch k = s.ch k := rfl

@[simp] theorem modCh_mdmaen : (s.modCh n f).engine.mdmaen = s.engine.mdmaen := rfl
@[simp] theorem modCh_hdmaen : (s.modCh n f).engine.hdmaen = s.engine.hdmaen := rfl
@[simp] theorem modCh_bus : (s.modCh n f).bus = s.bus := rfl
@[simp] theorem modCh_response : (s.modCh n f).response = s.response := rfl
@[simp] theorem modCh_pending : (s.modCh n f).pending = s.pending := rfl

/-- The one lemma about which channel an update reaches. -/
theorem modCh_ch : (s.modCh n f).ch k = if k = n then f (s.ch n) else s.ch k := by
  by_cases e : k = n
  · subst e; simp [State.modCh, State.ch]
  · have : n.val ≠ k.val := fun h => e (Fin.ext h.symm)
    simp [State.modCh, State.ch, e, this]

@[simp] theorem modCh_ch_same : (s.modCh n f).ch n = f (s.ch n) := by simp [modCh_ch]

theorem modCh_ch_ne (e : k ≠ n) : (s.modCh n f).ch k = s.ch k := by simp [modCh_ch, e]

@[simp] theorem setA1t_mdmaen : (s.setA1t n h).engine.mdmaen = s.engine.mdmaen := rfl
@[simp] theorem setA1t_hdmaen : (s.setA1t n h).engine.hdmaen = s.engine.hdmaen := rfl
@[simp] theorem setA1t_bus : (s.setA1t n h).bus = s.bus := rfl
@[simp] theorem setA1t_response : (s.setA1t n h).response = s.response := rfl
@[simp] theorem setA1t_pending : (s.setA1t n h).pending = s.pending := rfl
theorem setA1t_ch : (s.setA1t n h).ch k = if k = n then { s.ch n with a1t := h } else s.ch k := modCh_ch ..
@[simp] theorem setA1t_ch_same : (s.setA1t n h).ch n = { s.ch n with a1t := h } := modCh_ch_same ..
theorem setA1t_ch_ne (e : k ≠ n) : (s.setA1t n h).ch k = s.ch k := modCh_ch_ne _ _ _ _ e

@[simp] theorem setDas_mdmaen : (s.setDas n h).engine.mdmaen = s.engine.mdmaen := rfl
@[simp] theorem setDas_hdmaen : (s.setDas n h).engine.hdmaen = s.engine.hdmaen := rfl
@[simp] theorem setDas_bus : (s.setDas n h).bus = s.bus := rfl
@[simp] theorem setDas_response : (s.setDas n h).response = s.response := rfl
@[simp] theorem setDas_pending : (s.setDas n h).pending = s.pending := rfl
theorem setDas_ch : (s.setDas n h).ch k = if k = n then { s.ch n with das := h } else s.ch k := modCh_ch ..
@[simp] theorem setDas_ch_same : (s.setDas n h).ch n = { s.ch n with das := h } := modCh_ch_same ..
theorem setDas_ch_ne (e : k ≠ n) : (s.setDas n h).ch k = s.ch k := modCh_ch_ne _ _ _ _ e

@[simp] theorem setA2a_mdmaen : (s.setA2a n h).engine.mdmaen = s.engine.mdmaen := rfl
@[simp] theorem setA2a_hdmaen : (s.setA2a n h).engine.hdmaen = s.engine.hdmaen := rfl
@[simp] theorem setA2a_bus : (s.setA2a n h).bus = s.bus := rfl
@[simp] theorem setA2a_response : (s.setA2a n h).response = s.response := rfl
@[simp] theorem setA2a_pending : (s.setA2a n h).pending = s.pending := rfl
theorem setA2a_ch : (s.setA2a n h).ch k = if k = n then { s.ch n with a2a := h } else s.ch k := modCh_ch ..
@[simp] theorem setA2a_ch_same : (s.setA2a n h).ch n = { s.ch n with a2a := h } := modCh_ch_same ..
theorem setA2a_ch_ne (e : k ≠ n) : (s.setA2a n h).ch k = s.ch k := modCh_ch_ne _ _ _ _ e

@[simp] theorem setNtrl_mdmaen : (s.setNtrl n v).engine.mdmaen = s.engine.mdmaen := rfl
@[simp] theorem setNtrl_hdmaen : (s.setNtrl n v).engine.hdmaen = s.engine.hdmaen := rfl
@[simp] theorem setNtrl_bus : (s.setNtrl n v).bus = s.bus := rfl
@[simp] theorem setNtrl_response : (s.setNtrl n v).response = s.response := rfl
@[simp] theorem setNtrl_pending : (s.setNtrl n v).pending = s.pending := rfl
theorem setNtrl_ch : (s.setNtrl n v).ch k = if k = n then { s.ch n with ntrl := v } else s.ch k := modCh_ch ..
@[simp] theorem setNtrl_ch_same : (s.setNtrl n v).ch n = { s.ch n with ntrl := v } := modCh_ch_same ..
theorem setNtrl_ch_ne (e : k ≠ n) : (s.setNtrl n v).ch k = s.ch k := modCh_ch_ne _ _ _ _ e

@[simp] theorem setActive_mdmaen : (s.setActive n x).engine.mdmaen = s.engine.mdmaen := rfl
@[simp] theorem setActive_hdmaen : (s.setActive n x).engine.hdmaen = s.engine.hdmaen := rfl
@[simp] theorem setActive_bus : (s.setActive n x).bus = s.bus := rfl
@[simp] theorem setActive_response : (s.setActive n x).response = s.response := rfl
@[simp] theorem setActive_pending : (s.setActive n x).pending = s.pending := rfl
theorem setActive_ch : (s.setActive n x).ch k = if k = n then { s.ch n with active := x } else s.ch k := modCh_ch ..
@[simp] theorem setActive_ch_same : (s.setActive n x).ch n = { s.ch n with active := x } := modCh_ch_same ..
theorem setActive_ch_ne (e : k ≠ n) : (s.setActive n x).ch k = s.ch k := modCh_ch_ne _ _ _ _ e

end Parts

/-- Two states with equal channels, masks, Bus, response and queue are equal. -/
theorem state_ext {s t : State} (hc : ∀ n, s.ch n = t.ch n) (hm : s.engine.mdmaen = t.engine.mdmaen)
    (hh : s.engine.hdmaen = t.engine.hdmaen) (hb : s.bus = t.bus) (hr : s.response = t.response)
    (hp : s.pending = t.pending) : s = t := by
  obtain ⟨⟨cs, _, _⟩, _, _, _⟩ := s
  obtain ⟨⟨ct, _, _⟩, _, _, _⟩ := t
  have : cs = ct := Vector.ext fun i hi => hc ⟨i, hi⟩
  simp_all

/-- The last update of a channel register is what stands. -/
@[simp] theorem modCh_modCh (s : State) (n : Chan) (f g : Channel → Channel) :
    (s.modCh n f).modCh n g = s.modCh n (g ∘ f) := by
  apply state_ext <;> try rfl
  intro k
  by_cases e : k = n <;> simp [modCh_ch, e]

/-- Channel n of the reset state is its part of the draw. -/
@[simp] theorem resetWith_ch (draw : Vector Byte 96) (n : Chan) : (State.resetWith draw).ch n = Channel.ofDraw draw n := by
  simp [State.resetWith, State.ch]

end Sys2Proof.Machine
end

