-- ==== Sys2Proof/Laws/Ops.lean ====
section
/-! SUPPORT. What each shared operation can do, said once: the accesses it makes, what it leaves in its channel, and that nothing else
changes. `ChanStep n s t c es` is that form. -/

namespace Sys2Proof.Machine

/-- From `s` to `t` the accesses `es` were made, channel `n` became `c`, and every other part of the state is as it was. -/
structure ChanStep (n : Chan) (s t : State) (c : Channel) (es : List BusEvent) : Prop where
  bus : s.bus.run es = some t.bus
  same : t.ch n = c
  others : ∀ k, k ≠ n → t.ch k = s.ch k
  mdmaen : t.engine.mdmaen = s.engine.mdmaen
  hdmaen : t.engine.hdmaen = s.engine.hdmaen
  response : t.response = s.response
  pending : t.pending = s.pending

namespace ChanStep
variable {n : Chan} {s t u : State} {c d : Channel} {es fs : List BusEvent}

theorem refl : ChanStep n s s (s.ch n) [] := ⟨rfl, rfl, fun _ _ => rfl, rfl, rfl, rfl, rfl⟩

theorem trans (h : ChanStep n s t c es) (g : ChanStep n t u d fs) : ChanStep n s u d (es ++ fs) :=
  ⟨run_append h.bus g.bus, g.same, fun k e => (g.others k e).trans (h.others k e), g.mdmaen.trans h.mdmaen,
    g.hdmaen.trans h.hdmaen, g.response.trans h.response, g.pending.trans h.pending⟩

/-- Only the Bus changes. -/
theorem ofBus {b : Bus} (h : s.bus.run es = some b) : ChanStep n s (s.setBus b) (s.ch n) es :=
  ⟨h, rfl, fun _ _ => rfl, rfl, rfl, rfl, rfl⟩

/-- Only channel n's registers change. -/
theorem ofMod (f : Channel → Channel) : ChanStep n s (s.modCh n f) (f (s.ch n)) [] :=
  ⟨rfl, modCh_ch_same .., fun _ e => modCh_ch_ne _ _ _ _ e, rfl, rfl, rfl, rfl⟩

/-- Channel n, whatever it is afterwards. -/
theorem ch_eq (h : ChanStep n s t c es) (k : Chan) : t.ch k = if k = n then c else s.ch k := by
  by_cases e : k = n
  · subst e; simpa using h.same
  · simpa [e] using h.others k e

end ChanStep

/-! ## Byte moves -/

theorem byteMove_spec (n : Chan) (dir : Bool) (a : Addr) (x : Byte) (s : State) :
    ∃ v, ChanStep n s (byteMove dir a x s) (s.ch n) (moveEvents dir a x v) := by
  cases dir
  · exact ⟨s.bus.answerA a, ChanStep.ofBus (by simp [moveEvents])⟩
  · exact ⟨s.bus.answerB x, ChanStep.ofBus (by simp [moveEvents])⟩

theorem dmaMove_spec (n : Chan) (dir : Bool) (m : BitVec 3) (k : Nat) (s : State) :
    ∃ v, ChanStep n s (dmaMove n dir m k s) (s.ch n)
      (moveEvents dir (mkAddr (s.ch n).a1b (s.ch n).a1t) (bAddr (s.ch n).bbad m k) v) :=
  byteMove_spec ..

theorem stepA1t_spec (n : Chan) (st : BitVec 2) (s : State) :
    ChanStep n s (stepA1t n st s) { s.ch n with a1t := stepA (s.ch n).a1t st } [] :=
  ChanStep.ofMod fun c => { c with a1t := stepA (s.ch n).a1t st }

theorem hdmaMove_spec (n : Chan) (ind : Bool) (m : BitVec 3) (k : Nat) (s : State) :
    ∃ v, ChanStep n s (hdmaMove n ind m k s) (pointerPast ind 1 (s.ch n))
      (moveEvents false (unitAddr ind (s.ch n) 0) (bAddr (s.ch n).bbad m k) v) := by
  cases ind
  · refine ⟨s.bus.answerA (s.ch n).tableAddr, ?_, ?_, ?_, rfl, rfl, rfl, rfl⟩
    · simp [hdmaMove, moveEvents, unitAddr, Channel.tableAddr]
    · simp [hdmaMove, pointerPast]
    · intro k' e; simp [hdmaMove, setA2a_ch, e]
  · refine ⟨s.bus.answerA (s.ch n).indirectAddr, ?_, ?_, ?_, rfl, rfl, rfl, rfl⟩
    · simp [hdmaMove, moveEvents, unitAddr, Channel.indirectAddr]
    · simp [hdmaMove, pointerPast]
    · intro k' e; simp [hdmaMove, setDas_ch, e]

theorem pointerPast_add (ind : Bool) (j k : Nat) (c : Channel) :
    pointerPast ind k (pointerPast ind j c) = pointerPast ind (j + k) c := by
  cases ind <;> simp [pointerPast, BitVec.ofNat_add, BitVec.add_assoc]

theorem unitAddr_pointerPast (ind : Bool) (j k : Nat) (c : Channel) :
    unitAddr ind (pointerPast ind j c) k = unitAddr ind c (j + k) := by
  cases ind <;> simp [unitAddr, pointerPast, BitVec.ofNat_add, BitVec.add_assoc]

@[simp] theorem pointerPast_bbad (ind : Bool) (k : Nat) (c : Channel) : (pointerPast ind k c).bbad = c.bbad := by
  cases ind <;> rfl
@[simp] theorem pointerPast_dmap (ind : Bool) (k : Nat) (c : Channel) : (pointerPast ind k c).dmap = c.dmap := by
  cases ind <;> rfl
@[simp] theorem pointerPast_a1b (ind : Bool) (k : Nat) (c : Channel) : (pointerPast ind k c).a1b = c.a1b := by
  cases ind <;> rfl
@[simp] theorem pointerPast_ntrl (ind : Bool) (k : Nat) (c : Channel) : (pointerPast ind k c).ntrl = c.ntrl := by
  cases ind <;> rfl

/-- The first `l` bytes of a unit. -/
theorem hdmaBytes_spec (n : Chan) (ind : Bool) (m : BitVec 3) (s : State) (l : Nat) :
    ∃ vs : Nat → Byte, ChanStep n s ((List.range l).foldl (fun s k => hdmaMove n ind m k s) s) (pointerPast ind l (s.ch n))
      ((List.range l).flatMap fun k => moveEvents false (unitAddr ind (s.ch n) k) (bAddr (s.ch n).bbad m k) (vs k)) := by
  induction l with
  | zero => exact ⟨fun _ => 0, by cases ind <;> simpa [pointerPast] using ChanStep.refl⟩
  | succ l ih =>
    obtain ⟨vs, h⟩ := ih
    rw [List.range_succ, List.foldl_append, List.foldl_cons, List.foldl_nil]
    set t := (List.range l).foldl (fun s k => hdmaMove n ind m k s) s
    obtain ⟨v, g⟩ := hdmaMove_spec n ind m l t
    refine ⟨fun k => if k = l then v else vs k, ?_⟩
    have e := h.trans g
    rw [h.same, pointerPast_add, unitAddr_pointerPast, pointerPast_bbad] at e
    convert e using 1
    rw [List.flatMap_append]
    congr 1
    · refine List.flatMap_congr fun k hk => ?_
      have : k ≠ l := by have := List.mem_range.mp hk; omega
      simp [this]
    · simp

theorem hdmaUnit_spec (n : Chan) (ind : Bool) (m : BitVec 3) (s : State) :
    ∃ vs : Nat → Byte, ChanStep n s (hdmaUnit n ind m s) (pointerPast ind (unitLen m) (s.ch n))
      (unitEvents ind m (s.ch n) vs) :=
  hdmaBytes_spec n ind m s (unitLen m)

/-! ## LoadEntry -/

theorem readTable_spec (n : Chan) (s : State) :
    ChanStep n s (readTable n s).2 { s.ch n with a2a := (s.ch n).a2a + 1 }
      [.aRead (mkAddr (s.ch n).a1b (s.ch n).a2a) (readTable n s).1] := by
  refine ⟨?_, by simp [readTable], ?_, rfl, rfl, rfl, rfl⟩
  · simp [readTable, Channel.tableAddr]
  · intro k e; simp [readTable, setA2a_ch, e]

theorem loadIndirect_spec (n : Chan) (s : State) :
    ∃ lo hi, ChanStep n s (loadIndirect n s) { s.ch n with a2a := (s.ch n).a2a + 2, das := hi ++ lo }
      [.aRead (mkAddr (s.ch n).a1b (s.ch n).a2a) lo, .aRead (mkAddr (s.ch n).a1b ((s.ch n).a2a + 1)) hi] := by
  have h := readTable_spec n s
  have g := readTable_spec n (readTable n s).2
  have k := ChanStep.ofMod (n := n) (s := (readTable n (readTable n s).2).2)
    fun c => { c with das := (readTable n (readTable n s).2).1 ++ (readTable n s).1 }
  refine ⟨(readTable n s).1, (readTable n (readTable n s).2).1, ?_⟩
  have e := (h.trans g).trans k
  rw [g.same, h.same] at e
  simpa [BitVec.add_assoc, loadIndirect, State.setDas] using e

/-- What LoadEntry does with the byte it read, the pointer already past it. -/
theorem loadByte_spec (n : Chan) (b : Byte) (s : State) :
    ∃ lo hi, ChanStep n s (loadByte n b s)
      (if b = 0 then { s.ch n with active := false }
        else if dmapInd (s.ch n).dmap then
          { s.ch n with a2a := (s.ch n).a2a + 2, ntrl := b, das := hi ++ lo, active := true }
        else { s.ch n with ntrl := b, active := true })
      (if b ≠ 0 ∧ dmapInd (s.ch n).dmap then
        [.aRead (mkAddr (s.ch n).a1b (s.ch n).a2a) lo, .aRead (mkAddr (s.ch n).a1b ((s.ch n).a2a + 1)) hi] else []) := by
  by_cases hb : b = 0
  · exact ⟨0, 0, by simpa [loadByte, hb, State.setActive] using ChanStep.ofMod fun c => { c with active := false }⟩
  have h : ChanStep n s (s.setNtrl n b) { s.ch n with ntrl := b } [] := ChanStep.ofMod fun c => { c with ntrl := b }
  have e : (b ≠ 0 ∧ dmapInd (s.ch n).dmap = true) ↔ dmapInd (s.ch n).dmap = true := ⟨And.right, And.intro hb⟩
  simp only [loadByte, if_neg hb, if_congr e rfl rfl, setNtrl_ch_same]
  by_cases hi : dmapInd (s.ch n).dmap = true
  · obtain ⟨lo, hi', g⟩ := loadIndirect_spec n (s.setNtrl n b)
    have k := (h.trans g).trans (ChanStep.ofMod fun c => { c with active := true })
    rw [g.same, h.same] at k
    exact ⟨lo, hi', by simpa [hi, State.setActive] using k⟩
  · have k := h.trans (ChanStep.ofMod fun c => { c with active := true })
    rw [h.same] at k
    exact ⟨0, 0, by simpa [hi, State.setActive] using k⟩

theorem loadEntry_spec (n : Chan) (s : State) :
    ∃ b lo hi, ChanStep n s (loadEntry n s) (entryDone (s.ch n) b lo hi) (entryEvents (s.ch n) b lo hi) := by
  have h := readTable_spec n s
  obtain ⟨lo, hi, g⟩ := loadByte_spec n (readTable n s).1 (readTable n s).2
  refine ⟨(readTable n s).1, lo, hi, ?_⟩
  have e := h.trans g
  rw [h.same] at e
  simp only [loadEntry, entryDone, entryEvents]
  convert e using 1
  · split <;> [skip; split] <;> simp [BitVec.add_assoc]
  · simp [BitVec.add_assoc]

/-! ## The register window -/

@[simp] theorem lowByte_setLow (v : Half) (d : Byte) : lowByte (setLow v d) = d := by
  refine BitVec.eq_of_getLsbD_eq fun i hi => ?_
  simp only [lowByte, setLow, BitVec.getLsbD_extractLsb', BitVec.getLsbD_append, Nat.zero_add, hi, decide_true, Bool.true_and,
    if_pos]

@[simp] theorem highByte_setLow (v : Half) (d : Byte) : highByte (setLow v d) = highByte v := by
  refine BitVec.eq_of_getLsbD_eq fun i hi => ?_
  simp only [highByte, setLow, BitVec.getLsbD_extractLsb', BitVec.getLsbD_append, hi, decide_true, Bool.true_and]
  rw [if_neg (by omega), Nat.add_sub_cancel_left]
  simp [hi]

@[simp] theorem highByte_setHigh (v : Half) (d : Byte) : highByte (setHigh v d) = d := by
  refine BitVec.eq_of_getLsbD_eq fun i hi => ?_
  simp only [highByte, setHigh, BitVec.getLsbD_extractLsb', BitVec.getLsbD_append, hi, decide_true, Bool.true_and]
  rw [if_neg (by omega), Nat.add_sub_cancel_left]

@[simp] theorem lowByte_setHigh (v : Half) (d : Byte) : lowByte (setHigh v d) = lowByte v := by
  refine BitVec.eq_of_getLsbD_eq fun i hi => ?_
  simp only [lowByte, setHigh, BitVec.getLsbD_extractLsb', BitVec.getLsbD_append, hi, decide_true, Bool.true_and, Nat.zero_add,
    if_pos]

theorem readByte_writeByte_same (c : Channel) (d : Byte) (r : ChanReg) : (c.writeByte d r).readByte r = d := by
  cases r <;> simp [Channel.writeByte, Channel.readByte]

/-- A port access answers a next state but for a read of a mask. -/
theorem accessPort_spec (p : WindowPort) (acc : Access) (s : State) :
    accessPort p acc s =
      match acc, p with
      | .read, .chan n r => .next (s.respond (.data ((s.ch n).readByte r)))
      | .read, _ => .refused .undecodedRead
      | .write d, .chan n r => .next ((s.modCh n fun c => c.writeByte d r).respond .none)
      | .write d, .mdmaen => .next ((s.setMdmaen d).respond .none)
      | .write d, .hdmaen => .next ((s.setHdmaen d).respond .none) := by
  cases acc <;> cases p <;> rfl

end Sys2Proof.Machine
end

