-- ==== Sys2Proof/Laws/Commands.lean ====
section
/-! SUPPORT. What a command does to one channel, and how the channels of a command come together. -/

namespace Sys2Proof.Machine

/-! ## One channel's turn -/

/-- One byte of a DMA: the two accesses, A1T stepped, DAS decremented. -/
theorem dmaByte_spec (n : Chan) (k : Nat) (s : State) :
    ∃ v, ChanStep n s (dmaByte n k s)
      { s.ch n with a1t := stepA (s.ch n).a1t (dmapStep (s.ch n).dmap), das := (s.ch n).das - 1 }
      (moveEvents (dmapDir (s.ch n).dmap) (mkAddr (s.ch n).a1b (s.ch n).a1t)
        (bAddr (s.ch n).bbad (dmapMode (s.ch n).dmap) k) v) := by
  obtain ⟨v, h⟩ := dmaMove_spec n (dmapDir (s.ch n).dmap) (dmapMode (s.ch n).dmap) k s
  set t := dmaMove n (dmapDir (s.ch n).dmap) (dmapMode (s.ch n).dmap) k s with ht
  have g := stepA1t_spec n (dmapStep (s.ch n).dmap) t
  set u := stepA1t n (dmapStep (s.ch n).dmap) t with hu
  have e := (h.trans g).trans (ChanStep.ofMod fun c => { c with das := (u.ch n).das - 1 })
  rw [g.same, h.same] at e
  exact ⟨v, by simpa [dmaByte, ← ht, ← hu, State.setDas, g.same, h.same] using e⟩

/-- Stepping A1T once more. -/
theorem stepA_a1tAfter (c : Channel) (k : Nat) : stepA (a1tAfter c k) (dmapStep c.dmap) = a1tAfter c (k + 1) := by
  simp only [stepA, a1tAfter]
  generalize dmapStep c.dmap = st
  have : st = 0 ∨ st = 1 ∨ st = 2 ∨ st = 3 := by revert st; decide
  rcases this with rfl | rfl | rfl | rfl
  · simp [BitVec.ofNat_add, BitVec.add_assoc]
  · rfl
  · simp [BitVec.ofNat_add, BitVec.sub_sub]
  · rfl

/-- A channel k bytes into its DMA. -/
abbrev dmaAt (c : Channel) (k : Nat) : Channel := { c with a1t := a1tAfter c k, das := c.das - BitVec.ofNat 16 k }

theorem dmaAt_zero (c : Channel) : dmaAt c 0 = c := by
  have : a1tAfter c 0 = c.a1t := by simp [a1tAfter]
  simp [dmaAt, this]

theorem dmaCount_pos (das : Half) : 0 < dmaCount das := by
  unfold dmaCount
  split
  · decide
  · rename_i h
    exact Nat.pos_of_ne_zero fun e => h (BitVec.eq_of_toNat_eq (by simpa using e))

theorem dmaCount_le (das : Half) : dmaCount das ≤ 65536 := by
  unfold dmaCount
  split
  · exact Nat.le_refl _
  · exact Nat.le_of_lt das.isLt

/-- The counter reaches 0 exactly when all bytes have moved (R163). -/
theorem das_sub_eq_zero (das : Half) {k : Nat} (hk : 0 < k) (hk' : k ≤ dmaCount das) :
    das - BitVec.ofNat 16 k = 0 ↔ k = dmaCount das := by
  have hlt := das.isLt
  have hle := dmaCount_le das
  rw [BitVec.sub_eq_iff_eq_add, show (0 : Half) + BitVec.ofNat 16 k = BitVec.ofNat 16 k from BitVec.zero_add _]
  unfold dmaCount at *
  constructor
  · intro h
    have h' : das.toNat = k % 65536 := by rw [h]; simp
    split at hk' <;> rename_i h0
    · have : das.toNat = 0 := by rw [h0]; rfl
      simp only [h0, if_true] at *
      omega
    · rw [if_neg h0]
      have : das.toNat ≠ 0 := fun e => h0 (BitVec.eq_of_toNat_eq (by simpa using e))
      omega
  · intro h
    apply BitVec.eq_of_toNat_eq
    split at h <;> rename_i h0
    · subst h; rw [h0]; rfl
    · subst h; simp

/-- The rest of a channel's DMA, `k` of its bytes moved: it moves the others, byte by byte, and leaves the channel done. The `cyc`
it returns grew by one byte's cost each. -/
theorem dmaLoop_spec (n : Chan) (c : Channel) (fuel k r : Nat) (s : State) (cyc : Nat) (hs : s.ch n = dmaAt c k)
    (hr : k + r = dmaCount c.das) (hpos : 0 < r) (hf : r ≤ fuel) :
    ∃ vs : Nat → Byte, ChanStep n s (dmaLoop n fuel k s cyc).1 (dmaDone c)
        ((List.range' k r).flatMap fun j =>
          moveEvents (dmapDir c.dmap) (mkAddr c.a1b (a1tAfter c j)) (bAddr c.bbad (dmapMode c.dmap) j) (vs j)) ∧
      (dmaLoop n fuel k s cyc).2 = cyc + r * Config.dmaByteCycles := by
  induction fuel generalizing k r s cyc with
  | zero => omega
  | succ fuel ih =>
    obtain ⟨v, h⟩ := dmaByte_spec n k s
    have hc : (dmaByte n k s).ch n = dmaAt c (k + 1) := by
      rw [h.same, hs]
      simp [dmaAt, stepA_a1tAfter, BitVec.ofNat_add, BitVec.sub_sub]
    rw [hs] at h
    have hz := das_sub_eq_zero c.das (Nat.succ_pos k) (by omega)
    simp only [dmaLoop]
    have hd : ((dmaByte n k s).ch n).das = c.das - BitVec.ofNat 16 (k + 1) := by rw [hc]
    rw [hd]
    by_cases e : k + 1 = dmaCount c.das
    · have hr1 : r = 1 := by omega
      subst hr1
      rw [if_pos (hz.mpr e)]
      refine ⟨fun _ => v, ?_, by simp⟩
      have h' : ChanStep n s (dmaByte n k s) (dmaAt c (k + 1)) _ := ⟨h.bus, hc, h.others, h.mdmaen, h.hdmaen, h.response, h.pending⟩
      have hz' := hz.mpr e
      have : dmaAt c (k + 1) = dmaDone c := by simp only [dmaAt, dmaDone]; rw [hz', e]
      rw [this] at h'
      simpa using h'
    · rw [if_neg (fun z => e (hz.mp z))]
      obtain ⟨vs, g, gc⟩ := ih (k + 1) (r - 1) (dmaByte n k s) (cyc + Config.dmaByteCycles) hc (by omega) (by omega) (by omega)
      refine ⟨fun j => if j = k then v else vs j, ?_, ?_⟩
      · have eq := h.trans g
        convert eq using 1
        obtain ⟨r, rfl⟩ : ∃ q, r = q + 1 := ⟨r - 1, by omega⟩
        rw [List.range'_succ, List.flatMap_cons]
        congr 1
        · simp
        · refine List.flatMap_congr fun j hj => ?_
          have : j ≠ k := by have := List.mem_range'_1.mp hj; omega
          simp [this]
      · rw [gc]
        obtain ⟨r, rfl⟩ : ∃ q, r = q + 1 := ⟨r - 1, by omega⟩
        rw [Nat.add_sub_cancel, Nat.succ_mul]
        omega

/-- A selected channel's whole DMA. -/
theorem dmaChannel_spec (n : Chan) (s : State) (cyc : Nat) :
    ∃ vs : Nat → Byte, ChanStep n s (dmaLoop n 65536 0 s cyc).1 (dmaDone (s.ch n)) (dmaEvents (s.ch n) vs) ∧
      (dmaLoop n 65536 0 s cyc).2 = cyc + dmaCount (s.ch n).das * Config.dmaByteCycles := by
  obtain ⟨vs, h, e⟩ := dmaLoop_spec n (s.ch n) 65536 0 (dmaCount (s.ch n).das) s cyc (dmaAt_zero _).symm (by simp)
    (dmaCount_pos _) (dmaCount_le _)
  exact ⟨vs, by simpa [dmaEvents, List.range_eq_range'] using h, e⟩

/-- The line counter's turn of a processed channel. -/
theorem countLine_spec (n : Chan) (s : State) :
    ∃ b lo hi, ChanStep n s (countLine n s)
      (if reloadDue (s.ch n).ntrl then entryDone { s.ch n with ntrl := decLine (s.ch n).ntrl } b lo hi
        else { s.ch n with ntrl := decLine (s.ch n).ntrl })
      (if reloadDue (s.ch n).ntrl then entryEvents { s.ch n with ntrl := decLine (s.ch n).ntrl } b lo hi else []) := by
  have h : ChanStep n s (s.setNtrl n (decLine (s.ch n).ntrl)) { s.ch n with ntrl := decLine (s.ch n).ntrl } [] :=
    ChanStep.ofMod fun c => { c with ntrl := decLine (s.ch n).ntrl }
  by_cases hr : reloadDue (s.ch n).ntrl = true
  · obtain ⟨b, lo, hi, g⟩ := loadEntry_spec n (s.setNtrl n (decLine (s.ch n).ntrl))
    have e := h.trans g
    rw [h.same] at e
    exact ⟨b, lo, hi, by simpa [countLine, hr] using e⟩
  · exact ⟨0, 0, 0, by simpa [countLine, hr] using h⟩

/-- A processed channel's line: its unit, its line counter and any reload. -/
theorem hdmaLine_spec (n : Chan) (s : State) :
    ∃ vs b lo hi, ChanStep n s (hdmaLine n s) (lineDone (s.ch n) b lo hi) (lineEvents (s.ch n) vs b lo hi) := by
  obtain ⟨vs, h⟩ := hdmaUnit_spec n (dmapInd (s.ch n).dmap) (dmapMode (s.ch n).dmap) s
  obtain ⟨b, lo, hi, g⟩ := countLine_spec n (hdmaUnit n (dmapInd (s.ch n).dmap) (dmapMode (s.ch n).dmap) s)
  have e := h.trans g
  rw [h.same, pointerPast_ntrl] at e
  exact ⟨vs, b, lo, hi, e⟩

/-- A channel's turn of INIT_HDMA. -/
theorem initChannel_spec (n : Chan) (s : State) :
    ∃ b lo hi, ChanStep n s (initChannel s n)
      (if maskBit s.engine.hdmaen n then entryDone { s.ch n with a2a := (s.ch n).a1t } b lo hi
        else { s.ch n with active := false })
      (if maskBit s.engine.hdmaen n then entryEvents { s.ch n with a2a := (s.ch n).a1t } b lo hi else []) := by
  by_cases hm : maskBit s.engine.hdmaen n = true
  · have h : ChanStep n s (s.setA2a n (s.ch n).a1t) { s.ch n with a2a := (s.ch n).a1t } [] :=
      ChanStep.ofMod fun c => { c with a2a := (s.ch n).a1t }
    obtain ⟨b, lo, hi, g⟩ := loadEntry_spec n (s.setA2a n (s.ch n).a1t)
    have e := h.trans g
    rw [h.same] at e
    exact ⟨b, lo, hi, by simpa [initChannel, hm] using e⟩
  · have h : ChanStep n s (s.setActive n false) { s.ch n with active := false } [] :=
      ChanStep.ofMod fun c => { c with active := false }
    exact ⟨0, 0, 0, by simpa [initChannel, hm] using h⟩

/-! ## All channels' turns -/

/-- Channels taken one after another, each doing to itself what `f` does: every listed channel is done, every other is as it was, and
the accesses are the channels' accesses in order. `D` and `E` may depend on HDMAEN, which no turn changes. -/
theorem fold_channels {δ : Type} [Inhabited δ] (f : State → Chan → State) (D : Byte → Chan → Channel → δ → Channel)
    (E : Byte → Chan → Channel → δ → List BusEvent)
    (hf : ∀ s n, ∃ d, ChanStep n s (f s n) (D s.engine.hdmaen n (s.ch n) d) (E s.engine.hdmaen n (s.ch n) d))
    (l : List Chan) (hl : l.Nodup) (s : State) :
    ∃ d : Chan → δ,
      s.bus.run (l.flatMap fun n => E s.engine.hdmaen n (s.ch n) (d n)) = some (l.foldl f s).bus ∧
      (∀ n, (l.foldl f s).ch n = if n ∈ l then D s.engine.hdmaen n (s.ch n) (d n) else s.ch n) ∧
      (l.foldl f s).engine.mdmaen = s.engine.mdmaen ∧ (l.foldl f s).engine.hdmaen = s.engine.hdmaen ∧
      (l.foldl f s).response = s.response ∧ (l.foldl f s).pending = s.pending := by
  induction l generalizing s with
  | nil => exact ⟨fun _ => default, rfl, fun _ => by simp, rfl, rfl, rfl, rfl⟩
  | cons n l ih =>
    obtain ⟨hn, hl'⟩ := List.nodup_cons.mp hl
    obtain ⟨d0, h⟩ := hf s n
    obtain ⟨d, hb, hc, hm, hh, hr, hp⟩ := ih hl' (f s n)
    rw [h.hdmaen] at hb hc
    refine ⟨fun k => if k = n then d0 else d k, ?_, ?_, hm.trans h.mdmaen, hh.trans h.hdmaen, hr.trans h.response,
      hp.trans h.pending⟩
    · rw [List.flatMap_cons]
      have e := run_append h.bus hb
      rw [List.foldl_cons, ← e]
      congr 2
      · simp
      · refine List.flatMap_congr fun k hk => ?_
        have : k ≠ n := fun e => hn (e ▸ hk)
        simp [this, h.others k this]
    · intro k
      rw [List.foldl_cons, hc k]
      by_cases e : k = n
      · subst e; simp [hn, h.same]
      · simp [e, h.others k e]

theorem allChans_nodup : allChans.Nodup := by decide

theorem mem_allChans (n : Chan) : n ∈ allChans := by revert n; decide

end Sys2Proof.Machine
end

