-- ==== Sys2Proof/Laws/Decode.lean ====
section
/-! SUPPORT. The encodings' small facts: the fields of a packed control byte and of a request word. -/

namespace Sys2Proof

section Dmap
variable (d i p : Bool) (st : BitVec 2) (m : BitVec 3)

@[simp] theorem dmapDir_pack : dmapDir (dmapPack d i p st m) = d := by revert d i p st m; decide
@[simp] theorem dmapInd_pack : dmapInd (dmapPack d i p st m) = i := by revert d i p st m; decide
@[simp] theorem dmapU5_pack : dmapU5 (dmapPack d i p st m) = p := by revert d i p st m; decide
@[simp] theorem dmapStep_pack : dmapStep (dmapPack d i p st m) = st := by revert d i p st m; decide
@[simp] theorem dmapMode_pack : dmapMode (dmapPack d i p st m) = m := by revert d i p st m; decide

/-- No bit of a control byte is outside its five fields. -/
@[simp] theorem dmapPack_fields (b : Byte) : dmapPack (dmapDir b) (dmapInd b) (dmapU5 b) (dmapStep b) (dmapMode b) = b := by
  revert b; decide

end Dmap

section Command
variable (a : Half) (d : Byte) (c : BitVec 3)

/-- The reserved field of an encoded request word is 0. -/
@[simp] theorem commandWord_z : (commandWord a d c).extractLsb' 27 5 = 0 := by
  refine BitVec.eq_of_getLsbD_eq fun i hi => ?_
  simp only [commandWord, BitVec.getLsbD_extractLsb', BitVec.getLsbD_append]
  rw [if_neg (by omega), if_neg (by omega), if_neg (by omega)]
  simp

/-- The `a` field of an encoded request word. -/
@[simp] theorem commandWord_a : (commandWord a d c).extractLsb' 11 16 = a := by
  refine BitVec.eq_of_getLsbD_eq fun i hi => ?_
  simp only [commandWord, BitVec.getLsbD_extractLsb', BitVec.getLsbD_append, hi, decide_true, Bool.true_and]
  rw [if_neg (by omega), if_neg (by omega), if_pos (by omega)]
  congr 1; omega

/-- The `d` field of an encoded request word. -/
@[simp] theorem commandWord_d : (commandWord a d c).extractLsb' 3 8 = d := by
  refine BitVec.eq_of_getLsbD_eq fun i hi => ?_
  simp only [commandWord, BitVec.getLsbD_extractLsb', BitVec.getLsbD_append, hi, decide_true, Bool.true_and]
  rw [if_neg (by omega), if_pos (by omega)]
  congr 1; omega

/-- The `cmd` field of an encoded request word. -/
@[simp] theorem commandWord_cmd : (commandWord a d c).extractLsb' 0 3 = c := by
  refine BitVec.eq_of_getLsbD_eq fun i hi => ?_
  simp only [commandWord, BitVec.getLsbD_extractLsb', BitVec.getLsbD_append, hi, decide_true, Bool.true_and]
  rw [if_pos (by omega)]
  congr 1; omega

/-- Every request word is made of its four fields. -/
theorem command_fields (w : Req) (hz : w.extractLsb' 27 5 = 0) :
    commandWord (w.extractLsb' 11 16) (w.extractLsb' 3 8) (w.extractLsb' 0 3) = w := by
  refine BitVec.eq_of_getLsbD_eq fun i hi => ?_
  simp only [commandWord, BitVec.getLsbD_extractLsb', BitVec.getLsbD_append]
  split
  · simp_all
  · split
    · rename_i h1 h2
      simp only [h2, decide_true, Bool.true_and]; congr 1; omega
    · split
      · rename_i h1 h2 h3
        simp only [h3, decide_true, Bool.true_and]; congr 1; omega
      · rename_i h1 h2 h3
        have := congrArg (fun v => v.getLsbD (i - 27)) hz
        simp only [BitVec.getLsbD_extractLsb'] at this
        rw [show 27 + (i - 27) = i by omega, show decide (i - 27 < 5) = true by simp; omega] at this
        simpa using this.symm

end Command

/-- The bits of a request word under a mask, from the fields: a command word under a 32-bit mask. -/
theorem and_mask (a : Half) (d : Byte) (c : BitVec 3) (ma : Half) (md : Byte) :
    commandWord a d c &&& ((0x1F : BitVec 5) ++ ma ++ md ++ (7 : BitVec 3) : Req) = commandWord (a &&& ma) (d &&& md) c := by
  refine BitVec.eq_of_getLsbD_eq fun i hi => ?_
  simp only [commandWord, BitVec.getLsbD_and, BitVec.getLsbD_append]
  split
  · rename_i h
    have : (7 : BitVec 3).getLsbD i = true := by
      have : i = 0 ∨ i = 1 ∨ i = 2 := by omega
      rcases this with rfl | rfl | rfl <;> rfl
    rw [this, Bool.and_true]
  · split
    · rfl
    · split
      · rfl
      · simp

theorem fits_command (a : Half) (d : Byte) (c : BitVec 3) (ma : Half) (md : Byte) (r : Row) (hf : r.format = .cmd32)
    (hm : r.mask = ((0x1F : BitVec 5) ++ ma ++ md ++ (7 : BitVec 3) : Req).toNat)
    (hp : r.pat = (commandWord (a &&& ma) (d &&& md) c).toNat) : r.fits (.command (commandWord a d c)) = true := by
  obtain ⟨f, p, m⟩ := r
  simp only at hf hm hp
  subst hf hm hp
  simp only [Row.fits, wordBits, beq_iff_eq]
  rw [← and_mask, BitVec.toNat_and]

/-! ## The register window -/

/-- The window decodes every port's address back. -/
@[simp] theorem windowPort_portAddr (p : WindowPort) : windowPort (portAddr p) = some p := by
  cases p with
  | chan n r => cases r <;> (revert n; decide)
  | mdmaen => decide
  | hdmaen => decide

/-- A decoded register index, assembled again. -/
theorem chan_window (x : BitVec 4) (y : BitVec 3) (p : WindowPort) (h : (chanRegOf x).map (WindowPort.chan (chanOf y)) = some p) :
    portAddr p = (0b010000110 : BitVec 9) ++ y ++ x := by
  have : ∀ (x : BitVec 4) (y : BitVec 3), (match (chanRegOf x).map (WindowPort.chan (chanOf y)) with
      | some p => portAddr p == (0b010000110 : BitVec 9) ++ y ++ x
      | none => true) = true := by decide
  have := this x y
  rw [h] at this
  simpa using this

/-- A window address with the channel prefix is made of its three fields. -/
theorem half_fields (a : Half) (h : a.extractLsb' 7 9 = 0b010000110) :
    (0b010000110 : BitVec 9) ++ a.extractLsb' 4 3 ++ a.extractLsb' 0 4 = a := by
  rw [← h]
  refine BitVec.eq_of_getLsbD_eq fun i hi => ?_
  simp only [BitVec.getLsbD_append, BitVec.getLsbD_extractLsb']
  split
  · simp_all
  · split
    · rename_i h1 h2; simp only [h2, decide_true, Bool.true_and]; congr 1; omega
    · rename_i h1 h2; rw [show decide (i - 4 - 3 < 9) = true by simp; omega, Bool.true_and]; congr 1; omega

/-- A decoded window address is its port's. -/
theorem portAddr_windowPort (a : Half) (p) (h : windowPort a = some p) : portAddr p = a := by
  unfold windowPort at h
  by_cases h1 : a.extractLsb' 7 9 = 0b010000110
  · rw [if_pos h1] at h
    rw [chan_window _ _ _ h, half_fields a h1]
  · rw [if_neg h1] at h
    by_cases h2 : a = 0x420B
    · rw [if_pos h2] at h; cases h; exact h2.symm
    · rw [if_neg h2] at h
      by_cases h3 : a = 0x420C
      · rw [if_pos h3] at h; cases h; exact h3.symm
      · rw [if_neg h3] at h; cases h

end Sys2Proof
end

