-- ==== Sys2Proof/Laws/PerInstr.lean ====
section
/-! SUPPORT. A statement about every instruction, proved constructor by constructor: its encoded form carries the fixed bits of its row
of spec/opcode_table.json. -/

namespace Sys2Proof.Laws.EncodeRow

/-- The encoded form of `i` has its row's format, and its bits under the row's mask are the row's match. -/
def Statement (i : Instr) : Prop := (tableRow i).fits (encode i) = true

theorem regRead (a : Half) : Statement (.regRead a) := fits_command a 0 0 0 0xFF _ rfl rfl (by simp [tableRow]; rfl)

theorem regWrite (a : Half) (d : Byte) : Statement (.regWrite a d) := fits_command a d 1 0 0 _ rfl rfl (by simp [tableRow]; rfl)

theorem initHdma : Statement .initHdma := by unfold Statement; decide

theorem doHdma (m : Byte) : Statement (.doHdma m) := fits_command 0 m 3 0xFFFF 0 _ rfl rfl (by simp [tableRow]; rfl)

theorem doDma (m : Byte) : Statement (.doDma m) := fits_command 0 m 4 0xFFFF 0 _ rfl rfl (by simp [tableRow]; rfl)

theorem regDmap (c : Chan) (acc : Access) : Statement (.regDmap c acc) := by
  have : ∀ c : Chan, Statement (.regDmap c .read) := by unfold Statement; decide
  exact this c

theorem regBbad (c : Chan) (acc : Access) : Statement (.regBbad c acc) := by
  have : ∀ c : Chan, Statement (.regBbad c .read) := by unfold Statement; decide
  exact this c

theorem regA1tLo (c : Chan) (acc : Access) : Statement (.regA1tLo c acc) := by
  have : ∀ c : Chan, Statement (.regA1tLo c .read) := by unfold Statement; decide
  exact this c

theorem regA1tHi (c : Chan) (acc : Access) : Statement (.regA1tHi c acc) := by
  have : ∀ c : Chan, Statement (.regA1tHi c .read) := by unfold Statement; decide
  exact this c

theorem regA1b (c : Chan) (acc : Access) : Statement (.regA1b c acc) := by
  have : ∀ c : Chan, Statement (.regA1b c .read) := by unfold Statement; decide
  exact this c

theorem regDasLo (c : Chan) (acc : Access) : Statement (.regDasLo c acc) := by
  have : ∀ c : Chan, Statement (.regDasLo c .read) := by unfold Statement; decide
  exact this c

theorem regDasHi (c : Chan) (acc : Access) : Statement (.regDasHi c acc) := by
  have : ∀ c : Chan, Statement (.regDasHi c .read) := by unfold Statement; decide
  exact this c

theorem regDasb (c : Chan) (acc : Access) : Statement (.regDasb c acc) := by
  have : ∀ c : Chan, Statement (.regDasb c .read) := by unfold Statement; decide
  exact this c

theorem regA2aLo (c : Chan) (acc : Access) : Statement (.regA2aLo c acc) := by
  have : ∀ c : Chan, Statement (.regA2aLo c .read) := by unfold Statement; decide
  exact this c

theorem regA2aHi (c : Chan) (acc : Access) : Statement (.regA2aHi c acc) := by
  have : ∀ c : Chan, Statement (.regA2aHi c .read) := by unfold Statement; decide
  exact this c

theorem regNtrl (c : Chan) (acc : Access) : Statement (.regNtrl c acc) := by
  have : ∀ c : Chan, Statement (.regNtrl c .read) := by unfold Statement; decide
  exact this c

theorem regUnusedB (c : Chan) (acc : Access) : Statement (.regUnusedB c acc) := by
  have : ∀ c : Chan, Statement (.regUnusedB c .read) := by unfold Statement; decide
  exact this c

theorem regUnusedF (c : Chan) (acc : Access) : Statement (.regUnusedF c acc) := by
  have : ∀ c : Chan, Statement (.regUnusedF c .read) := by unfold Statement; decide
  exact this c

theorem regMdmaen (acc : Access) : Statement (.regMdmaen acc) := by
  have : Statement (.regMdmaen .read) := by unfold Statement; decide
  exact this

theorem regHdmaen (acc : Access) : Statement (.regHdmaen acc) := by
  have : Statement (.regHdmaen .read) := by unfold Statement; decide
  exact this

theorem mode0 (n : Chan) (d i p : Bool) (st : BitVec 2) : Statement (.mode0 n d i p st) := by
  have : ∀ (d i p : Bool) (st : BitVec 2), Statement (.mode0 0 d i p st) := by unfold Statement; decide
  exact this d i p st

theorem mode1 (n : Chan) (d i p : Bool) (st : BitVec 2) : Statement (.mode1 n d i p st) := by
  have : ∀ (d i p : Bool) (st : BitVec 2), Statement (.mode1 0 d i p st) := by unfold Statement; decide
  exact this d i p st

theorem mode2 (n : Chan) (d i p : Bool) (st : BitVec 2) : Statement (.mode2 n d i p st) := by
  have : ∀ (d i p : Bool) (st : BitVec 2), Statement (.mode2 0 d i p st) := by unfold Statement; decide
  exact this d i p st

theorem mode3 (n : Chan) (d i p : Bool) (st : BitVec 2) : Statement (.mode3 n d i p st) := by
  have : ∀ (d i p : Bool) (st : BitVec 2), Statement (.mode3 0 d i p st) := by unfold Statement; decide
  exact this d i p st

theorem mode4 (n : Chan) (d i p : Bool) (st : BitVec 2) : Statement (.mode4 n d i p st) := by
  have : ∀ (d i p : Bool) (st : BitVec 2), Statement (.mode4 0 d i p st) := by unfold Statement; decide
  exact this d i p st

theorem mode5 (n : Chan) (d i p : Bool) (st : BitVec 2) : Statement (.mode5 n d i p st) := by
  have : ∀ (d i p : Bool) (st : BitVec 2), Statement (.mode5 0 d i p st) := by unfold Statement; decide
  exact this d i p st

theorem mode6 (n : Chan) (d i p : Bool) (st : BitVec 2) : Statement (.mode6 n d i p st) := by
  have : ∀ (d i p : Bool) (st : BitVec 2), Statement (.mode6 0 d i p st) := by unfold Statement; decide
  exact this d i p st

theorem mode7 (n : Chan) (d i p : Bool) (st : BitVec 2) : Statement (.mode7 n d i p st) := by
  have : ∀ (d i p : Bool) (st : BitVec 2), Statement (.mode7 0 d i p st) := by unfold Statement; decide
  exact this d i p st

theorem stepInc (n : Chan) (d i p : Bool) (m : BitVec 3) : Statement (.stepInc n d i p m) := by
  have : ∀ (d i p : Bool) (m : BitVec 3), Statement (.stepInc 0 d i p m) := by unfold Statement; decide
  exact this d i p m

theorem stepFixed (n : Chan) (d i p : Bool) (m : BitVec 3) : Statement (.stepFixed n d i p m) := by
  have : ∀ (d i p : Bool) (m : BitVec 3), Statement (.stepFixed 0 d i p m) := by unfold Statement; decide
  exact this d i p m

theorem stepDec (n : Chan) (d i p : Bool) (m : BitVec 3) : Statement (.stepDec n d i p m) := by
  have : ∀ (d i p : Bool) (m : BitVec 3), Statement (.stepDec 0 d i p m) := by unfold Statement; decide
  exact this d i p m

theorem stepFixedAlt (n : Chan) (d i p : Bool) (m : BitVec 3) : Statement (.stepFixedAlt n d i p m) := by
  have : ∀ (d i p : Bool) (m : BitVec 3), Statement (.stepFixedAlt 0 d i p m) := by unfold Statement; decide
  exact this d i p m

theorem dirAtoB (n : Chan) (k : Half) (i p : Bool) (st : BitVec 2) (m : BitVec 3) : Statement (.dirAtoB n k i p st m) := by
  have : ∀ (i p : Bool) (st : BitVec 2) (m : BitVec 3), Statement (.dirAtoB 0 0 i p st m) := by unfold Statement; decide
  exact this i p st m

theorem dirBtoA (n : Chan) (k : Half) (i p : Bool) (st : BitVec 2) (m : BitVec 3) : Statement (.dirBtoA n k i p st m) := by
  have : ∀ (i p : Bool) (st : BitVec 2) (m : BitVec 3), Statement (.dirBtoA 0 0 i p st m) := by unfold Statement; decide
  exact this i p st m

theorem hdmaDirect (n : Chan) (k : Half) (d p : Bool) (st : BitVec 2) (m : BitVec 3) : Statement (.hdmaDirect n k d p st m) := by
  have : ∀ (d p : Bool) (st : BitVec 2) (m : BitVec 3), Statement (.hdmaDirect 0 0 d p st m) := by unfold Statement; decide
  exact this d p st m

theorem hdmaIndirect (n : Chan) (k : Half) (d p : Bool) (st : BitVec 2) (m : BitVec 3) : Statement (.hdmaIndirect n k d p st m) := by
  have : ∀ (d p : Bool) (st : BitVec 2) (m : BitVec 3), Statement (.hdmaIndirect 0 0 d p st m) := by unfold Statement; decide
  exact this d p st m

theorem hdmaEnd (n : Chan) : Statement (.hdmaEnd n) := by
  have : Statement (.hdmaEnd 0) := by unfold Statement; decide
  exact this

theorem hdmaEntry (n : Chan) (c : BitVec 7) : Statement (.hdmaEntry n c) := by
  have : ∀ (c : BitVec 7), Statement (.hdmaEntry 0 c) := by unfold Statement; decide
  exact this c

theorem hdmaEntryRepeat (n : Chan) (c : BitVec 7) : Statement (.hdmaEntryRepeat n c) := by
  have : ∀ (c : BitVec 7), Statement (.hdmaEntryRepeat 0 c) := by unfold Statement; decide
  exact this c

end Sys2Proof.Laws.EncodeRow
end

