-- ==== Sys2Proof/Tests/Slice0.lean ====
section
/-! SUPPORT. The model's own tests: ill-formed terms refused, words of the spec's encodings decoded, one step on small states against
the vectors of spec/95_test_vectors.md and the worked examples of the rules, and, for every statement with hypotheses, a state and
operands that meet them. Every expected value is the spec's. -/

namespace Sys2Proof.Tests

open Sys2Proof.Machine

/-! ## Small states -/

/-- A channel of zeros. -/
def zeroCh : Channel :=
  { dmap := 0, bbad := 0, a1t := 0, a1b := 0, das := 0, dasb := 0, a2a := 0, ntrl := 0, unused := 0, active := false }

/-- HDMAEN, some channels, some A-bus and B-bus bytes, and waiting requests, over the reset state. Both buses answer as memory, and the
next 64 accesses have no side effects. -/
def lab (hdmaen : Byte) (chs : List (Chan × Channel)) (a : List (Addr × Byte)) (b : List (Byte × Byte)) (q : List Request) : State :=
  let s := chs.foldl (fun s p => s.modCh p.1 fun _ => p.2) (State.reset.setHdmaen hdmaen)
  (s.setBus
    { s.bus with
      aMem := a.foldl (fun m p => m.write p.1.toNat p.2) []
      bMem := b.foldl (fun m p => m.write p.1.toNat p.2) []
      aMap := [⟨0, 2 ^ 24, .memory⟩]
      bMap := [⟨0, 256, .memory⟩]
      turns := List.replicate 64 ⟨0, []⟩ }).setPending q

/-- The state with these turns of the Bus to come. -/
def withTurns (ts : List BusTurn) (s : State) : State := s.setBus { s.bus with turns := ts }

/-- The state with nothing said of what the A-bus reaches. -/
def unmappedA (s : State) : State := s.setBus { s.bus with aMap := [] }

/-- The state an outcome answers, or the one given. -/
def after (s : State) : Outcome → State
  | .next t => t
  | _ => s

/-- The state after one instruction. -/
def run1 (i : Instr) (s : State) : State := after s (exec i s)

/-- The B-bus addresses a trace writes, in order. -/
def writesB (es : List BusEvent) : List Byte :=
  es.filterMap fun e => match e with
    | .bWrite x _ => some x
    | _ => none

/-- The A-bus addresses a trace reads, in order. -/
def readsA (es : List BusEvent) : List Addr :=
  es.filterMap fun e => match e with
    | .aRead a _ => some a
    | _ => none

/-- Channel n of a small state with these registers. -/
def one (n : Chan) (c : Channel) : State := lab (BitVec.twoPow 8 n.val) [(n, c)] [] [] []

/-! ## WellFormed -/

/-- The one check of WellFormed: an entry of 0 lines with repeat 0 is the terminator's byte (R105). -/
theorem test_wf_refuses_entry_of_no_lines : (Instr.hdmaEntry 3 0).wf = false := by decide

/-- The ends of the range are well formed, and so is 0x80, repeat with count 0 (R105). -/
theorem test_wf_admits_other_entries :
    (Instr.hdmaEntry 3 1).wf = true ∧ (Instr.hdmaEntry 3 127).wf = true ∧ (Instr.hdmaEntryRepeat 3 0).wf = true := by decide

/-! ## Decoding -/

/-- spec/95_test_vectors.md 2.1: the words that decode. -/
theorem test_decode_commands :
    decode (.command 0x0000000C) = .ok (.doDma 0x01) ∧ decode (.command 0x000007FC) = .ok (.doDma 0xFF) ∧
    decode (.command 0x00000004) = .ok (.doDma 0x00) ∧ decode (.command 0x00000013) = .ok (.doHdma 0x02) ∧
    decode (.command 0x000007FB) = .ok (.doHdma 0xFF) ∧ decode (.command 0x00000002) = .ok .initHdma ∧
    decode (.command 0x02180009) = .ok (.regWrite 0x4300 0x01) ∧ decode (.command 0x02181000) = .ok (.regRead 0x4302) ∧
    decode (.command 0x021067F9) = .ok (.regWrite 0x420C 0xFF) := by decide

/-- spec/95_test_vectors.md 2.1: the refused words. -/
theorem test_decode_refuses_illegal_words :
    decode (.command 0x5) = .error .illegalCommand ∧ decode (.command 0x6) = .error .illegalCommand ∧
    decode (.command 0x7) = .error .illegalCommand ∧ decode (.command 0x08000002) = .error .illegalCommand ∧
    decode (.command 0x0000000A) = .error .illegalCommand ∧ decode (.command 0x02180008) = .error .illegalCommand ∧
    decode (.command 0x0000080C) = .error .illegalCommand ∧ decode (.command 0x00000803) = .error .illegalCommand :=
  ⟨by decide, by decide, by decide, by decide, by decide, by decide, by decide, by decide⟩

/-- spec/95_test_vectors.md Part 3: words of P2 to P5, and of R1, R2. -/
theorem test_decode_program_words :
    decode (.command 0x02189A01) = .ok (.regWrite 0x4313 0x40) ∧ decode (.command 0x0219BBF9) = .ok (.regWrite 0x4337 0x7F) ∧
    decode (.command 0x02106041) = .ok (.regWrite 0x420C 0x08) ∧ decode (.command 0x00000043) = .ok (.doHdma 0x08) ∧
    decode (.command 0x02188489) = .ok (.regWrite 0x4310 0x91) ∧ decode (.command 0x02105819) = .ok (.regWrite 0x420B 0x03) ∧
    decode (.command 0x021929A1) = .ok (.regWrite 0x4325 0x34) ∧ decode (.command 0x021BF800) = .ok (.regRead 0x437F) := by decide

/-- spec/30_encoding.md R97, R98: one address of each of the 15 window rows. -/
theorem test_decode_window_addresses :
    decode (.window .read 0x4300) = .ok (.regDmap 0 .read) ∧ decode (.window .read 0x4311) = .ok (.regBbad 1 .read) ∧
    decode (.window .read 0x4322) = .ok (.regA1tLo 2 .read) ∧ decode (.window .read 0x4333) = .ok (.regA1tHi 3 .read) ∧
    decode (.window .read 0x4344) = .ok (.regA1b 4 .read) ∧ decode (.window .read 0x4355) = .ok (.regDasLo 5 .read) ∧
    decode (.window .read 0x4366) = .ok (.regDasHi 6 .read) ∧ decode (.window .read 0x4377) = .ok (.regDasb 7 .read) ∧
    decode (.window .read 0x4308) = .ok (.regA2aLo 0 .read) ∧ decode (.window .read 0x4319) = .ok (.regA2aHi 1 .read) ∧
    decode (.window (.write 9) 0x432A) = .ok (.regNtrl 2 (.write 9)) ∧
    decode (.window (.write 9) 0x433B) = .ok (.regUnusedB 3 (.write 9)) ∧
    decode (.window (.write 9) 0x437F) = .ok (.regUnusedF 7 (.write 9)) ∧
    decode (.window (.write 9) 0x420B) = .ok (.regMdmaen (.write 9)) ∧
    decode (.window (.write 9) 0x420C) = .ok (.regHdmaen (.write 9)) :=
  ⟨by decide, by decide, by decide, by decide, by decide, by decide, by decide, by decide, by decide, by decide, by decide, by decide, by decide, by decide, by decide⟩

/-- spec/30_encoding.md R99: addresses that are not decoded, at the ends of its ranges. -/
theorem test_decode_refuses_other_addresses :
    decode (.window .read 0x0000) = .error .undecodedRead ∧
    decode (.window .read 0x420A) = .error .undecodedRead ∧
    decode (.window .read 0x420D) = .error .undecodedRead ∧
    decode (.window .read 0x42FF) = .error .undecodedRead ∧
    decode (.window .read 0x4380) = .error .undecodedRead ∧
    decode (.window .read 0xFFFF) = .error .undecodedRead ∧
    decode (.window .read 0x430C) = .error .undecodedRead ∧
    decode (.window .read 0x434D) = .error .undecodedRead ∧
    decode (.window .read 0x437E) = .error .undecodedRead ∧
    decode (.window (.write 0) 0x4380) = .error .undecodedWrite :=
  ⟨by decide, by decide, by decide, by decide, by decide, by decide, by decide, by decide, by decide, by decide⟩

/-- spec/30_encoding.md R104: the low bits of a control byte choose the mode; 0xB8 to 0xBF are DIR 1, IND 0, U5 1, STEP 0b11. -/
theorem test_decode_modes :
    decode (.control .mode 2 0b10111000) = .ok (.mode0 2 true false true 0b11) ∧
    decode (.control .mode 2 0b10111001) = .ok (.mode1 2 true false true 0b11) ∧
    decode (.control .mode 2 0b10111010) = .ok (.mode2 2 true false true 0b11) ∧
    decode (.control .mode 2 0b10111011) = .ok (.mode3 2 true false true 0b11) ∧
    decode (.control .mode 2 0b10111100) = .ok (.mode4 2 true false true 0b11) ∧
    decode (.control .mode 2 0b10111101) = .ok (.mode5 2 true false true 0b11) ∧
    decode (.control .mode 2 0b10111110) = .ok (.mode6 2 true false true 0b11) ∧
    decode (.control .mode 2 0b10111111) = .ok (.mode7 2 true false true 0b11) :=
  ⟨by decide, by decide, by decide, by decide, by decide, by decide, by decide, by decide⟩

/-- spec/30_encoding.md R101: bits 4:3 choose the step; the rest is DIR 0, IND 1, U5 1, MODE 0b101. -/
theorem test_decode_steps :
    decode (.control .step 7 0b01100101) = .ok (.stepInc 7 false true true 0b101) ∧
    decode (.control .step 7 0b01101101) = .ok (.stepFixed 7 false true true 0b101) ∧
    decode (.control .step 7 0b01110101) = .ok (.stepDec 7 false true true 0b101) ∧
    decode (.control .step 7 0b01111101) = .ok (.stepFixedAlt 7 false true true 0b101) := by decide

/-- spec/30_encoding.md R102, R103: bit 7 chooses the route, bit 6 the addressing. -/
theorem test_decode_routes_and_addressings :
    decode (.control (.route 5) 1 0b01010011) = .ok (.dirAtoB 1 5 true false 0b10 0b011) ∧
    decode (.control (.route 5) 1 0b11010011) = .ok (.dirBtoA 1 5 true false 0b10 0b011) ∧
    decode (.control (.addressing 2) 6 0b10110001) = .ok (.hdmaDirect 6 2 true true 0b10 0b001) ∧
    decode (.control (.addressing 2) 6 0b11110001) = .ok (.hdmaIndirect 6 2 true true 0b10 0b001) := by decide

/-- spec/30_encoding.md R105: a terminator, an entry's ends, and 0x80, repeat with count 0. -/
theorem test_decode_table_bytes :
    decode (.table 4 0b00000000) = .ok (.hdmaEnd 4) ∧ decode (.table 4 0b00000001) = .ok (.hdmaEntry 4 1) ∧
    decode (.table 4 0b01111111) = .ok (.hdmaEntry 4 127) ∧ decode (.table 4 0b10000000) = .ok (.hdmaEntryRepeat 4 0) ∧
    decode (.table 4 0b10000101) = .ok (.hdmaEntryRepeat 4 5) := by decide

/-- A refused word is refused by the decoder for table words too, and one of the wrong width. -/
theorem test_table_word_refused :
    decodeTableWord 32 0x5 = none ∧ decodeTableWord 16 0x430C = none ∧ decodeTableWord 24 0 = none := by decide

/-- Each row's word with zero operands, where its byte is not another row's (log 10), is its instruction. -/
theorem test_table_words :
    decodeTableWord 32 0x1 = some (.regWrite 0 0) ∧ decodeTableWord 16 0x4305 = some (.regDasLo 0 (.write 0)) ∧
    decodeTableWord 8 0x03 = some (.mode3 0 false false false 0) ∧ decodeTableWord 8 0x10 = some (.stepDec 0 false false false 0) ∧
    decodeTableWord 8 0x80 = some (.dirBtoA 0 0 false false 0 0) ∧ decodeTableWord 8 0x40 = some (.hdmaIndirect 0 0 false false 0 0) ∧
    decodeTableWord 8 0x00 = some (.hdmaEnd 0) := by decide

/-- A placed word is what the next step runs, as the first instruction after reset: here WR 0x4301, 0x18 (P1). -/
theorem test_placed_word_runs :
    ((after State.reset (step (State.reset.withFetchWord 32 0x021808C1))).ch 0).bbad = 0x18 ∧
    stepSafe (State.reset.withFetchWord 8 0x85) = true ∧ stepSafe (State.reset.withFetchWord 32 0x00000007) = false := by decide

/-- spec/30_encoding.md R109, spec/95_test_vectors.md P4: SETCH 0, 0x00, 0x18, 0x7E0100, 0x0002, word by word. -/
theorem test_setch_expands :
    (expand (.setch 0 0x00 0x18 0x7E0100 0x0002)).map encode =
      ([0x02180001, 0x021808C1, 0x02181001, 0x02181809, 0x021823F1, 0x02182811, 0x02183001] : List Req).map .command := by decide

/-- spec/95_test_vectors.md P5: SETHD 1, 0x00, 0x21, 0x7E8000, 0x00 and MDMA 0x01. -/
theorem test_sethd_and_mdma_expand :
    (expand (.sethd 1 0x00 0x21 0x7E8000 0x00)).map encode =
      ([0x02188001, 0x02188909, 0x02189001, 0x02189C01, 0x0218A3F1, 0x0218B801] : List Req).map .command ∧
    (expand (.mdma 0x01)).map encode = ([0x02105809, 0x0000000C] : List Req).map .command := by decide

/-! ## The address generator -/

/-- spec/95_test_vectors.md T1, T2: the B-bus address wraps. -/
theorem test_bAddr_wraps :
    (List.range 6).map (bAddr 0xFE 4) = [0xFE, 0xFF, 0x00, 0x01, 0xFE, 0xFF] ∧ (List.range 2).map (bAddr 0xFF 1) = [0xFF, 0x00] := by
  decide

/-- spec/95_test_vectors.md S1: the offsets of byte indices 0 to 7, mode by mode. -/
theorem test_offsets_of_eight_bytes :
    ([0, 1, 2, 3, 4, 5, 6, 7] : List (BitVec 3)).map (fun m => (List.range 8).map (bAddr 0 m)) =
      [[0, 0, 0, 0, 0, 0, 0, 0], [0, 1, 0, 1, 0, 1, 0, 1], [0, 0, 0, 0, 0, 0, 0, 0], [0, 0, 1, 1, 0, 0, 1, 1],
       [0, 1, 2, 3, 0, 1, 2, 3], [0, 1, 0, 1, 0, 1, 0, 1], [0, 0, 0, 0, 0, 0, 0, 0], [0, 0, 1, 1, 0, 0, 1, 1]] := by decide

/-! ## REG_READ and REG_WRITE -/

/-- R1: after `DAS[2] = 1234`, `RD 0x4326` returns 12. -/
theorem test_regRead_high_byte : (run1 (.regRead 0x4326) (one 2 { zeroCh with das := 0x1234 })).response = .data 0x12 := by decide

/-- R6: `RD 0x420C` and `RD 0x430D` are refused. -/
theorem test_regRead_refused :
    exec (.regRead 0x420C) State.reset = .refused .undecodedRead ∧ exec (.regRead 0x430D) State.reset = .refused .undecodedRead := ⟨rfl, rfl⟩

/-- R3: `WR 0x4303, 0xAB` with `A1T[0] = 1234` leaves AB34. -/
theorem test_regWrite_one_byte : ((run1 (.regWrite 0x4303 0xAB) (one 0 { zeroCh with a1t := 0x1234 })).ch 0).a1t = 0xAB34 := by decide

/-- R6: `WR 0x430E, 0x00` and `WR 0x4200, 0x00` are refused. -/
theorem test_regWrite_refused :
    exec (.regWrite 0x430E 0x00) State.reset = .refused .undecodedWrite ∧
    exec (.regWrite 0x4200 0x00) State.reset = .refused .undecodedWrite := ⟨rfl, rfl⟩

/-! ## The window rows: each stores its own byte (R230), and R236 reads the shared one back -/

theorem test_regDmap : ((run1 (.regDmap 0 (.write 0x20)) State.reset).ch 0).dmap = 0x20 := by decide
theorem test_regBbad : ((run1 (.regBbad 1 (.write 0x39)) State.reset).ch 1).bbad = 0x39 := by decide
theorem test_regA1tLo : ((run1 (.regA1tLo 2 (.write 0xAB)) (one 2 { zeroCh with a1t := 0x1234 })).ch 2).a1t = 0x12AB := by decide
theorem test_regA1tHi : ((run1 (.regA1tHi 3 (.write 0xAB)) (one 3 { zeroCh with a1t := 0x1234 })).ch 3).a1t = 0xAB34 := by decide
theorem test_regA1b : ((run1 (.regA1b 4 (.write 0x7E)) State.reset).ch 4).a1b = 0x7E := by decide
theorem test_regDasLo : ((run1 (.regDasLo 5 (.write 0xAB)) (one 5 { zeroCh with das := 0x1234 })).ch 5).das = 0x12AB := by decide
theorem test_regDasHi : ((run1 (.regDasHi 6 (.write 0xAB)) (one 6 { zeroCh with das := 0x1234 })).ch 6).das = 0xAB34 := by decide
theorem test_regDasb : ((run1 (.regDasb 7 (.write 0x7F)) State.reset).ch 7).dasb = 0x7F := by decide
theorem test_regA2aLo : ((run1 (.regA2aLo 0 (.write 0xAB)) (one 0 { zeroCh with a2a := 0x1234 })).ch 0).a2a = 0x12AB := by decide
theorem test_regA2aHi : ((run1 (.regA2aHi 1 (.write 0xAB)) (one 1 { zeroCh with a2a := 0x1234 })).ch 1).a2a = 0xAB34 := by decide
theorem test_regNtrl : ((run1 (.regNtrl 2 (.write 0x85)) State.reset).ch 2).ntrl = 0x85 := by decide
theorem test_regUnusedB :
    (run1 (.regUnusedF 7 .read) (run1 (.regUnusedB 7 (.write 0x5C)) State.reset)).response = .data 0x5C := by decide
theorem test_regUnusedF :
    (run1 (.regUnusedB 3 .read) (run1 (.regUnusedF 3 (.write 0x5C)) State.reset)).response = .data 0x5C := by decide

/-- R4: `WR 0x420B, 0x01` stores the mask, with no bus access and no channel changed. -/
theorem test_regMdmaen :
    run1 (.regMdmaen (.write 0x01)) (one 0 { zeroCh with das := 4 }) = (one 0 { zeroCh with das := 4 }).setMdmaen 0x01 := by decide

/-- R5: `WR 0x420C, 0xFF` leaves every `active[n]` 0. -/
theorem test_regHdmaen :
    (run1 (.regHdmaen (.write 0xFF)) State.reset).engine.hdmaen = 0xFF ∧
    ∀ n, ((run1 (.regHdmaen (.write 0xFF)) State.reset).ch n).active = false := by decide

/-! ## MODE0 to MODE7: the examples of R141 to R148, one unit -/

theorem test_mode0 : writesB (run1 (.mode0 0 false false false 0) (one 0 { zeroCh with bbad := 0x18 })).bus.trace = [0x18] := by decide
theorem test_mode1 : writesB (run1 (.mode1 0 false false false 0) (one 0 { zeroCh with bbad := 0x18 })).bus.trace = [0x18, 0x19] := by decide
theorem test_mode2 : writesB (run1 (.mode2 0 false false false 0) (one 0 { zeroCh with bbad := 0x22 })).bus.trace = [0x22, 0x22] := by decide
theorem test_mode3 :
    writesB (run1 (.mode3 0 false false false 0) (one 0 { zeroCh with bbad := 0x0D })).bus.trace = [0x0D, 0x0D, 0x0E, 0x0E] := by decide
/-- The corner case of R145: the base near the top of the B-bus. -/
theorem test_mode4 :
    writesB (run1 (.mode4 0 false false false 0) (one 0 { zeroCh with bbad := 0xFE })).bus.trace = [0xFE, 0xFF, 0x00, 0x01] := by decide
theorem test_mode5 :
    writesB (run1 (.mode5 0 false false false 0) (one 0 { zeroCh with bbad := 0x18 })).bus.trace = [0x18, 0x19, 0x18, 0x19] := by decide
theorem test_mode6 : writesB (run1 (.mode6 0 false false false 0) (one 0 { zeroCh with bbad := 0x22 })).bus.trace = [0x22, 0x22] := by decide
theorem test_mode7 :
    writesB (run1 (.mode7 0 false false false 0) (one 0 { zeroCh with bbad := 0x0D })).bus.trace = [0x0D, 0x0D, 0x0E, 0x0E] := by decide

/-! ## STEP.*: spec/95_test_vectors.md T5 to T7 -/

theorem test_stepInc :
    (run1 (.stepInc 1 false false false 0) (one 1 { zeroCh with a1t := 0xFFFF, a1b := 0x7E })).ch 1 = { zeroCh with a1t := 0, a1b := 0x7E } := by
  decide
theorem test_stepFixed : ((run1 (.stepFixed 1 false false false 0) (one 1 { zeroCh with a1t := 0x1234 })).ch 1).a1t = 0x1234 := by decide
theorem test_stepDec :
    (run1 (.stepDec 1 false false false 0) (one 1 { zeroCh with a1b := 0x7E })).ch 1 = { zeroCh with a1t := 0xFFFF, a1b := 0x7E } := by decide
theorem test_stepFixedAlt : ((run1 (.stepFixedAlt 1 false false false 0) (one 1 { zeroCh with a1t := 0x1234 })).ch 1).a1t = 0x1234 := by
  decide

/-! ## DIR.*: one byte (R139) -/

/-- The second byte of P1: byte index 1 in mode 1 goes to BBAD + 1. -/
theorem test_dirAtoB :
    (run1 (.dirAtoB 0 1 false false 0 1)
      (lab 0 [(0, { zeroCh with bbad := 0x18, a1b := 0x7E, a1t := 0x1001 })] [(0x7E1001, 0x22)] [] [])).bus.trace =
      [.aRead 0x7E1001 0x22, .bWrite 0x19 0x22] := by decide

/-- D6: B to A. -/
theorem test_dirBtoA :
    (run1 (.dirBtoA 5 0 false false 0b01 3)
      (lab 0 [(5, { zeroCh with bbad := 0x40, a1b := 0x7E, a1t := 0x2000 })] [] [(0x40, 0x77)] [])).bus.trace =
      [.bRead 0x40 0x77, .aWrite 0x7E2000 0x77] := by decide

/-! ## HDMA.DIRECT and HDMA.INDIRECT: one byte (R197) -/

/-- H6 with DIR 1: read at the table pointer, written to the B-bus all the same. -/
theorem test_hdmaDirect :
    let t := run1 (.hdmaDirect 0 0 true false 0 0) (lab 1 [(0, { zeroCh with bbad := 0x10, a1b := 0x7E, a2a := 1 })] [(0x7E0001, 0x44)] [] [])
    t.bus.trace = [.aRead 0x7E0001 0x44, .bWrite 0x10 0x44] ∧ (t.ch 0).a2a = 2 := by decide

/-- H5's first byte: the indirect address wraps in its bank. -/
theorem test_hdmaIndirect :
    let t := run1 (.hdmaIndirect 0 0 false false 0 1) (lab 1 [(0, { zeroCh with bbad := 0x10, dasb := 0x7F, das := 0xFFFF })] [(0x7FFFFF, 0x9A)] [] [])
    t.bus.trace = [.aRead 0x7FFFFF 0x9A, .bWrite 0x10 0x9A] ∧ (t.ch 0).das = 0 ∧ (t.ch 0).dasb = 0x7F := by decide

/-! ## The table bytes -/

/-- S4, case 0x00: the channel is inactive, NTRL and DAS as before. -/
theorem test_hdmaEnd :
    (run1 (.hdmaEnd 0) (one 0 { zeroCh with ntrl := 0x33, das := 5, active := true })).ch 0 = { zeroCh with ntrl := 0x33, das := 5 } := by
  decide

/-- P2: the entry 0x02 in direct mode. -/
theorem test_hdmaEntry : (run1 (.hdmaEntry 1 2) (one 1 zeroCh)).ch 1 = { zeroCh with ntrl := 0x02, active := true } := by decide

/-- I2's entry byte 0x85 in indirect mode: two more table bytes, low byte first. -/
theorem test_hdmaEntryRepeat :
    let t := run1 (.hdmaEntryRepeat 2 5)
      (lab 4 [(2, { zeroCh with dmap := 0x40, a1b := 0x7E, a2a := 0x2001 })] [(0x7E2001, 0x00), (0x7E2002, 0x30)] [] [])
    t.ch 2 = { zeroCh with dmap := 0x40, a1b := 0x7E, a2a := 0x2003, ntrl := 0x85, das := 0x3000, active := true } := by decide

/-! ## INIT_HDMA -/

/-- I3: an indirect entry across the bank edge. -/
theorem test_initHdma_indirect :
    let t := run1 .initHdma
      (lab 1 [(0, { zeroCh with dmap := 0x40, a1b := 0x7E, a1t := 0xFFFF })] [(0x7EFFFF, 0x01), (0x7E0000, 0x34), (0x7E0001, 0x12)] [] [])
    t.bus.trace = [.aRead 0x7EFFFF 0x01, .aRead 0x7E0000 0x34, .aRead 0x7E0001 0x12] ∧
    t.ch 0 = { zeroCh with dmap := 0x40, a1b := 0x7E, a1t := 0xFFFF, a2a := 0x0002, das := 0x1234, ntrl := 0x01, active := true } := by
  decide

/-- I5: with HDMAEN 0 every channel becomes inactive, nothing is read and A2A is not written. -/
theorem test_initHdma_disabled :
    let t := run1 .initHdma (lab 0 [(0, { zeroCh with a1t := 0x6000, a2a := 9, active := true })] [] [] [])
    t.bus.trace = [] ∧ t.ch 0 = { zeroCh with a1t := 0x6000, a2a := 9 } := by decide

/-! ## DO_HDMA -/

/-- H2, the first line: the entry 0x80 lasts one line, the underflow reloads in the same command. -/
theorem test_doHdma_underflow :
    let t := run1 (.doHdma 0x01)
      (lab 1 [(0, { zeroCh with bbad := 0x0F, a1b := 0x7E, a2a := 0x6001, ntrl := 0x80, active := true })]
        [(0x7E6001, 0xAA), (0x7E6002, 0x02)] [] [])
    t.bus.trace = [.aRead 0x7E6001 0xAA, .bWrite 0x0F 0xAA, .aRead 0x7E6002 0x02] ∧
    (t.ch 0).a2a = 0x6003 ∧ (t.ch 0).ntrl = 0x02 ∧ (t.ch 0).active = true := by decide

/-- H5: indirect data across the bank edge, and the response (1, 2). -/
theorem test_doHdma_indirect :
    let t := run1 (.doHdma 0x01)
      (lab 1 [(0, { zeroCh with dmap := 0x41, bbad := 0x10, dasb := 0x7F, das := 0xFFFF, ntrl := 0x05, active := true })]
        [(0x7FFFFF, 0x9A), (0x7F0000, 0x9B)] [] [])
    t.bus.trace = [.aRead 0x7FFFFF 0x9A, .bWrite 0x10 0x9A, .aRead 0x7F0000 0x9B, .bWrite 0x11 0x9B] ∧
    (t.ch 0).das = 0x0001 ∧ (t.ch 0).ntrl = 0x04 ∧
    t.response = .cycles (BitVec.ofNat 32 (1 * Config.hdmaChannelCycles + 2 * Config.hdmaByteCycles)) :=
  ⟨by decide, by decide, by decide, rfl⟩

/-! ## DO_DMA -/

/-- P4's channel 1: B to A, decrementing across the bank edge, in mode 1; MDMAEN cleared. -/
theorem test_doDma_decrement :
    let t := run1 (.doDma 0x02)
      ((lab 0 [(1, { zeroCh with dmap := 0x91, bbad := 0x39, a1b := 0x7F, a1t := 1, das := 3 })] [] [(0x39, 0xC1), (0x3A, 0xC2)] []).setMdmaen 0x02)
    t.bus.trace =
      [.bRead 0x39 0xC1, .aWrite 0x7F0001 0xC1, .bRead 0x3A 0xC2, .aWrite 0x7F0000 0xC2, .bRead 0x39 0xC1, .aWrite 0x7FFFFF 0xC1] ∧
    (t.ch 1).a1t = 0xFFFE ∧ (t.ch 1).a1b = 0x7F ∧ (t.ch 1).das = 0 ∧ t.engine.mdmaen = 0 := by decide

/-- S3: channel 0's bytes before channel 1's, and the response (2, 4). -/
theorem test_doDma_priority :
    let t := run1 (.doDma 0x03)
      (lab 0 [(0, { zeroCh with bbad := 0x18, a1b := 0x7E, das := 2 }), (1, { zeroCh with bbad := 0x18, a1b := 0x7E, a1t := 0x1000, das := 2 })]
        [(0x7E0000, 1), (0x7E0001, 2), (0x7E1000, 3), (0x7E1001, 4)] [] [])
    t.bus.trace =
      [.aRead 0x7E0000 1, .bWrite 0x18 1, .aRead 0x7E0001 2, .bWrite 0x18 2, .aRead 0x7E1000 3, .bWrite 0x18 3, .aRead 0x7E1001 4, .bWrite 0x18 4] ∧
    ∃ r, t.response = .cycles (BitVec.ofNat 32 r) ∧ r = 2 * Config.dmaChannelCycles + 4 * Config.dmaByteCycles :=
  ⟨by decide, 0 + Config.dmaChannelCycles + Config.dmaByteCycles + Config.dmaByteCycles + Config.dmaChannelCycles + Config.dmaByteCycles +
    Config.dmaByteCycles, rfl, by omega⟩

/-! ## The Bus as an oracle: spec/20_memory.md R69, R70 -/

/-- A read of an address no memory is known at answers the oracle's byte, whatever was stored there before; the engine moves it (R69). -/
theorem test_unmapped_read_answers_any_byte :
    (run1 (.doDma 0x01)
      (withTurns [⟨0x77, []⟩, ⟨0, []⟩]
        (unmappedA (lab 0 [(0, { zeroCh with bbad := 0x18, a1b := 0x7E, das := 1 })] [(0x7E0000, 0x11)] [] [])))).bus.trace =
      [.aRead 0x7E0000 0x77, .bWrite 0x18 0x77] := by decide

/-- The first byte's B-bus write changes, on the side, the memory its own command reads next (R70). -/
theorem test_side_effect_reaches_a_later_read :
    (run1 (.doDma 0x01)
      (withTurns [⟨0, []⟩, ⟨0, [.aByte 0x7E0001 0x99]⟩, ⟨0, []⟩, ⟨0, []⟩]
        (lab 0 [(0, { zeroCh with bbad := 0x80, a1b := 0x7E, das := 2 })] [(0x7E0000, 1), (0x7E0001, 2)] [] []))).bus.trace =
      [.aRead 0x7E0000 1, .bWrite 0x80 1, .aRead 0x7E0001 0x99, .bWrite 0x80 0x99] := by decide

/-- A write may change what an address reaches: after it, the same address answers the oracle's byte (R69, R70). -/
theorem test_side_effect_remaps_an_address :
    (run1 (.doDma 0x01)
      (withTurns [⟨0, []⟩, ⟨0, [.aRegion ⟨0x7E0000, 1, .device⟩]⟩, ⟨0x55, []⟩, ⟨0, []⟩]
        (lab 0 [(0, { zeroCh with dmap := 0x08, bbad := 0x80, a1b := 0x7E, das := 2 })] [(0x7E0000, 1)] [] []))).bus.trace =
      [.aRead 0x7E0000 1, .bWrite 0x80 1, .aRead 0x7E0000 0x55, .bWrite 0x80 0x55] := by decide

/-! ## Reset: spec/95_test_vectors.md Z1 to Z3 -/

theorem test_reset_doHdma : (run1 (.doHdma 0xFF) State.reset).bus.trace = [] := by decide
theorem test_reset_initHdma : run1 .initHdma State.reset = State.reset := by decide
theorem test_reset_doDma : (run1 (.doDma 0x00) State.reset) = State.reset.respond (.cycles 0) := by decide

/-! ## Witnesses: for every statement with hypotheses, a state and operands that meet them -/

/-- An instruction answers a next state there. -/
def goesOn (i : Instr) (s : State) : Bool :=
  match exec i s with
  | .next _ => true
  | _ => false

/-- A step answers a next state there, with requests `q` waiting. -/
def withQueue (q : List Request) : State := lab 0x01 [(0, { zeroCh with ntrl := 0x01, das := 1, active := true })] [(0x000000, 0x11)] [(0, 0x22)] q

theorem test_witness_DecodeUndoesEncode : (Instr.hdmaEntry 7 1).wf = true ∧ (Instr.dirBtoA 7 0xFFFF true true 3 7).wf = true := by decide

theorem test_witness_EncodeUndoesDecode : decode (.command 0x021BFFF9) = .ok (.regWrite 0x437F 0xFF) := by decide

/-- Each clause of R94 at a boundary of its field. -/
theorem test_witness_IllegalWordsAreRefused :
    (withQueue [.command 0x08000002]).pending = .command 0x08000002 :: [] ∧
    (0x08000002 : Req).extractLsb' 27 5 ≠ 0 ∧
    5 ≤ ((0x00000005 : Req).extractLsb' 0 3).toNat ∧ 5 ≤ ((0x00000007 : Req).extractLsb' 0 3).toNat ∧
    ((0x00000008 : Req).extractLsb' 0 3 = 0 ∧ (0x00000008 : Req).extractLsb' 3 8 ≠ 0) ∧
    ((0x00000802 : Req).extractLsb' 0 3 = 2 ∧ (0x00000802 : Req).extractLsb' 11 16 ≠ 0) ∧
    ((0x0000000A : Req).extractLsb' 0 3 = 2 ∧ (0x0000000A : Req).extractLsb' 3 8 ≠ 0) ∧
    ((0x04000003 : Req).extractLsb' 0 3 = 3 ∧ (0x04000003 : Req).extractLsb' 11 16 ≠ 0) ∧
    ((0x0000080C : Req).extractLsb' 0 3 = 4 ∧ (0x0000080C : Req).extractLsb' 11 16 ≠ 0) := by decide

/-- A request of each of the three kinds, and its form. -/
theorem test_witness_StepExecutesTheDecodedInstruction :
    (withQueue [.command 0x0C, .control .mode 0]).pending = .command 0x0C :: [.control .mode 0] ∧
    decode (.command 0x0C) = .ok (.doDma 1) ∧
    (fetch (.command 0x0C) ((withQueue []).setPending [.control .mode 0])).1 = some (.command 0x0C) ∧
    (withQueue [.window .read 0x4300]).pending = .window .read 0x4300 :: [] ∧
    decode (.window .read 0x4300) = .ok (.regDmap 0 .read) ∧
    (withQueue [.control (.route 0) 0]).pending = .control (.route 0) 0 :: [] := by decide

theorem test_witness_StepExecutesTheTableByte : (withQueue [.table 0, .table 1]).pending = .table 0 :: [.table 1] := by decide

theorem test_witness_AdmittedInstructionsNeverFail :
    admitted (.regRead 0x437F) = true ∧ admitted (.regWrite 0x420C 0) = true ∧ admitted (.doDma 0xFF) = true ∧
    admitted (.regRead 0x420C) = false ∧ admitted (.regWrite 0x430C 0) = false ∧ admitted (.regMdmaen .read) = false := by decide

theorem test_witness_IdleEngineHoldsItsState : (withQueue []).pending = [] := by decide

/-- A change of each of the four kinds, at the ends of the two spaces; memory on both buses. -/
theorem test_witness_OutsideChangeReachesOnlyItsPart :
    (withQueue [.outside (.aByte 0xFFFFFF 9)]).pending = .outside (.aByte 0xFFFFFF 9) :: [] ∧
    (withQueue [.outside (.bByte 0xFF 9)]).pending = .outside (.bByte 0xFF 9) :: [] ∧
    (withQueue [.outside (.aRegion ⟨0, 1, .rom⟩)]).pending = .outside (.aRegion ⟨0, 1, .rom⟩) :: [] ∧
    (withQueue [.outside (.bRegion ⟨0, 1, .device⟩)]).pending = .outside (.bRegion ⟨0, 1, .device⟩) :: [] ∧
    (withQueue []).bus.kindA 0xFFFFFF ≠ .device ∧ (withQueue []).bus.kindB 0xFF ≠ .device := by decide

/-- A DO_DMA from a canonical Bus of two known bytes answers a next state. -/
theorem test_witness_StepKeepsTheBusCanonical :
    (withQueue [.command 0x0C]).bus.canonical = true ∧ stepSafe (withQueue [.command 0x0C]) = true := by decide

/-- The Bus of a small state has no side effect at its next two accesses, so that no byte is changed on the side by them. -/
theorem lab_spares (h : Byte) (chs : List (Chan × Channel)) (a : List (Addr × Byte)) (b : List (Byte × Byte)) (q : List Request)
    (e f : BusEvent) (y : Nat) : (lab h chs a b q).bus.sparesA [e, f] y ∧ (lab h chs a b q).bus.sparesB [e, f] y := by
  have h : (lab h chs a b q).bus.sideEffects [e, f] = [] := by cases e <;> cases f <;> rfl
  exact ⟨sparesA_of_quiet h _, sparesB_of_quiet h _⟩

/-- A DO_DMA that goes on, and a byte on each bus that its two accesses neither write nor change on the side. -/
theorem test_witness_EveryInstructionIsARunOfAccesses :
    goesOn (.doDma 0x01) (withQueue []) = true ∧
    (run1 (.doDma 0x01) (withQueue [])).bus.trace = [.aRead 0x000000 0x11, .bWrite 0x00 0x11] ∧
    (¬ ∃ x v, BusEvent.bWrite x v ∈ [BusEvent.aRead 0x000000 0x11, .bWrite 0x00 0x11] ∧ 5 = x.toNat) ∧
    (withQueue []).bus.sparesA [.aRead 0x000000 0x11, .bWrite 0x00 0x11] 5 ∧
    (withQueue []).bus.sparesB [.aRead 0x000000 0x11, .bWrite 0x00 0x11] 5 :=
  ⟨by decide, by decide, fun ⟨x, v, h, e⟩ => by simp at h; simp [h.1] at e, (lab_spares ..).1, (lab_spares ..).2⟩

theorem test_witness_CommandsReachOnlyTheirBuses :
    goesOn (.regRead 0x430F) (withQueue []) = true ∧ goesOn (.regWrite 0x420B 1) (withQueue []) = true ∧
    goesOn .initHdma (withQueue []) = true ∧ goesOn (.doHdma 0x01) (withQueue []) = true ∧ goesOn (.doDma 0x01) (withQueue []) = true ∧
    goesOn (.doDma 0x01) (one 0 { zeroCh with dmap := 0x80, das := 2 }) = true := by decide

/-- Undecoded addresses at the ends of the ranges of R99. -/
theorem test_witness_UndecodedAddressesAreRefused :
    (¬ (0x4300 ≤ (0x42FF : Half).toNat ∧ (0x42FF : Half).toNat ≤ 0x437F) ∧ (0x42FF : Half) ≠ 0x420B ∧ (0x42FF : Half) ≠ 0x420C) ∧
    (¬ (0x4300 ≤ (0x4380 : Half).toNat ∧ (0x4380 : Half).toNat ≤ 0x437F) ∧ (0x4380 : Half) ≠ 0x420B ∧ (0x4380 : Half) ≠ 0x420C) ∧
    (0x420A : Half) ≠ 0x420B ∧ (0x420D : Half) ≠ 0x420C := by decide

theorem test_witness_UndecodedAddressesAreRefused_inABlock :
    (0x430C : Half).toNat % 16 = 0xC ∧ (0x434D : Half).toNat % 16 = 0xD ∧ (0x437E : Half).toNat % 16 = 0xE := by decide

/-- A write of A1T's low byte of channel 0, and another byte's address; a write of the shared byte and an address not paired with it. -/
theorem test_witness_RegWriteChangesExactlyOneByte :
    goesOn (.regWrite 0x4302 5) State.reset = true ∧ goesOn (.regRead 0x4303) State.reset = true ∧ (0x4303 : Half) ≠ 0x4302 ∧
    (∀ n : Chan, (0x4302 : Half) ≠ BitVec.ofNat 16 (0x430B + 0x10 * n.val) ∧ (0x4302 : Half) ≠ BitVec.ofNat 16 (0x430F + 0x10 * n.val)) ∧
    goesOn (.regWrite 0x420B 5) State.reset = true ∧ goesOn (.regWrite 0x420C 5) State.reset = true :=
  ⟨by decide, by decide, by decide, by decide, by decide, by decide⟩

theorem test_witness_UnusedByteHasTwoAddresses :
    (0x437F : Half) ∈ [BitVec.ofNat 16 (0x430B + 0x10 * (7 : Chan).val), BitVec.ofNat 16 (0x430F + 0x10 * (7 : Chan).val)] := by decide

theorem test_witness_CommandsWriteOnlyTheirState :
    goesOn (.regRead 0x4300) (withQueue []) = true ∧ goesOn (.regWrite 0x4300 1) (withQueue []) = true ∧
    goesOn (.doDma 0x01) (withQueue []) = true := by decide

/-- A channel outside the mask, and one that is not processed. -/
theorem test_witness_CommandsWriteOnlyTheirState_unselected :
    maskBit 0x01 1 = false ∧ processed 0x01 (withQueue []) 1 = false ∧ processed 0x01 (withQueue []) 0 = true ∧
    goesOn (.doHdma 0x01) (withQueue []) = true ∧ goesOn .initHdma (withQueue []) = true := by decide

theorem test_witness_OnlyWindowWritesChangeTheSetUp :
    goesOn .initHdma (withQueue []) = true ∧ (∀ a d, Instr.initHdma ≠ .regWrite a d) ∧
    ∀ p d, Instr.initHdma ≠ portInstr (.write d) p :=
  ⟨by decide, fun _ _ => nofun, fun p d => match p with
    | .chan _ r => by cases r <;> exact nofun
    | .mdmaen => nofun
    | .hdmaen => nofun⟩

/-- Each of the five instructions that change an active flag does so somewhere, and the three that change MDMAEN. -/
theorem test_witness_OnlyTheseChangeFlagsAndMdmaen :
    ((run1 .initHdma (lab 0 [(0, { zeroCh with active := true })] [] [] [])).ch 0).active = false ∧
    ((run1 (.doHdma 1) (lab 1 [(0, { zeroCh with ntrl := 1, active := true })] [(0, 0), (1, 0)] [] [])).ch 0).active = false ∧
    ((run1 (.hdmaEnd 0) (one 0 { zeroCh with active := true })).ch 0).active = false ∧
    ((run1 (.hdmaEntry 0 1) (one 0 zeroCh)).ch 0).active = true ∧ ((run1 (.hdmaEntryRepeat 0 0) (one 0 zeroCh)).ch 0).active = true ∧
    (run1 (.regWrite 0x420B 1) State.reset).engine.mdmaen = 1 ∧ (run1 (.regMdmaen (.write 1)) State.reset).engine.mdmaen = 1 ∧
    (run1 (.doDma 0) (State.reset.setMdmaen 1)).engine.mdmaen = 0 := by decide

/-- Both aliased modes, with the three commands that read the control byte. -/
theorem test_witness_AliasedModesBehaveAlike :
    dmapMode ((one 3 { zeroCh with dmap := 0x02, das := 1 }).ch 3).dmap = 2 ∧
    dmapMode ((one 3 { zeroCh with dmap := 0xFB, das := 1 }).ch 3).dmap = 3 ∧
    goesOn (.doDma 0x08) (one 3 { zeroCh with dmap := 0x02, das := 1 }) = true ∧
    goesOn .initHdma (one 3 { zeroCh with dmap := 0x02, das := 1 }) = true ∧
    goesOn (.doHdma 0x08) (one 3 { zeroCh with dmap := 0x02, das := 1, active := true }) = true := by decide

/-- Two control bytes that differ in DIR, U5 and STEP only. -/
theorem test_witness_HdmaIgnoresStepAndDir :
    dmapInd 0xFA = dmapInd ((one 3 { zeroCh with dmap := 0x42 }).ch 3).dmap ∧
    dmapMode 0xFA = dmapMode ((one 3 { zeroCh with dmap := 0x42 }).ch 3).dmap ∧
    goesOn .initHdma (one 3 { zeroCh with dmap := 0x42 }) = true ∧
    goesOn (.doHdma 0x08) (one 3 { zeroCh with dmap := 0x42, active := true }) = true := by decide

/-- Memory on each bus after the read, at a write with no side effect; another address; no byte changed on the side. -/
theorem test_witness_RouteRowsMoveOneByte :
    ((withQueue []).bus.readA 0x000000).kindB 0x00 = .memory ∧ ((withQueue []).bus.readB 0x00).kindA 0x000000 = .memory ∧
    ((withQueue []).bus.readA 0x000000).sparesB [.bWrite 0x00 0x11] (0x00 : Byte).toNat ∧
    ((withQueue []).bus.readB 0x00).sparesA [.aWrite 0x000000 0x22] (0x000000 : Addr).toNat ∧
    ¬ (1 : Nat) = (0x00 : Byte).toNat ∧ ¬ (1 : Nat) = (0x000000 : Addr).toNat ∧
    (withQueue []).bus.sparesA [.aRead 0x000000 0x11, .bWrite 0x00 0x11] 1 ∧
    (withQueue []).bus.sparesB [.bRead 0x00 0x22, .aWrite 0x000000 0x22] 1 := by
  have h : ((withQueue []).bus.readA 0x000000).sideEffects [.bWrite 0x00 0x11] = [] := by decide
  have h' : ((withQueue []).bus.readB 0x00).sideEffects [.aWrite 0x000000 0x22] = [] := by decide
  exact ⟨by decide, by decide, sparesB_of_quiet h _, sparesA_of_quiet h' _, by decide, by decide,
    (lab_spares ..).1, (lab_spares ..).2⟩

theorem test_witness_AddressingRowsMoveOneByte :
    ¬ (1 : Nat) = (bAddr 0xFF 4 1).toNat ∧ (withQueue []).bus.sparesB [.aRead 0x000000 0x11, .bWrite (bAddr 0xFF 4 1) 0x11] 1 :=
  ⟨by decide, (lab_spares ..).2⟩

/-- A byte outside the unit of a mode-1 row at base 0xFF, on which no access has a side effect. -/
theorem test_witness_ModeRowsMoveOneUnit :
    (¬ ∃ o ∈ [0, 1], (1 : Nat) = ((0xFF : Byte) + BitVec.ofNat 8 o).toNat) ∧
    (withQueue []).bus.sparesB [.aRead 0x000000 0x11, .bWrite 0xFF 0x11] 1 :=
  ⟨by decide, (lab_spares ..).2⟩

/-- The ends of an entry's count in each addressing, and a byte that the two reads of an indirect entry do not change on the side. -/
theorem test_witness_TableRowsLoadTheirEntry :
    ((1 : BitVec 7) ≠ 0 ∧ (127 : BitVec 7) ≠ 0) ∧ dmapInd ((one 0 zeroCh).ch 0).dmap = false ∧
    dmapInd ((one 0 { zeroCh with dmap := 0x40 }).ch 0).dmap = true ∧
    (∀ lo hi, (one 0 { zeroCh with dmap := 0x40 }).bus.sparesA [.aRead 0x000000 lo, .aRead 0x000001 hi] 5) :=
  ⟨by decide, by decide, by decide, fun _ _ => (lab_spares ..).1⟩

theorem test_witness_LoadEntryReadsOneEntry : (withQueue [.table 7]).pending = .table 7 :: [] := by decide

theorem test_witness_DoDmaLeavesHdmaStateAlone : maskBit 0x80 7 = true ∧ maskBit 0x01 0 = true := by decide

theorem test_witness_ZeroCounterMovesAllBytes : ((one 6 { zeroCh with bbad := 0x18 }).ch 6).das = 0 := by decide

/-- Channel 0 of the mask moves one byte from A-bus 0x000000 to B-bus 0x00: other addresses are not stored to, and no access changes
them on the side. -/
theorem test_witness_DoDmaStoresOnlyWhereItMoves :
    (¬ ∃ n k, maskBit 0x01 n = true ∧ dmapDir ((withQueue []).ch n).dmap = true ∧ k < dmaCount ((withQueue []).ch n).das ∧
        5 = (mkAddr ((withQueue []).ch n).a1b (a1tAfter ((withQueue []).ch n) k)).toNat) ∧
    (¬ ∃ n k, maskBit 0x01 n = true ∧ dmapDir ((withQueue []).ch n).dmap = false ∧ k < dmaCount ((withQueue []).ch n).das ∧
        5 = (bAddr ((withQueue []).ch n).bbad (dmapMode ((withQueue []).ch n).dmap) k).toNat) ∧
    (withQueue []).bus.sparesA [.aRead 0x000000 0x11, .bWrite 0x00 0x11] 5 ∧
    (withQueue []).bus.sparesB [.aRead 0x000000 0x11, .bWrite 0x00 0x11] 5 := by
  have hm : ∀ n : Chan, maskBit 0x01 n = true → n = 0 := by decide
  have hd : dmapDir ((withQueue []).ch 0).dmap = false := by decide
  have hc : dmaCount ((withQueue []).ch 0).das = 1 := by decide
  have hb : 5 ≠ (bAddr ((withQueue []).ch 0).bbad (dmapMode ((withQueue []).ch 0).dmap) 0).toNat := by decide
  refine ⟨fun ⟨n, k, h, h', _⟩ => ?_, fun ⟨n, k, h, _, hk, he⟩ => ?_, (lab_spares ..).1, (lab_spares ..).2⟩
  · rw [hm n h, hd] at h'; cases h'
  · rw [hm n h, hc] at hk; rw [hm n h, Nat.lt_one_iff.mp hk] at he; exact hb he

theorem test_witness_OneByteDmaIsItsRows :
    ((withQueue []).ch 0).das = 1 ∧
    goesOn (decodeControl (.route 0) 0 ((withQueue []).ch 0).dmap) (withQueue []) = true ∧
    goesOn (decodeControl .step 0 ((withQueue []).ch 0).dmap)
      (run1 (decodeControl (.route 0) 0 ((withQueue []).ch 0).dmap) (withQueue [])) = true := by decide

/-- No channel processed: three ways. -/
theorem test_witness_UnprocessedChannelsAreUntouched :
    (∀ n, (State.reset.ch n).active = false) ∧
    (∀ n, ((withQueue []).ch n).active = false ∨ maskBit (withQueue []).engine.hdmaen n = false ∨ maskBit 0xFE n = false) := by decide

theorem test_witness_LineCounterGoesDownModulo128 : lineCount 0x80 = 0 ∧ lineCount 0x00 = 0 := by decide

/-- A processed channel due with repeat clear, due with repeat set, and not due. -/
theorem test_witness_ReloadExactlyWhenDue :
    processed 0x01 (withQueue []) 0 = true ∧ repeatFlag ((withQueue []).ch 0).ntrl = false ∧
    lineCount ((withQueue []).ch 0).ntrl - 1 = 0 ∧
    processed 0x01 (one 0 { zeroCh with ntrl := 0x80, active := true }) 0 = true ∧
    repeatFlag ((one 0 { zeroCh with ntrl := 0x80, active := true }).ch 0).ntrl = true ∧
    lineCount ((one 0 { zeroCh with ntrl := 0x80, active := true }).ch 0).ntrl = 0 ∧
    processed 0x01 (one 0 { zeroCh with ntrl := 0x02, active := true }) 0 = true ∧
    lineCount ((one 0 { zeroCh with ntrl := 0x02, active := true }).ch 0).ntrl - 1 ≠ 0 := by decide

/-- H1: the entry 0x81 lasts 2 lines: after 1 it goes on, after 2 it reloads. -/
theorem test_witness_EntryLastsItsLines :
    let s := (one 0 { zeroCh with ntrl := 0x81, active := true }).setPending (List.replicate 2 (.command (commandWord 0 0x01 0b011)) ++ [.table 0])
    processed 0x01 s 0 = true ∧ entryLines (s.ch 0).ntrl = 2 ∧
    s.pending = List.replicate 1 (.command (commandWord 0 0x01 0b011)) ++ [.command 0x0000000B, .table 0] := by decide

/-- A channel whose line is its last, and one whose is not; its MODE row runs, and so does its table request. -/
theorem test_witness_OneChannelLineIsItsRows :
    processed (BitVec.twoPow 8 (0 : Chan).val) (withQueue []) 0 = true ∧ reloadDue ((withQueue []).ch 0).ntrl = true ∧
    goesOn (decodeControl .mode 0 ((withQueue []).ch 0).dmap) (withQueue []) = true ∧
    stepSafe (withQueue [.table 0]) = true ∧
    processed (BitVec.twoPow 8 (0 : Chan).val) (one 0 { zeroCh with ntrl := 0x02, active := true }) 0 = true ∧
    reloadDue ((one 0 { zeroCh with ntrl := 0x02, active := true }).ch 0).ntrl = false := by decide

/-- Channel 0 in mode 0 stores its unit at B-bus 0x00: 5 is no address of it, and no access changes it on the side. -/
theorem test_witness_HdmaStoresOnlyItsUnits :
    (¬ ∃ n k, processed 0x01 (withQueue []) n = true ∧ k < unitLen (dmapMode ((withQueue []).ch n).dmap) ∧
      5 = (bAddr ((withQueue []).ch n).bbad (dmapMode ((withQueue []).ch n).dmap) k).toNat) ∧
    (withQueue []).bus.sparesA [.aRead 0x000000 0x11, .bWrite 0x00 0x11] 5 ∧
    (withQueue []).bus.sparesB [.aRead 0x000000 0x11, .bWrite 0x00 0x11] 5 := by
  have hp : ∀ n : Chan, processed 0x01 (withQueue []) n = true → n = 0 := by decide
  have hl : ∀ k < unitLen (dmapMode ((withQueue []).ch 0).dmap),
      5 ≠ (bAddr ((withQueue []).ch 0).bbad (dmapMode ((withQueue []).ch 0).dmap) k).toNat := by decide
  refine ⟨fun ⟨n, k, h, hk, he⟩ => ?_, (lab_spares ..).1, (lab_spares ..).2⟩
  rw [hp n h] at hk he
  exact hl k hk he

end Sys2Proof.Tests
end

section
/-! SUPPORT. What each command and each register access makes of the whole engine, said once: a command is its channels' turns in
order, a register access is a read or a write of its port. -/

namespace Sys2Proof.Machine

/-! ## All channels' turns -/

/-- `ChanStep` for the whole engine: from `s` to `t` the accesses `es` were made, every channel n became `C n`, and every other part of
the state is as it was. -/
structure ChansStep (s t : State) (C : Chan → Channel) (es : List BusEvent) : Prop where
  bus : s.bus.run es = some t.bus
  ch : ∀ n, t.ch n = C n
  mdmaen : t.engine.mdmaen = s.engine.mdmaen
  hdmaen : t.engine.hdmaen = s.engine.hdmaen
  response : t.response = s.response
  pending : t.pending = s.pending

/-- `fold_channels` for all eight channels. -/
theorem ChansStep.ofTurns {δ : Type} [Inhabited δ] (f : State → Chan → State) (D : Byte → Chan → Channel → δ → Channel)
    (E : Byte → Chan → Channel → δ → List BusEvent)
    (hf : ∀ s n, ∃ d, ChanStep n s (f s n) (D s.engine.hdmaen n (s.ch n) d) (E s.engine.hdmaen n (s.ch n) d)) (s : State) :
    ∃ d : Chan → δ, ChansStep s (allChans.foldl f s) (fun n => D s.engine.hdmaen n (s.ch n) (d n))
      (allChans.flatMap fun n => E s.engine.hdmaen n (s.ch n) (d n)) := by
  obtain ⟨d, hbus, hch, hmdmaen, hhdmaen, hresponse, hpending⟩ := fold_channels f D E hf allChans allChans_nodup s
  exact ⟨d, hbus, fun n => by rw [hch n, if_pos (mem_allChans n)], hmdmaen, hhdmaen, hresponse, hpending⟩

/-! ## DO_DMA -/

/-- The state DO_DMA's turn of channel n leaves, the cycle sum left out. -/
def dmaTurn (m : Byte) (s : State) (n : Chan) : State := (dmaChannel m (s, 0) n).1

/-- The cycle sum decides nothing in the loop. -/
theorem dmaLoop_state (n : Chan) (fuel k : Nat) (s : State) (cyc cyc' : Nat) :
    (dmaLoop n fuel k s cyc).1 = (dmaLoop n fuel k s cyc').1 := by
  induction fuel generalizing k s cyc cyc' with
  | zero => rfl
  | succ fuel ih =>
    simp only [dmaLoop]
    split
    · rfl
    · exact ih ..

theorem dmaChannel_state (m : Byte) (p : State × Nat) (n : Chan) : (dmaChannel m p n).1 = dmaTurn m p.1 n := by
  unfold dmaTurn dmaChannel
  split
  · exact dmaLoop_state ..
  · rfl

/-- A channel's turn of DO_DMA: its whole DMA when the mask selects it, else nothing. -/
theorem dmaTurn_spec (m : Byte) (s : State) (n : Chan) :
    ∃ vs : Nat → Byte, ChanStep n s (dmaTurn m s n) (if maskBit m n then dmaDone (s.ch n) else s.ch n)
      (if maskBit m n then dmaEvents (s.ch n) vs else []) := by
  unfold dmaTurn dmaChannel
  split
  · obtain ⟨vs, h, -⟩ := dmaChannel_spec n s (0 + Config.dmaChannelCycles)
    exact ⟨vs, h⟩
  · exact ⟨fun _ => 0, ChanStep.refl⟩

/-- All turns of DO_DMA. -/
theorem dmaTurns_spec (m : Byte) (s : State) :
    ∃ vs : Chan → Nat → Byte, ChansStep s (allChans.foldl (dmaTurn m) s)
      (fun n => if maskBit m n then dmaDone (s.ch n) else s.ch n)
      (allChans.flatMap fun n => if maskBit m n then dmaEvents (s.ch n) (vs n) else []) :=
  ChansStep.ofTurns (dmaTurn m) (fun _ n c _ => if maskBit m n then dmaDone c else c)
    (fun _ n c vs => if maskBit m n then dmaEvents c vs else []) (dmaTurn_spec m) s

/-- DO_DMA is its turns, then `MDMAEN <- 0` and the response. -/
theorem exec_doDma (m : Byte) (s : State) :
    exec (.doDma m) s = .next (((allChans.foldl (dmaTurn m) s).setMdmaen 0).respond
      (.cycles (BitVec.ofNat 32 (allChans.foldl (dmaChannel m) (s, 0)).2))) := by
  rw [List.foldl_hom (g₂ := dmaTurn m) (init := (s, 0)) Prod.fst fun p n => (dmaChannel_state m p n).symm]
  rfl

/-! ## INIT_HDMA -/

/-- All turns of INIT_HDMA; `d n` is the table bytes channel n's LoadEntry read. -/
theorem initTurns_spec (s : State) :
    ∃ d : Chan → Byte × Byte × Byte, ChansStep s (allChans.foldl initChannel s)
      (fun n => if maskBit s.engine.hdmaen n then entryDone { s.ch n with a2a := (s.ch n).a1t } (d n).1 (d n).2.1 (d n).2.2
        else { s.ch n with active := false })
      (allChans.flatMap fun n => if maskBit s.engine.hdmaen n then
        entryEvents { s.ch n with a2a := (s.ch n).a1t } (d n).1 (d n).2.1 (d n).2.2 else []) :=
  ChansStep.ofTurns (δ := Byte × Byte × Byte) initChannel
    (fun h n c d => if maskBit h n then entryDone { c with a2a := c.a1t } d.1 d.2.1 d.2.2 else { c with active := false })
    (fun h n c d => if maskBit h n then entryEvents { c with a2a := c.a1t } d.1 d.2.1 d.2.2 else [])
    (fun s n => by
      obtain ⟨b, lo, hi, h⟩ := initChannel_spec n s
      exact ⟨(b, lo, hi), h⟩) s

/-- INIT_HDMA is its turns. -/
theorem exec_initHdma (s : State) : exec .initHdma s = .next ((allChans.foldl initChannel s).respond .none) := rfl

/-! ## DO_HDMA -/

/-- The state DO_HDMA's turn of channel n leaves, the counts left out. -/
def lineTurn (m : Byte) (s : State) (n : Chan) : State := if processed m s n then hdmaLine n s else s

theorem hdmaChannel_state (m : Byte) (r : LineRun) (n : Chan) : (hdmaChannel m r n).st = lineTurn m r.st n := by
  unfold hdmaChannel lineTurn
  split <;> rfl

/-- A channel's turn of DO_HDMA: its line when it is processed, else nothing. -/
theorem lineTurn_spec (m : Byte) (s : State) (n : Chan) :
    ∃ vs b lo hi, ChanStep n s (lineTurn m s n) (if processed m s n then lineDone (s.ch n) b lo hi else s.ch n)
      (if processed m s n then lineEvents (s.ch n) vs b lo hi else []) := by
  unfold lineTurn
  split
  · exact hdmaLine_spec n s
  · exact ⟨fun _ => 0, 0, 0, 0, ChanStep.refl⟩

/-- All turns of DO_HDMA; `d n` is the bytes channel n's unit moved and the table bytes its LoadEntry read. Whether a channel is
processed is decided by the state before the command: no other channel's turn changes it. -/
theorem lineTurns_spec (m : Byte) (s : State) :
    ∃ d : Chan → (Nat → Byte) × Byte × Byte × Byte, ChansStep s (allChans.foldl (lineTurn m) s)
      (fun n => if processed m s n then lineDone (s.ch n) (d n).2.1 (d n).2.2.1 (d n).2.2.2 else s.ch n)
      (allChans.flatMap fun n => if processed m s n then
        lineEvents (s.ch n) (d n).1 (d n).2.1 (d n).2.2.1 (d n).2.2.2 else []) :=
  ChansStep.ofTurns (δ := (Nat → Byte) × Byte × Byte × Byte) (lineTurn m)
    (fun h n c d => if c.active && maskBit h n && maskBit m n then lineDone c d.2.1 d.2.2.1 d.2.2.2 else c)
    (fun h n c d => if c.active && maskBit h n && maskBit m n then lineEvents c d.1 d.2.1 d.2.2.1 d.2.2.2 else [])
    (fun s n => by
      obtain ⟨vs, b, lo, hi, h⟩ := lineTurn_spec m s n
      exact ⟨(vs, b, lo, hi), h⟩) s

/-- The cycle sum of DO_HDMA's response (R203), as its loop counts it. -/
def lineCycles (r : LineRun) : Nat := r.nch * Config.hdmaChannelCycles + r.nb * Config.hdmaByteCycles

/-- DO_HDMA is its turns, then the response. -/
theorem exec_doHdma (m : Byte) (s : State) :
    exec (.doHdma m) s = .next ((allChans.foldl (lineTurn m) s).respond
      (.cycles (BitVec.ofNat 32 (lineCycles (allChans.foldl (hdmaChannel m) ⟨s, 0, 0⟩))))) := by
  rw [List.foldl_hom (g₂ := lineTurn m) (init := ⟨s, 0, 0⟩) LineRun.st fun r n => (hdmaChannel_state m r n).symm]
  rfl

/-! ## Register accesses -/

/-- A window read that goes on changes nothing in the engine. -/
theorem accessPort_read_engine {p : WindowPort} {s t : State} (h : accessPort p .read s = .next t) : t.engine = s.engine := by
  rw [accessPort_spec] at h
  cases p with
  | chan n r => cases h; rfl
  | mdmaen => cases h
  | hdmaen => cases h

@[simp] theorem accessPort_write (p : WindowPort) (d : Byte) (s : State) :
    accessPort p (.write d) s = .next ((s.writePort d p).respond .none) := rfl

/-- A window row is an access of its port. -/
theorem exec_portInstr (acc : Access) (p : WindowPort) (s : State) : exec (portInstr acc p) s = accessPort p acc s := by
  cases p with
  | chan n r => cases r <;> rfl
  | mdmaen => rfl
  | hdmaen => rfl

/-- A REG_READ that goes on is a read of a decoded port. -/
theorem regRead_next {a : Half} {s t : State} (h : exec (.regRead a) s = .next t) :
    ∃ p, windowPort a = some p ∧ accessPort p .read s = .next t := by
  simp only [exec, execRegRead] at h
  split at h
  · exact ⟨_, ‹_›, h⟩
  · cases h

/-- A REG_WRITE that goes on is a write of a decoded port. -/
theorem regWrite_next {a : Half} {d : Byte} {s t : State} (h : exec (.regWrite a d) s = .next t) :
    ∃ p, windowPort a = some p ∧ t = (s.writePort d p).respond .none := by
  simp only [exec, execRegWrite] at h
  split at h
  · cases h; exact ⟨_, ‹_›, rfl⟩
  · cases h

end Sys2Proof.Machine
end

section
/-! SUPPORT. The state a step may write (spec/10_state.md R36): which registers of a channel a transfer moves and which a table load
sets, and one inversion lemma for every instruction, `exec_effect`. -/

namespace Sys2Proof.Machine

/-! ## What becomes of one channel -/

/-- Channel `d` is `c` but for its pointers and its counter: what moving bytes may change. -/
def MovesOnly (c d : Channel) : Prop := ∃ a1t das a2a, d = { c with a1t := a1t, das := das, a2a := a2a }

/-- Channel `d` is `c` but for its HDMA state: what an HDMA line or a table byte may change. -/
def LoadsOnly (c d : Channel) : Prop := ∃ a2a ntrl das act, d = { c with a2a := a2a, ntrl := ntrl, das := das, active := act }

/-- The five registers of a channel that only the host sets up. -/
def SetUpKept (c d : Channel) : Prop :=
  d.bbad = c.bbad ∧ d.a1b = c.a1b ∧ d.dasb = c.dasb ∧ d.dmap = c.dmap ∧ d.unused = c.unused

theorem MovesOnly.refl (c : Channel) : MovesOnly c c := ⟨_, _, _, rfl⟩

theorem LoadsOnly.refl (c : Channel) : LoadsOnly c c := ⟨_, _, _, _, rfl⟩

theorem LoadsOnly.trans {c d e : Channel} (h : LoadsOnly c d) (g : LoadsOnly d e) : LoadsOnly c e := by
  obtain ⟨_, _, _, _, rfl⟩ := h
  obtain ⟨_, _, _, _, rfl⟩ := g
  exact ⟨_, _, _, _, rfl⟩

theorem MovesOnly.setUpKept {c d : Channel} (h : MovesOnly c d) : SetUpKept c d := by
  obtain ⟨_, _, _, rfl⟩ := h
  exact ⟨rfl, rfl, rfl, rfl, rfl⟩

theorem MovesOnly.active {c d : Channel} (h : MovesOnly c d) : d.active = c.active := by
  obtain ⟨_, _, _, rfl⟩ := h
  rfl

theorem LoadsOnly.setUpKept {c d : Channel} (h : LoadsOnly c d) : SetUpKept c d := by
  obtain ⟨_, _, _, _, rfl⟩ := h
  exact ⟨rfl, rfl, rfl, rfl, rfl⟩

theorem dmaDone_movesOnly (c : Channel) : MovesOnly c (dmaDone c) := ⟨_, _, _, rfl⟩

theorem pointerPast_movesOnly (ind : Bool) (k : Nat) (c : Channel) : MovesOnly c (pointerPast ind k c) := by
  cases ind <;> exact ⟨_, _, _, rfl⟩

theorem entryDone_loadsOnly (c : Channel) (b lo hi : Byte) : LoadsOnly c (entryDone c b lo hi) := by
  unfold entryDone
  split
  · exact ⟨_, _, _, _, rfl⟩
  · split <;> exact ⟨_, _, _, _, rfl⟩

theorem lineCounted_loadsOnly (c : Channel) : LoadsOnly c (lineCounted c) := by
  unfold lineCounted
  cases dmapInd c.dmap <;> exact ⟨_, _, _, _, rfl⟩

theorem lineDone_loadsOnly (c : Channel) (b lo hi : Byte) : LoadsOnly c (lineDone c b lo hi) := by
  unfold lineDone
  split
  · exact (lineCounted_loadsOnly c).trans (entryDone_loadsOnly ..)
  · exact lineCounted_loadsOnly c

@[simp] theorem writeByte_active (c : Channel) (d : Byte) (r : ChanReg) : (c.writeByte d r).active = c.active := by
  cases r <;> rfl

/-! ## What becomes of the engine -/

theorem ch_eq_of_engine_eq {s t : State} (h : t.engine = s.engine) (n : Chan) : t.ch n = s.ch n := by
  simp only [State.ch, h]

/-- A write of a port changes no active flag (R239). -/
@[simp] theorem writePort_active (s : State) (d : Byte) (p : WindowPort) (n : Chan) :
    ((s.writePort d p).ch n).active = (s.ch n).active := by
  cases p with
  | chan k r =>
    simp only [State.writePort, modCh_ch]
    split
    · next e => rw [writeByte_active, e]
    · rfl
  | mdmaen => rfl
  | hdmaen => rfl

/-- A write of a port changes MDMAEN only at MDMAEN's. -/
theorem writePort_mdmaen {s : State} {d : Byte} {p : WindowPort} (h : p ≠ .mdmaen) :
    (s.writePort d p).engine.mdmaen = s.engine.mdmaen := by
  cases p with
  | chan n r => rfl
  | mdmaen => exact absurd rfl h
  | hdmaen => rfl

/-- What a DO_DMA does to the engine. -/
theorem doDma_engine {m : Byte} {s t : State} (h : exec (.doDma m) s = .next t) :
    t.engine.hdmaen = s.engine.hdmaen ∧ ∀ n, t.ch n = if maskBit m n then dmaDone (s.ch n) else s.ch n := by
  rw [exec_doDma, Host.Outcome.next.injEq] at h
  subst h
  obtain ⟨vs, g⟩ := dmaTurns_spec m s
  simp only [respond_engine, respond_ch, setMdmaen_hdmaen, setMdmaen_ch]
  exact ⟨g.hdmaen, g.ch⟩

/-- What an INIT_HDMA does to the engine. -/
theorem initHdma_engine {s t : State} (h : exec .initHdma s = .next t) :
    t.engine.mdmaen = s.engine.mdmaen ∧ t.engine.hdmaen = s.engine.hdmaen ∧ ∀ n, LoadsOnly (s.ch n) (t.ch n) := by
  rw [exec_initHdma, Host.Outcome.next.injEq] at h
  subst h
  obtain ⟨d, g⟩ := initTurns_spec s
  simp only [respond_engine, respond_ch]
  refine ⟨g.mdmaen, g.hdmaen, fun n => ?_⟩
  rw [g.ch n]
  split
  · exact LoadsOnly.trans ⟨_, _, _, _, rfl⟩ (entryDone_loadsOnly ..)
  · exact ⟨_, _, _, _, rfl⟩

/-- What a DO_HDMA does to the engine. -/
theorem doHdma_engine {m : Byte} {s t : State} (h : exec (.doHdma m) s = .next t) :
    t.engine.mdmaen = s.engine.mdmaen ∧ t.engine.hdmaen = s.engine.hdmaen ∧
      ∀ n, (processed m s n = false → t.ch n = s.ch n) ∧ LoadsOnly (s.ch n) (t.ch n) := by
  rw [exec_doHdma, Host.Outcome.next.injEq] at h
  subst h
  obtain ⟨d, g⟩ := lineTurns_spec m s
  simp only [respond_engine, respond_ch]
  refine ⟨g.mdmaen, g.hdmaen, fun n => ?_⟩
  rw [g.ch n]
  split
  · next hp => exact ⟨fun hn => absurd hp (by simp [hn]), lineDone_loadsOnly ..⟩
  · exact ⟨fun _ => rfl, LoadsOnly.refl _⟩

/-- What an instruction that goes on can do to the engine. -/
inductive Effect (i : Instr) (s t : State) : Prop
  /-- Nothing, or bytes moved: a register read or a control-byte row. -/
  | moves (mdmaen : t.engine.mdmaen = s.engine.mdmaen) (hdmaen : t.engine.hdmaen = s.engine.hdmaen)
      (ch : ∀ n, MovesOnly (s.ch n) (t.ch n))
  /-- One byte written through the window. -/
  | writes (p : WindowPort) (d : Byte)
      (instr : i = portInstr (.write d) p ∨ ∃ a, windowPort a = some p ∧ i = .regWrite a d)
      (eq : t = (s.writePort d p).respond .none)
  /-- DO_DMA. -/
  | doDma (m : Byte) (instr : i = .doDma m) (hdmaen : t.engine.hdmaen = s.engine.hdmaen)
      (ch : ∀ n, MovesOnly (s.ch n) (t.ch n))
  /-- INIT_HDMA or DO_HDMA. -/
  | hdma (instr : i = .initHdma ∨ ∃ m, i = .doHdma m) (mdmaen : t.engine.mdmaen = s.engine.mdmaen)
      (hdmaen : t.engine.hdmaen = s.engine.hdmaen) (ch : ∀ n, LoadsOnly (s.ch n) (t.ch n))
  /-- A table byte of channel n. -/
  | table (n : Chan) (instr : i = .hdmaEnd n ∨ (∃ c, i = .hdmaEntry n c) ∨ ∃ c, i = .hdmaEntryRepeat n c)
      (rest : restKept n s t) (ch : LoadsOnly (s.ch n) (t.ch n))

namespace Effect
variable {i : Instr} {s t : State}

/-- A read of a port. -/
theorem ofRead {p : WindowPort} (h : accessPort p .read s = .next t) : Effect i s t := by
  have e := accessPort_read_engine h
  exact .moves (by rw [e]) (by rw [e]) fun n => ch_eq_of_engine_eq e n ▸ MovesOnly.refl _

/-- A port access, by its row. -/
theorem ofPort (acc : Access) (p : WindowPort) (h : exec (portInstr acc p) s = .next t) : Effect (portInstr acc p) s t := by
  rw [exec_portInstr] at h
  cases acc with
  | read => exact ofRead h
  | write d =>
    rw [accessPort_write] at h
    cases h
    exact .writes p d (.inl rfl) rfl

/-- A control-byte row: one channel's bytes moved, no response. -/
theorem ofMove {n : Chan} {u : State} {c : Channel} {es : List BusEvent} (h : ChanStep n s u c es) (hc : MovesOnly (s.ch n) c) :
    Effect i s (u.respond .none) := by
  refine .moves h.mdmaen h.hdmaen fun k => ?_
  rw [respond_ch, h.ch_eq k]
  split
  · next e => exact e ▸ hc
  · exact MovesOnly.refl _

theorem ofUnit (n : Chan) (ind : Bool) (m : BitVec 3) : Effect i s ((hdmaUnit n ind m s).respond .none) := by
  obtain ⟨_, h⟩ := hdmaUnit_spec n ind m s
  exact ofMove h (pointerPast_movesOnly ..)

theorem ofHdmaMove (n : Chan) (ind : Bool) (m : BitVec 3) (k : Nat) : Effect i s ((hdmaMove n ind m k s).respond .none) := by
  obtain ⟨_, h⟩ := hdmaMove_spec n ind m k s
  exact ofMove h (pointerPast_movesOnly ..)

theorem ofDmaMove (n : Chan) (dir : Bool) (m : BitVec 3) (k : Nat) : Effect i s ((dmaMove n dir m k s).respond .none) := by
  obtain ⟨_, h⟩ := dmaMove_spec n dir m k s
  exact ofMove h (MovesOnly.refl _)

theorem ofStep (n : Chan) (st : BitVec 2) : Effect i s ((stepA1t n st s).respond .none) :=
  ofMove (stepA1t_spec n st s) ⟨_, _, _, rfl⟩

/-- A table byte of channel n. -/
theorem ofTable (n : Chan) (b : Byte) (hi : i = .hdmaEnd n ∨ (∃ c, i = .hdmaEntry n c) ∨ ∃ c, i = .hdmaEntryRepeat n c) :
    Effect i s ((loadByte n b s).respond .none) := by
  obtain ⟨lo, hi', h⟩ := loadByte_spec n b s
  refine .table n hi ⟨h.others, h.mdmaen, h.hdmaen, h.pending⟩ ?_
  rw [respond_ch, h.same]
  split
  · exact ⟨_, _, _, _, rfl⟩
  · split <;> exact ⟨_, _, _, _, rfl⟩

end Effect

/-- Every instruction has one of the effects. -/
theorem exec_effect {i : Instr} {s t : State} (h : exec i s = .next t) : Effect i s t := by
  cases i with
  | regRead a =>
    obtain ⟨p, -, hp⟩ := regRead_next h
    exact .ofRead hp
  | regWrite a d =>
    obtain ⟨p, ha, ht⟩ := regWrite_next h
    exact .writes p d (.inr ⟨a, ha, rfl⟩) ht
  | initHdma =>
    obtain ⟨hm, hh, hc⟩ := initHdma_engine h
    exact .hdma (.inl rfl) hm hh hc
  | doHdma m =>
    obtain ⟨hm, hh, hc⟩ := doHdma_engine h
    exact .hdma (.inr ⟨m, rfl⟩) hm hh fun n => (hc n).2
  | doDma m =>
    obtain ⟨hh, hc⟩ := doDma_engine h
    refine .doDma m rfl hh fun n => ?_
    rw [hc n]
    split
    · exact dmaDone_movesOnly _
    · exact MovesOnly.refl _
  | regDmap c acc => exact .ofPort acc (.chan c .dmap) h
  | regBbad c acc => exact .ofPort acc (.chan c .bbad) h
  | regA1tLo c acc => exact .ofPort acc (.chan c .a1tLo) h
  | regA1tHi c acc => exact .ofPort acc (.chan c .a1tHi) h
  | regA1b c acc => exact .ofPort acc (.chan c .a1b) h
  | regDasLo c acc => exact .ofPort acc (.chan c .dasLo) h
  | regDasHi c acc => exact .ofPort acc (.chan c .dasHi) h
  | regDasb c acc => exact .ofPort acc (.chan c .dasb) h
  | regA2aLo c acc => exact .ofPort acc (.chan c .a2aLo) h
  | regA2aHi c acc => exact .ofPort acc (.chan c .a2aHi) h
  | regNtrl c acc => exact .ofPort acc (.chan c .ntrl) h
  | regUnusedB c acc => exact .ofPort acc (.chan c .unusedB) h
  | regUnusedF c acc => exact .ofPort acc (.chan c .unusedF) h
  | regMdmaen acc => exact .ofPort acc .mdmaen h
  | regHdmaen acc => exact .ofPort acc .hdmaen h
  | mode0 n _ ind _ _ | mode1 n _ ind _ _ | mode2 n _ ind _ _ | mode3 n _ ind _ _
  | mode4 n _ ind _ _ | mode5 n _ ind _ _ | mode6 n _ ind _ _ | mode7 n _ ind _ _ =>
    cases h; exact .ofUnit n ind _
  | stepInc n | stepFixed n | stepDec n | stepFixedAlt n => cases h; exact .ofStep n _
  | dirAtoB n k _ _ _ m | dirBtoA n k _ _ _ m => cases h; exact .ofDmaMove n _ m _
  | hdmaDirect n k _ _ _ m | hdmaIndirect n k _ _ _ m => cases h; exact .ofHdmaMove n _ m _
  | hdmaEnd n => cases h; exact .ofTable n 0 (.inl rfl)
  | hdmaEntry n c => cases h; exact .ofTable n _ (.inr (.inl ⟨c, rfl⟩))
  | hdmaEntryRepeat n c => cases h; exact .ofTable n _ (.inr (.inr ⟨c, rfl⟩))

end Sys2Proof.Machine
end

section
/-! The state's statements (spec/10_state.md R30, R31, R36). -/

namespace Sys2Proof.Machine

/-- Settles O27: each clause is what its command does to the engine, by the closed forms of the channels' turns. -/
theorem commandsWriteOnlyTheirState : Obligations.CommandsWriteOnlyTheirState := by
  refine ⟨fun a s t h => ?_, fun a d s t h => ?_, fun m s t h => ?_, fun s t h => initHdma_engine h, fun m s t h => ?_⟩
  · obtain ⟨p, -, hp⟩ := regRead_next h
    exact accessPort_read_engine hp
  · obtain ⟨p, ha, rfl⟩ := regWrite_next h
    exact ⟨p, ha, rfl⟩
  · obtain ⟨hh, hc⟩ := doDma_engine h
    refine ⟨hh, fun n => ?_⟩
    rw [hc n]
    split
    · next hm => exact ⟨fun hn => absurd hm (by simp [hn]), _, _, rfl⟩
    · exact ⟨fun _ => rfl, _, _, rfl⟩
  · obtain ⟨hm, hh, hc⟩ := doHdma_engine h
    refine ⟨hm, hh, fun n => ⟨(hc n).1, ?_⟩⟩
    obtain ⟨a2a, ntrl, das, act, e⟩ := (hc n).2
    exact ⟨a2a, das, ntrl, act, e⟩

/-- Settles O28: of the effects an instruction can have, only the window write, which the hypotheses exclude, touches the set-up. -/
theorem onlyWindowWritesChangeTheSetUp : Obligations.OnlyWindowWritesChangeTheSetUp := by
  intro i s t h hReg hPort
  cases exec_effect h with
  | moves _ hh hc => exact ⟨hh, fun n => (hc n).setUpKept⟩
  | writes p d hi =>
    obtain hi | ⟨a, -, hi⟩ := hi
    · exact absurd hi (hPort p d)
    · exact absurd hi (hReg a d)
  | doDma m _ hh hc => exact ⟨hh, fun n => (hc n).setUpKept⟩
  | hdma _ _ hh hc => exact ⟨hh, fun n => (hc n).setUpKept⟩
  | table n _ hr hc =>
    obtain ⟨hOthers, -, hh, -⟩ := hr
    refine ⟨hh, fun k => ?_⟩
    by_cases e : k = n
    · exact e ▸ hc.setUpKept
    · exact hOthers k e ▸ (LoadsOnly.refl _).setUpKept

/-- Settles O29: of the effects an instruction can have, only HDMA and the table bytes set an active flag, and only DO_DMA and a write
of MDMAEN's port set MDMAEN. -/
theorem onlyTheseChangeFlagsAndMdmaen : Obligations.OnlyTheseChangeFlagsAndMdmaen := by
  intro i s t h
  cases exec_effect h with
  | moves hm _ hc => exact ⟨fun n ha => absurd (hc n).active ha, absurd hm⟩
  | writes p d hi ht =>
    subst ht
    refine ⟨fun n ha => absurd (writePort_active s d p n) ha, fun hm => ?_⟩
    have hp : p = .mdmaen := not_not.mp fun hp => hm (writePort_mdmaen hp)
    subst hp
    obtain hi | ⟨a, ha, hi⟩ := hi
    · exact .inr (.inr ⟨d, hi⟩)
    · have ha' : a = 0x420B := (portAddr_windowPort a _ ha).symm
      exact .inr (.inl ⟨d, ha' ▸ hi⟩)
  | doDma m hi _ hc => exact ⟨fun n ha => absurd (hc n).active ha, fun _ => .inl ⟨m, hi⟩⟩
  | hdma hi hm => exact ⟨fun n _ => hi.elim .inl fun hi => .inr (.inl hi), absurd hm⟩
  | table n hi hr =>
    obtain ⟨hOthers, hm, -, -⟩ := hr
    refine ⟨fun k ha => ?_, absurd hm⟩
    by_cases e : k = n
    · exact .inr (.inr (e ▸ hi))
    · exact absurd (by rw [hOthers k e]) ha

end Sys2Proof.Machine
end

section
/-! SUPPORT. The accesses of an instruction and of a step: every instruction is a run of accesses of the Bus, so what every access keeps,
every instruction keeps (spec/20_memory.md R66 to R70). -/

namespace Sys2Proof.Machine

/-- From `s` to `t` the accesses `es` were made, and the same requests wait; the engine may have changed. -/
structure Accesses (s t : State) (es : List BusEvent) : Prop where
  bus : s.bus.run es = some t.bus
  pending : t.pending = s.pending

theorem ChanStep.accesses {n : Chan} {s t : State} {c : Channel} {es : List BusEvent} (h : ChanStep n s t c es) (r : Response) :
    Accesses s (t.respond r) es := ⟨h.bus, h.pending⟩

theorem ChansStep.accesses {s t : State} {C : Chan → Channel} {es : List BusEvent} (h : ChansStep s t C es) (r : Response) :
    Accesses s (t.respond r) es := ⟨h.bus, h.pending⟩

@[simp] theorem writePort_bus (s : State) (d : Byte) (p : WindowPort) : (s.writePort d p).bus = s.bus := by cases p <;> rfl

@[simp] theorem writePort_pending (s : State) (d : Byte) (p : WindowPort) : (s.writePort d p).pending = s.pending := by
  cases p <;> rfl

/-- A window access reaches no bus (R63). -/
theorem accessPort_accesses {p : WindowPort} {acc : Access} {s t : State} (h : accessPort p acc s = .next t) : Accesses s t [] := by
  cases acc with
  | read =>
    rw [accessPort_spec] at h
    cases p with
    | chan n r => cases h; exact ⟨rfl, rfl⟩
    | mdmaen => cases h
    | hdmaen => cases h
  | write d =>
    rw [accessPort_write] at h
    cases h
    exact ⟨by simp, by simp⟩

theorem portInstr_accesses (acc : Access) (p : WindowPort) {s t : State} (h : exec (portInstr acc p) s = .next t) :
    Accesses s t [] :=
  accessPort_accesses ((exec_portInstr acc p s).symm.trans h)

theorem regRead_accesses {a : Half} {s t : State} (h : exec (.regRead a) s = .next t) : Accesses s t [] := by
  obtain ⟨p, -, hp⟩ := regRead_next h
  exact accessPort_accesses hp

theorem regWrite_accesses {a : Half} {d : Byte} {s t : State} (h : exec (.regWrite a d) s = .next t) : Accesses s t [] := by
  obtain ⟨p, -, rfl⟩ := regWrite_next h
  exact accessPort_accesses (accessPort_write p d s)

/-- The accesses of DO_DMA: those of each selected channel, in order (R162); `vs n k` is byte k of channel n. -/
def doDmaEvents (m : Byte) (s : State) (vs : Chan → Nat → Byte) : List BusEvent :=
  allChans.flatMap fun n => if maskBit m n then dmaEvents (s.ch n) (vs n) else []

theorem doDma_accesses {m : Byte} {s t : State} (h : exec (.doDma m) s = .next t) : ∃ vs, Accesses s t (doDmaEvents m s vs) := by
  rw [exec_doDma, Host.Outcome.next.injEq] at h
  subst h
  obtain ⟨vs, g⟩ := dmaTurns_spec m s
  exact ⟨vs, g.bus, g.pending⟩

theorem initHdma_accesses {s t : State} (h : exec .initHdma s = .next t) :
    ∃ d : Chan → Byte × Byte × Byte, Accesses s t (allChans.flatMap fun n => if maskBit s.engine.hdmaen n then
      entryEvents { s.ch n with a2a := (s.ch n).a1t } (d n).1 (d n).2.1 (d n).2.2 else []) := by
  rw [exec_initHdma, Host.Outcome.next.injEq] at h
  subst h
  obtain ⟨d, g⟩ := initTurns_spec s
  exact ⟨d, g.accesses _⟩

theorem doHdma_accesses {m : Byte} {s t : State} (h : exec (.doHdma m) s = .next t) :
    ∃ d : Chan → (Nat → Byte) × Byte × Byte × Byte, Accesses s t (allChans.flatMap fun n => if processed m s n then
      lineEvents (s.ch n) (d n).1 (d n).2.1 (d n).2.2.1 (d n).2.2.2 else []) := by
  rw [exec_doHdma, Host.Outcome.next.injEq] at h
  subst h
  obtain ⟨d, g⟩ := lineTurns_spec m s
  exact ⟨d, g.accesses _⟩

/-- Whatever an instruction does to the Bus is a run of accesses. -/
theorem exec_accesses {i : Instr} {s t : State} (h : exec i s = .next t) : ∃ es, Accesses s t es := by
  cases i with
  | regRead a => exact ⟨_, regRead_accesses h⟩
  | regWrite a d => exact ⟨_, regWrite_accesses h⟩
  | initHdma => obtain ⟨_, g⟩ := initHdma_accesses h; exact ⟨_, g⟩
  | doHdma m => obtain ⟨_, g⟩ := doHdma_accesses h; exact ⟨_, g⟩
  | doDma m => obtain ⟨_, g⟩ := doDma_accesses h; exact ⟨_, g⟩
  | regDmap c acc => exact ⟨_, portInstr_accesses acc (.chan c .dmap) h⟩
  | regBbad c acc => exact ⟨_, portInstr_accesses acc (.chan c .bbad) h⟩
  | regA1tLo c acc => exact ⟨_, portInstr_accesses acc (.chan c .a1tLo) h⟩
  | regA1tHi c acc => exact ⟨_, portInstr_accesses acc (.chan c .a1tHi) h⟩
  | regA1b c acc => exact ⟨_, portInstr_accesses acc (.chan c .a1b) h⟩
  | regDasLo c acc => exact ⟨_, portInstr_accesses acc (.chan c .dasLo) h⟩
  | regDasHi c acc => exact ⟨_, portInstr_accesses acc (.chan c .dasHi) h⟩
  | regDasb c acc => exact ⟨_, portInstr_accesses acc (.chan c .dasb) h⟩
  | regA2aLo c acc => exact ⟨_, portInstr_accesses acc (.chan c .a2aLo) h⟩
  | regA2aHi c acc => exact ⟨_, portInstr_accesses acc (.chan c .a2aHi) h⟩
  | regNtrl c acc => exact ⟨_, portInstr_accesses acc (.chan c .ntrl) h⟩
  | regUnusedB c acc => exact ⟨_, portInstr_accesses acc (.chan c .unusedB) h⟩
  | regUnusedF c acc => exact ⟨_, portInstr_accesses acc (.chan c .unusedF) h⟩
  | regMdmaen acc => exact ⟨_, portInstr_accesses acc .mdmaen h⟩
  | regHdmaen acc => exact ⟨_, portInstr_accesses acc .hdmaen h⟩
  | mode0 n _ ind _ _ | mode1 n _ ind _ _ | mode2 n _ ind _ _ | mode3 n _ ind _ _
  | mode4 n _ ind _ _ | mode5 n _ ind _ _ | mode6 n _ ind _ _ | mode7 n _ ind _ _ =>
    cases h; obtain ⟨_, g⟩ := hdmaUnit_spec n ind _ s; exact ⟨_, g.accesses _⟩
  | stepInc n | stepFixed n | stepDec n | stepFixedAlt n => cases h; exact ⟨_, (stepA1t_spec n _ s).accesses _⟩
  | dirAtoB n k _ _ _ m | dirBtoA n k _ _ _ m =>
    cases h; obtain ⟨_, g⟩ := dmaMove_spec n _ m k.toNat s; exact ⟨_, g.accesses _⟩
  | hdmaDirect n k _ _ _ m | hdmaIndirect n k _ _ _ m =>
    cases h; obtain ⟨_, g⟩ := hdmaMove_spec n _ m k.toNat s; exact ⟨_, g.accesses _⟩
  | hdmaEnd n | hdmaEntry n c | hdmaEntryRepeat n c =>
    cases h; obtain ⟨_, _, g⟩ := loadByte_spec n _ s; exact ⟨_, g.accesses _⟩

/-- Fetching a form is a run of accesses: one read for a table byte, none for any other. -/
theorem fetch_run {r : Request} {f : InstrWord} {s u : State} (h : fetch r s = (some f, u)) : ∃ es, s.bus.run es = some u.bus := by
  cases r with
  | command w | window acc a | control un n => cases h; exact ⟨[], rfl⟩
  | table n => cases h; exact ⟨_, (readTable_spec n s).bus⟩
  | outside c => cases h

/-- What a step that goes on can do: idle, let another agent change the Bus, or execute the instruction it fetched. -/
theorem step_cases {s t : State} (h : step s = .next t) :
    s.pending = [] ∧ t = s ∨
    (∃ c rest, s.pending = .outside c :: rest ∧ t = (s.setPending rest).setBus (s.bus.changeOutside c)) ∨
    ∃ r rest f u i, s.pending = r :: rest ∧ fetch r (s.setPending rest) = (some f, u) ∧ decode f = .ok i ∧ exec i u = .next t := by
  unfold step at h
  split at h
  · next hp => cases h; exact .inl ⟨hp, rfl⟩
  · next r rest hp =>
    split at h
    · next u hf =>
      cases h
      cases r with
      | outside c => cases hf; exact .inr (.inl ⟨c, rest, hp, rfl⟩)
      | command | window | control | table => cases hf
    · next f u hf =>
      split at h
      · next i hd => exact .inr (.inr ⟨r, rest, f, u, i, hp, hf, hd, h⟩)
      · cases h

/-- An invariant of the Bus that every access and every outside change keeps is kept by a step. -/
theorem step_bus_invariant (P : Bus → Prop) (hAccess : ∀ b acc, P b → P (b.access acc)) (hOutside : ∀ b c, P b → P (b.changeOutside c))
    {s t : State} (hs : P s.bus) (h : step s = .next t) : P t.bus := by
  obtain ⟨-, rfl⟩ | ⟨c, rest, -, rfl⟩ | ⟨r, rest, f, u, i, -, hf, -, hi⟩ := step_cases h
  · exact hs
  · exact hOutside _ c hs
  · obtain ⟨_, hu⟩ := fetch_run hf
    obtain ⟨_, ht⟩ := exec_accesses hi
    exact run_invariant P hAccess ht.bus (run_invariant P hAccess hu hs)

end Sys2Proof.Machine
end

section
/-! SUPPORT. Which bus the accesses of a command go to, and which way (spec/20_memory.md R63). -/

namespace Sys2Proof.Machine

/-- A move from the A-bus reads the A-bus and writes the B-bus. -/
theorem of_mem_moveEvents_aToB {a : Addr} {x v : Byte} {e : BusEvent} (h : e ∈ moveEvents false a x v) :
    (∃ a v, e = .aRead a v) ∨ ∃ x v, e = .bWrite x v := by
  obtain rfl | rfl : e = .aRead a v ∨ e = .bWrite x v := by simpa [moveEvents] using h
  · exact .inl ⟨_, _, rfl⟩
  · exact .inr ⟨_, _, rfl⟩

/-- A move from the B-bus reads the B-bus and writes the A-bus. -/
theorem of_mem_moveEvents_bToA {a : Addr} {x v : Byte} {e : BusEvent} (h : e ∈ moveEvents true a x v) :
    (∃ x v, e = .bRead x v) ∨ ∃ a v, e = .aWrite a v := by
  obtain rfl | rfl : e = .bRead x v ∨ e = .aWrite a v := by simpa [moveEvents] using h
  · exact .inl ⟨_, _, rfl⟩
  · exact .inr ⟨_, _, rfl⟩

/-- LoadEntry only reads the A-bus. -/
theorem of_mem_entryEvents {c : Channel} {b lo hi : Byte} {e : BusEvent} (h : e ∈ entryEvents c b lo hi) : ∃ a v, e = .aRead a v := by
  unfold entryEvents at h
  split at h
  · obtain rfl | rfl | rfl : e = _ ∨ e = _ ∨ e = _ := by simpa using h
    all_goals exact ⟨_, _, rfl⟩
  · exact ⟨_, _, by simpa using h⟩

/-- An HDMA line only reads the A-bus and writes the B-bus. -/
theorem of_mem_lineEvents {c : Channel} {vs : Nat → Byte} {b lo hi : Byte} {e : BusEvent} (h : e ∈ lineEvents c vs b lo hi) :
    (∃ a v, e = .aRead a v) ∨ ∃ x v, e = .bWrite x v := by
  obtain h | h := List.mem_append.mp h
  · obtain ⟨k, -, hk⟩ := List.mem_flatMap.mp h
    exact of_mem_moveEvents_aToB hk
  · split at h
    · exact .inl (of_mem_entryEvents h)
    · cases h

/-- An access of a DO_DMA is one of a byte's move, in the direction of a selected channel. -/
theorem of_mem_doDmaEvents {m : Byte} {s : State} {vs : Chan → Nat → Byte} {e : BusEvent} (h : e ∈ doDmaEvents m s vs) :
    ∃ n a x v, maskBit m n = true ∧ e ∈ moveEvents (dmapDir (s.ch n).dmap) a x v := by
  obtain ⟨n, -, hn⟩ := List.mem_flatMap.mp h
  split at hn
  · next hm =>
    obtain ⟨k, -, hk⟩ := List.mem_flatMap.mp hn
    exact ⟨n, _, _, _, hm, hk⟩
  · cases hn

end Sys2Proof.Machine
end

section
/-! SUPPORT. DO_DMA and the Bus: the whole result of the command, the cycle sum (spec/41_dma.md R166), its accesses with the bytes left
out, and a Bus that answers any bytes one likes (spec/20_memory.md R69). -/

namespace Sys2Proof.Machine

/-! ## The cycle sum -/

/-- A selected channel costs its start and its bytes, any other nothing. -/
theorem dmaChannel_cycles (m : Byte) (p : State × Nat) (n : Chan) :
    (dmaChannel m p n).2 =
      p.2 + if maskBit m n then Config.dmaChannelCycles + dmaCount (p.1.ch n).das * Config.dmaByteCycles else 0 := by
  unfold dmaChannel
  split
  · obtain ⟨_, -, e⟩ := dmaChannel_spec n p.1 (p.2 + Config.dmaChannelCycles)
    rw [e, Nat.add_assoc]
  · rfl

/-- A channel's turn leaves every other channel. -/
theorem dmaChannel_ch_ne (m : Byte) (p : State × Nat) {n k : Chan} (h : k ≠ n) : (dmaChannel m p n).1.ch k = p.1.ch k := by
  obtain ⟨_, g⟩ := dmaTurn_spec m p.1 n
  rw [dmaChannel_state, g.others k h]

theorem dmaChannels_cycles (m : Byte) (l : List Chan) (hl : l.Nodup) (p : State × Nat) :
    (l.foldl (dmaChannel m) p).2 = p.2 + (l.countP (maskBit m) * Config.dmaChannelCycles +
      (l.map fun n => if maskBit m n then dmaCount (p.1.ch n).das else 0).sum * Config.dmaByteCycles) := by
  induction l generalizing p with
  | nil => simp
  | cons n l ih =>
    obtain ⟨hn, hl'⟩ := List.nodup_cons.mp hl
    have hdas : (l.map fun k => if maskBit m k then dmaCount ((dmaChannel m p n).1.ch k).das else 0) =
        l.map fun k => if maskBit m k then dmaCount (p.1.ch k).das else 0 :=
      List.map_congr_left fun k hk => by rw [dmaChannel_ch_ne m p (n := n) fun e => hn (e ▸ hk)]
    rw [List.foldl_cons, ih hl', hdas, dmaChannel_cycles, List.countP_cons, List.map_cons, List.sum_cons]
    split <;> ring

/-- DO_DMA's cycle sum (R166). -/
theorem doDma_cycles (m : Byte) (s : State) : (allChans.foldl (dmaChannel m) (s, 0)).2 =
    dmaSelected m * Config.dmaChannelCycles + dmaBytes m s * Config.dmaByteCycles := by
  rw [dmaChannels_cycles m allChans allChans_nodup, Nat.zero_add]
  rfl

/-! ## The whole command -/

/-- What DO_DMA makes of the state, on a Bus that answers the bytes `vs`. -/
structure DoDmaDone (m : Byte) (s t : State) (vs : Chan → Nat → Byte) : Prop where
  exec : exec (.doDma m) s = .next t
  accesses : Accesses s t (doDmaEvents m s vs)
  ch : ∀ n, t.ch n = if maskBit m n then dmaDone (s.ch n) else s.ch n
  mdmaen : t.engine.mdmaen = 0
  hdmaen : t.engine.hdmaen = s.engine.hdmaen
  response : t.response =
    .cycles (BitVec.ofNat 32 (dmaSelected m * Config.dmaChannelCycles + dmaBytes m s * Config.dmaByteCycles))

theorem doDma_spec (m : Byte) (s : State) : ∃ t vs, DoDmaDone m s t vs := by
  obtain ⟨vs, g⟩ := doDma_accesses (exec_doDma m s)
  obtain ⟨hhdmaen, hch⟩ := doDma_engine (exec_doDma m s)
  exact ⟨_, vs, exec_doDma m s, g, hch, rfl, hhdmaen, by rw [respond_response, doDma_cycles]⟩

/-- Two engines with equal channels and masks are equal. -/
theorem engine_ext {s t : State} (hc : ∀ n, s.ch n = t.ch n) (hm : s.engine.mdmaen = t.engine.mdmaen)
    (hh : s.engine.hdmaen = t.engine.hdmaen) : s.engine = t.engine :=
  have h : s = { s with engine := t.engine } := state_ext hc hm hh rfl rfl rfl
  (congrArg State.engine h :)

/-! ## The accesses with their bytes left out -/

@[simp] theorem moveEvents_blank (dir : Bool) (a : Addr) (x v : Byte) :
    (moveEvents dir a x v).map BusEvent.blank = moveEvents dir a x 0 := by
  cases dir <;> rfl

@[simp] theorem dmaEvents_blank (c : Channel) (vs : Nat → Byte) :
    (dmaEvents c vs).map BusEvent.blank = dmaEvents c fun _ => 0 := by
  simp [dmaEvents, List.map_flatMap]

/-- Which accesses DO_DMA makes does not depend on the bytes it moves. -/
theorem doDmaEvents_blank (m : Byte) (s : State) (vs : Chan → Nat → Byte) :
    (doDmaEvents m s vs).map BusEvent.blank = doDmaEvents m s fun _ _ => 0 := by
  simp only [doDmaEvents, List.map_flatMap]
  refine List.flatMap_congr fun n _ => ?_
  split
  · exact dmaEvents_blank ..
  · rfl

/-! ## A Bus that answers given bytes -/

/-- The byte an event moves. -/
def BusEvent.byte : BusEvent → Byte
  | .aRead _ v => v
  | .aWrite _ v => v
  | .bRead _ v => v
  | .bWrite _ v => v

/-- Nothing is mapped, so that the turns decide every answer, and the turns to come are the bytes of `es`, without side effects. -/
structure Bus.Scripted (b : Bus) (es : List BusEvent) : Prop where
  aMap : b.aMap = []
  bMap : b.bMap = []
  turns : b.turns = es.map fun e => ⟨e.byte, []⟩

/-- The Bus that knows nothing and will answer the bytes of `es`. -/
def Bus.scripted (es : List BusEvent) : Bus where
  aMem := []
  bMem := []
  aMap := []
  bMap := []
  turns := es.map fun e => ⟨e.byte, []⟩
  outside := []
  trace := []

theorem scripted_scripted (es : List BusEvent) : (Bus.scripted es).Scripted es := ⟨rfl, rfl, rfl⟩

namespace Bus.Scripted
variable {b : Bus} {e : BusEvent} {es : List BusEvent}

theorem answerA (h : b.Scripted (e :: es)) (a : Addr) : b.answerA a = e.byte := by
  simp [Bus.answerA, Bus.kindA, Bus.turn, h.aMap, h.turns, kindAt, answer]

theorem answerB (h : b.Scripted (e :: es)) (x : Byte) : b.answerB x = e.byte := by
  simp [Bus.answerB, Bus.kindB, Bus.turn, h.bMap, h.turns, kindAt, answer]

/-- An access takes one turn of the script. -/
theorem access (h : b.Scripted (e :: es)) (acc : BusAccess) : (b.access acc).Scripted es := by
  rw [access_listed b acc h.turns]
  cases acc <;> exact ⟨h.aMap, h.bMap, rfl⟩

end Bus.Scripted

/-- Runs split. -/
theorem run_append_some {b b' : Bus} {es fs : List BusEvent} (h : b.run (es ++ fs) = some b') :
    ∃ c, b.run es = some c ∧ c.run fs = some b' := by
  induction es generalizing b with
  | nil => exact ⟨b, rfl, h⟩
  | cons e es ih =>
    obtain ⟨he, h⟩ := run_cons.mp h
    obtain ⟨c, hc, h⟩ := ih h
    exact ⟨c, run_cons.mpr ⟨he, hc⟩, h⟩

/-- On a Bus scripted with `es` a run of the accesses `fs` can only be `es`. -/
def Dictates (es fs : List BusEvent) : Prop :=
  ∀ (b b' : Bus) (rest : List BusEvent), b.Scripted (es ++ rest) → b.run fs = some b' → fs = es ∧ b'.Scripted rest

namespace Dictates

theorem nil : Dictates [] [] := fun b b' rest hb h => by
  cases h
  exact ⟨rfl, hb⟩

theorem append {es es' fs fs' : List BusEvent} (h : Dictates es fs) (h' : Dictates es' fs') : Dictates (es ++ es') (fs ++ fs') := by
  intro b b' rest hb hrun
  rw [List.append_assoc] at hb
  obtain ⟨c, hc, hrun⟩ := run_append_some hrun
  obtain ⟨rfl, hc⟩ := h b c _ hb hc
  obtain ⟨rfl, hb'⟩ := h' c b' rest hc hrun
  exact ⟨rfl, hb'⟩

theorem flatMap {ι : Type} (l : List ι) {f g : ι → List BusEvent} (h : ∀ i, Dictates (f i) (g i)) :
    Dictates (l.flatMap f) (l.flatMap g) := by
  induction l with
  | nil => exact nil
  | cons i l ih => exact (h i).append ih

/-- The byte read is the script's, and the byte written is the byte read. -/
theorem move (dir : Bool) (a : Addr) (x v w : Byte) : Dictates (moveEvents dir a x v) (moveEvents dir a x w) := by
  intro b b' rest hb hrun
  cases dir with
  | false =>
    obtain ⟨hw, hrun⟩ : w = b.answerA a ∧ (b.readA a).writeB x w = b' := by simpa [moveEvents] using hrun
    obtain rfl : w = v := hw.trans (hb.answerA a)
    exact ⟨rfl, hrun ▸ (hb.access _).access _⟩
  | true =>
    obtain ⟨hw, hrun⟩ : w = b.answerB x ∧ (b.readB x).writeA a w = b' := by simpa [moveEvents] using hrun
    obtain rfl : w = v := hw.trans (hb.answerB x)
    exact ⟨rfl, hrun ▸ (hb.access _).access _⟩

theorem doDma (m : Byte) (s : State) (vs ws : Chan → Nat → Byte) : Dictates (doDmaEvents m s vs) (doDmaEvents m s ws) :=
  flatMap _ fun n => by
    split
    · exact flatMap _ fun k => move _ _ _ (vs n k) (ws n k)
    · exact nil

end Dictates

/-- A DO_DMA on the Bus scripted with its accesses moves exactly the script's bytes. -/
theorem doDma_scripted (m : Byte) (s : State) (vs : Chan → Nat → Byte) :
    ∃ b t, exec (.doDma m) (s.setBus b) = .next t ∧ t.bus.trace = b.trace ++ doDmaEvents m s vs := by
  obtain ⟨t, ws, h⟩ := doDma_spec m (s.setBus (.scripted (doDmaEvents m s vs)))
  have hb : (Bus.scripted (doDmaEvents m s vs)).Scripted (doDmaEvents m s vs ++ []) := by
    rw [List.append_nil]; exact scripted_scripted _
  obtain ⟨e, -⟩ := Dictates.doDma m s vs ws _ _ [] hb h.accesses.bus
  exact ⟨_, t, h.exec, (run_trace h.accesses.bus).trans (congrArg _ e)⟩

end Sys2Proof.Machine
end

section
/-! The memory's statements (spec/20_memory.md R60 to R78). -/

namespace Sys2Proof.Machine

/-- Settles O12: every access and every outside change keeps the canonical form, and a step's Bus is made of these. -/
theorem stepKeepsTheBusCanonical : Obligations.StepKeepsTheBusCanonical := fun _ _ hs h =>
  step_bus_invariant (fun b => b.canonical = true) (fun _ acc => canonical_access acc) (fun _ c => canonical_changeOutside c) hs h

/-- Settles O14: an instruction is a run of accesses, and a run appends its events and keeps what they do not reach. -/
theorem everyInstructionIsARunOfAccesses : Obligations.EveryInstructionIsARunOfAccesses := by
  intro i s t h
  obtain ⟨es, hbus, hpending⟩ := exec_accesses h
  exact ⟨es, hbus, run_trace hbus, hpending, run_keepsA _ (fun a v hm => ⟨a, v, hm, rfl⟩) hbus,
    run_keepsB _ (fun x v hm => ⟨x, v, hm, rfl⟩) hbus⟩

/-- Settles O15: each command's accesses, by the closed form of its channels' turns. -/
theorem commandsReachOnlyTheirBuses : Obligations.CommandsReachOnlyTheirBuses := by
  refine ⟨fun a d s t h => ?_, fun s t h => ?_, fun m s t h => ?_, fun m s t h => ?_⟩
  · have g : Accesses s t [] := h.elim regRead_accesses regWrite_accesses
    exact (Option.some.inj g.bus).symm
  · obtain ⟨d, g⟩ := initHdma_accesses h
    refine ⟨_, run_trace g.bus, fun e he => ?_⟩
    obtain ⟨n, -, hn⟩ := List.mem_flatMap.mp he
    split at hn
    · exact of_mem_entryEvents hn
    · cases hn
  · obtain ⟨d, g⟩ := doHdma_accesses h
    refine ⟨_, run_trace g.bus, fun e he => ?_⟩
    obtain ⟨n, -, hn⟩ := List.mem_flatMap.mp he
    split at hn
    · exact of_mem_lineEvents hn
    · cases hn
  · obtain ⟨vs, g⟩ := doDma_accesses h
    refine ⟨_, run_trace g.bus, fun e he => ?_⟩
    obtain ⟨n, a, x, v, hm, hv⟩ := of_mem_doDmaEvents he
    cases hd : dmapDir (s.ch n).dmap with
    | false => exact .inl ⟨of_mem_moveEvents_aToB (hd ▸ hv), n, hm, hd⟩
    | true => exact .inr ⟨of_mem_moveEvents_bToA (hd ▸ hv), n, hm, hd⟩

/-- Settles O24: the closed form of DO_DMA speaks of the Bus only through the bytes moved, and a scripted Bus answers any bytes. -/
theorem doDmaIsTheSameOnEveryBus : Obligations.DoDmaIsTheSameOnEveryBus := by
  refine ⟨fun m s b => ?_, doDma_scripted⟩
  obtain ⟨t, vs, ht⟩ := doDma_spec m s
  obtain ⟨u, ws, hu⟩ := doDma_spec m (s.setBus b)
  refine ⟨t, u, _, _, ht.exec, hu.exec, engine_ext (fun n => ?_) ?_ ?_, ?_, ?_, run_trace ht.accesses.bus,
    run_trace hu.accesses.bus, ?_⟩
  · rw [hu.ch, ht.ch, setBus_ch]
  · rw [hu.mdmaen, ht.mdmaen]
  · rw [hu.hdmaen, ht.hdmaen, setBus_engine]
  · rw [hu.response, ht.response]; rfl
  · rw [hu.accesses.pending, ht.accesses.pending, setBus_pending]
  · rw [doDmaEvents_blank, doDmaEvents_blank]; rfl

/-- A byte known where there is memory or a rom is what the Bus answers (R69). -/
theorem answer_some {k : RegionKind} (h : k ≠ .device) (v free : Byte) : answer k (some v) free = v := by
  cases k with
  | memory => rfl
  | rom => rfl
  | device => exact absurd rfl h

/-- A step that finds another agent's change does that change and nothing else. -/
theorem step_outside {s : State} {c : BusChange} {rest : List Request} (h : s.pending = .outside c :: rest) :
    step s = .next ((s.setPending rest).setBus (s.bus.changeOutside c)) := by
  simp [step, h, fetch]

/-- Settles O11: each kind of change updates one field of the Bus, and a byte it stores is the one read back. -/
theorem outsideChangeReachesOnlyItsPart : Obligations.OutsideChangeReachesOnlyItsPart := by
  intro s c rest h
  refine ⟨_, step_outside h, rfl, rfl, rfl, change_trace s.bus c, change_turns s.bus c, rfl, ?_, ?_, ?_, ?_⟩
  · rintro a v rfl
    have hread : (s.bus.changeOutside (.aByte a v)).aMem.read a.toNat = some v := Memory.read_write_same ..
    refine ⟨hread, fun y hy => Memory.read_write_ne _ _ hy, rfl, rfl, rfl, fun hk => ?_⟩
    rw [setBus_bus, Bus.answerA, hread]
    exact answer_some hk ..
  · rintro x v rfl
    have hread : (s.bus.changeOutside (.bByte x v)).bMem.read x.toNat = some v := Memory.read_write_same ..
    refine ⟨hread, fun y hy => Memory.read_write_ne _ _ hy, rfl, rfl, rfl, fun hk => ?_⟩
    rw [setBus_bus, Bus.answerB, hread]
    exact answer_some hk ..
  · rintro r rfl
    exact ⟨rfl, rfl, rfl, rfl⟩
  · rintro r rfl
    exact ⟨rfl, rfl, rfl, rfl⟩

end Sys2Proof.Machine
end

section
/-! SUPPORT. The request word and the window address as the decoder reads them (spec/30_encoding.md R91 to R97): a row's match and mask
are a test of the four fields, and the address a register has in its channel's block is its port's. -/

namespace Sys2Proof

/-! ## A row's match and mask (R93) -/

/-- The mask of a command's row: all of `z` and `cmd`, and the bits `ma` of `a` and `md` of `d` (R93). -/
def rowMask (ma : Half) (md : Byte) : Req := (0x1F : BitVec 5) ++ ma ++ md ++ (7 : BitVec 3)

theorem rowMask_z (ma : Half) (md : Byte) : (rowMask ma md).extractLsb' 27 5 = BitVec.allOnes 5 := by
  rw [rowMask, BitVec.extractLsb'_append_eq_of_le (by decide), BitVec.extractLsb'_append_eq_of_le (by decide)]
  exact BitVec.extractLsb'_append_eq_left

theorem commandWord_inj {a a' : Half} {d d' : Byte} {c c' : BitVec 3} :
    commandWord a d c = commandWord a' d' c' ↔ a = a' ∧ d = d' ∧ c = c' := by
  refine ⟨fun h => ⟨?_, ?_, ?_⟩, fun ⟨ha, hd, hc⟩ => by rw [ha, hd, hc]⟩
  · simpa using congrArg (BitVec.extractLsb' 11 16) h
  · simpa using congrArg (BitVec.extractLsb' 3 8) h
  · simpa using congrArg (BitVec.extractLsb' 0 3) h

/-- A word has a row's match bits exactly when `z` is 0, `cmd` is the row's, and `a` and `d` are the match's where the mask looks. -/
theorem and_rowMask_eq_iff (w : Req) (a ma : Half) (d md : Byte) (c : BitVec 3) :
    w &&& rowMask ma md = commandWord a d c ↔
      w.extractLsb' 27 5 = 0 ∧ w.extractLsb' 11 16 &&& ma = a ∧ w.extractLsb' 3 8 &&& md = d ∧ w.extractLsb' 0 3 = c := by
  by_cases hz : w.extractLsb' 27 5 = 0
  · rw [← command_fields w hz, rowMask, and_mask, commandWord_inj]
    simp
  · refine iff_of_false (fun h => hz ?_) fun h => hz h.1
    have h27 := congrArg (BitVec.extractLsb' 27 5) h
    rwa [BitVec.extractLsb'_and, rowMask_z, BitVec.and_allOnes, commandWord_z] at h27

section Rows
variable (w : Req)

theorem regRead_row : w &&& 0xF80007FF = 0x00000000 ↔ w.extractLsb' 27 5 = 0 ∧ w.extractLsb' 3 8 = 0 ∧ w.extractLsb' 0 3 = 0 := by
  have h := and_rowMask_eq_iff w 0#16 0#16 0 (.allOnes 8) 0
  rwa [BitVec.and_zero, BitVec.and_allOnes, eq_self, true_and] at h

theorem regWrite_row : w &&& 0xF8000007 = 0x00000001 ↔ w.extractLsb' 27 5 = 0 ∧ w.extractLsb' 0 3 = 1 := by
  have h := and_rowMask_eq_iff w 0#16 0#16 0#8 0#8 1
  rwa [BitVec.and_zero, BitVec.and_zero, eq_self, true_and, eq_self, true_and] at h

theorem initHdma_row :
    w = 0x00000002 ↔ w.extractLsb' 27 5 = 0 ∧ w.extractLsb' 11 16 = 0 ∧ w.extractLsb' 3 8 = 0 ∧ w.extractLsb' 0 3 = 2 := by
  have h := and_rowMask_eq_iff w 0 (.allOnes 16) 0 (.allOnes 8) 2
  have hm : rowMask (.allOnes 16) (.allOnes 8) = .allOnes 32 := by decide
  rwa [hm, BitVec.and_allOnes, BitVec.and_allOnes, BitVec.and_allOnes] at h

/-- The one mask of DO_HDMA's row and DO_DMA's, whose matches differ in `cmd` only. -/
theorem maskCommand_row (c : BitVec 3) :
    w &&& 0xFFFFF807 = commandWord 0 0 c ↔ w.extractLsb' 27 5 = 0 ∧ w.extractLsb' 11 16 = 0 ∧ w.extractLsb' 0 3 = c := by
  have h := and_rowMask_eq_iff w 0 (.allOnes 16) 0#8 0#8 c
  rwa [BitVec.and_zero, BitVec.and_allOnes, eq_self, true_and] at h

theorem doHdma_row : w &&& 0xFFFFF807 = 0x00000003 ↔ w.extractLsb' 27 5 = 0 ∧ w.extractLsb' 11 16 = 0 ∧ w.extractLsb' 0 3 = 3 :=
  maskCommand_row w 3

theorem doDma_row : w &&& 0xFFFFF807 = 0x00000004 ↔ w.extractLsb' 27 5 = 0 ∧ w.extractLsb' 11 16 = 0 ∧ w.extractLsb' 0 3 = 4 :=
  maskCommand_row w 4

/-! ## The decoder, row by row (R90, R93, R94) -/

theorem cmd_cases (c : BitVec 3) : c = 0 ∨ c = 1 ∨ c = 2 ∨ c = 3 ∨ c = 4 ∨ c = 5 ∨ c = 6 ∨ c = 7 := by
  revert c; decide

/-- The decoder as a test of each row's fields, in the order of the command codes. -/
theorem decodeCommand_rows : decodeCommand w =
    if w.extractLsb' 27 5 = 0 ∧ w.extractLsb' 3 8 = 0 ∧ w.extractLsb' 0 3 = 0 then .ok (.regRead (w.extractLsb' 11 16))
    else if w.extractLsb' 27 5 = 0 ∧ w.extractLsb' 0 3 = 1 then .ok (.regWrite (w.extractLsb' 11 16) (w.extractLsb' 3 8))
    else if w.extractLsb' 27 5 = 0 ∧ w.extractLsb' 11 16 = 0 ∧ w.extractLsb' 3 8 = 0 ∧ w.extractLsb' 0 3 = 2 then .ok .initHdma
    else if w.extractLsb' 27 5 = 0 ∧ w.extractLsb' 11 16 = 0 ∧ w.extractLsb' 0 3 = 3 then .ok (.doHdma (w.extractLsb' 3 8))
    else if w.extractLsb' 27 5 = 0 ∧ w.extractLsb' 11 16 = 0 ∧ w.extractLsb' 0 3 = 4 then .ok (.doDma (w.extractLsb' 3 8))
    else .error .illegalCommand := by
  unfold decodeCommand
  by_cases hz : w.extractLsb' 27 5 = 0
  · obtain h | h | h | h | h | h | h | h := cmd_cases (w.extractLsb' 0 3) <;> simp [hz, h]
  · simp only [ne_eq, hz, not_false_eq_true, if_true, false_and, if_false]

/-- R94: the words the decoder rejects, by their fields. -/
theorem decodeCommand_illegal_iff : decodeCommand w = .error .illegalCommand ↔
    w.extractLsb' 27 5 ≠ 0 ∨ 5 ≤ (w.extractLsb' 0 3).toNat ∨
      (w.extractLsb' 0 3 = 0 ∧ w.extractLsb' 3 8 ≠ 0) ∨
      (w.extractLsb' 0 3 = 2 ∧ (w.extractLsb' 11 16 ≠ 0 ∨ w.extractLsb' 3 8 ≠ 0)) ∨
      (w.extractLsb' 0 3 = 3 ∧ w.extractLsb' 11 16 ≠ 0) ∨
      (w.extractLsb' 0 3 = 4 ∧ w.extractLsb' 11 16 ≠ 0) := by
  rw [decodeCommand_rows]
  by_cases hz : w.extractLsb' 27 5 = 0
  · obtain h | h | h | h | h | h | h | h := cmd_cases (w.extractLsb' 0 3) <;> simp [hz, h, imp_iff_not_or]
  · simp only [ne_eq, hz, not_false_eq_true, true_or, false_and, if_false]

end Rows

/-- A request word decodes to one of the five commands or is rejected as IllegalCommand. -/
theorem decodeCommand_cases (w : Req) :
    decodeCommand w = .error .illegalCommand ∨ ∃ i, decodeCommand w = .ok i ∧
      ((∃ a, i = .regRead a) ∨ (∃ a d, i = .regWrite a d) ∨ i = .initHdma ∨ (∃ m, i = .doHdma m) ∨ ∃ m, i = .doDma m) := by
  rw [decodeCommand_rows]
  split_ifs <;> simp

/-! ## The register window's addresses (R96, R97) -/

@[simp] theorem decode_portAddr (acc : Access) (p : WindowPort) : decode (.window acc (portAddr p)) = .ok (portInstr acc p) := by
  rw [decode, decodeWindow, windowPort_portAddr]

/-- The address R96 and R97 give register `r` of channel `n`'s block, as the number. -/
theorem portAddr_chan (n : Chan) (r : ChanReg) :
    portAddr (.chan n r) = BitVec.ofNat 16 (0x4300 + 0x10 * n.val + (chanRegIndex r).toNat) := by
  cases r <;> (revert n; decide)

theorem decode_chanAddr (acc : Access) (n : Chan) (r : ChanReg) :
    decode (.window acc (BitVec.ofNat 16 (0x4300 + 0x10 * n.val + (chanRegIndex r).toNat))) = .ok (portInstr acc (.chan n r)) := by
  rw [← portAddr_chan, decode_portAddr]

/-- The three indexes of a block that select nothing (R97). -/
theorem decode_holeAddr (acc : Access) (n : Chan) : ∀ r ∈ [0xC, 0xD, 0xE],
    decode (.window acc (BitVec.ofNat 16 (0x4300 + 0x10 * n.val + r))) = .error (undecodedAccess acc) := by
  intro r hr
  have hole : ∀ n : Chan, ∀ r ∈ [0xC, 0xD, 0xE], windowPort (BitVec.ofNat 16 (0x4300 + 0x10 * n.val + r)) = none := by decide
  rw [decode, decodeWindow, hole n r hr]

end Sys2Proof
end

section
/-! SUPPORT. A step by what its request decodes to, and a register write at a port's address. -/

namespace Sys2Proof.Machine

theorem step_decoded {s t : State} {r : Request} {rest : List Request} {f : InstrWord} {i : Instr} (hp : s.pending = r :: rest)
    (hf : fetch r (s.setPending rest) = (some f, t)) (hd : decode f = .ok i) : step s = exec i t := by
  simp only [step, hp, hf, hd]

theorem step_rejected {s t : State} {r : Request} {rest : List Request} {f : InstrWord} {e : Reject} (hp : s.pending = r :: rest)
    (hf : fetch r (s.setPending rest) = (some f, t)) (hd : decode f = .error e) : step s = .refused (refusalOf e) := by
  simp only [step, hp, hf, hd]

theorem accessPort_read_refused {p : WindowPort} {s : State} {r : Refusal} (h : accessPort p .read s = .refused r) :
    r = .undecodedRead := by
  rw [accessPort_spec] at h
  cases p with
  | chan => cases h
  | mdmaen | hdmaen => cases h; rfl

theorem regRead_refused {a : Half} {s : State} {r : Refusal} (h : exec (.regRead a) s = .refused r) : r = .undecodedRead := by
  simp only [exec, execRegRead] at h
  split at h
  · exact accessPort_read_refused h
  · cases h; rfl

theorem regWrite_refused {a : Half} {d : Byte} {s : State} {r : Refusal} (h : exec (.regWrite a d) s = .refused r) :
    r = .undecodedWrite := by
  simp only [exec, execRegWrite] at h
  split at h
  · cases h
  · cases h; rfl

/-- No command raises IllegalCommand: only the decoder's rejection does (R94, spec/60_exceptions.md R262). -/
theorem exec_command_ne_illegal {w : Req} {i : Instr} (h : decodeCommand w = .ok i) (s : State) :
    exec i s ≠ .refused .illegalCommand := by
  intro hr
  obtain he | ⟨j, hj, hi⟩ := decodeCommand_cases w
  · cases he.symm.trans h
  · cases hj.symm.trans h
    obtain ⟨a, rfl⟩ | ⟨a, d, rfl⟩ | rfl | ⟨m, rfl⟩ | ⟨m, rfl⟩ := hi
    · cases regRead_refused hr
    · cases regWrite_refused hr
    · cases hr
    · cases hr
    · cases hr

/-- A REG_WRITE at a port's address stores its byte there, in every state (spec/43_register_access.md R230 to R232). -/
theorem exec_regWrite_portAddr (p : WindowPort) (d : Byte) (s : State) :
    exec (.regWrite (portAddr p) d) s = .next ((s.writePort d p).respond .none) := by
  simp [exec, execRegWrite]

end Sys2Proof.Machine
end

section
/-! The encoding's statements (spec/30_encoding.md R91 to R97, R109). -/

namespace Sys2Proof.Machine

/-- Settles O3: each row's mask and match test the fields the decoder tests. -/
theorem requestWordsDecodeByMatchAndMask : Obligations.RequestWordsDecodeByMatchAndMask := by
  intro w
  simp only [regRead_row, regWrite_row, initHdma_row, doHdma_row, doDma_row]
  exact decodeCommand_rows w

/-- Settles O4: a step raises IllegalCommand when the decoder does, and no command it executes raises it. -/
theorem illegalWordsAreRefused : Obligations.IllegalWordsAreRefused := by
  intro s w rest hp
  rw [← decodeCommand_illegal_iff]
  obtain he | ⟨i, hi, -⟩ := decodeCommand_cases w
  · exact iff_of_true (step_rejected hp rfl he) he
  · rw [step_decoded hp rfl hi, hi]
    exact iff_of_false (exec_command_ne_illegal hi _) nofun

/-- Settles O6: every index but 0xC to 0xE is a register's, whose port decodes to its row. -/
theorem windowAddressesSelectTheirRegisters : Obligations.WindowAddressesSelectTheirRegisters := by
  intro acc n
  refine ⟨decode_chanAddr acc n .dmap, decode_chanAddr acc n .bbad, decode_chanAddr acc n .a1tLo, decode_chanAddr acc n .a1tHi,
    decode_chanAddr acc n .a1b, decode_chanAddr acc n .dasLo, decode_chanAddr acc n .dasHi, decode_chanAddr acc n .dasb,
    decode_chanAddr acc n .a2aLo, decode_chanAddr acc n .a2aHi, decode_chanAddr acc n .ntrl, decode_chanAddr acc n .unusedB,
    decode_chanAddr acc n .unusedF, fun r hr => ?_⟩
  refine (decode_holeAddr acc n r hr).trans ?_
  cases acc <;> rfl

/-- Settles O7: every request but a table byte's hands the decoder its form without touching the state. -/
theorem stepExecutesTheDecodedInstruction : Obligations.StepExecutesTheDecodedInstruction := by
  intro s r rest hp
  refine ⟨fun f t i hf hd => step_decoded hp hf hd, ?_, ?_, ?_⟩
  · rintro w i rfl hd
    exact step_decoded hp rfl hd
  · rintro acc a i rfl hd
    exact step_decoded hp rfl hd
  · rintro u n rfl
    exact step_decoded hp rfl rfl

/-- Settles O60: the write makes MDMAEN the mask the DO_DMA is issued with. -/
theorem mdmaMeetsTheHostDuty : Obligations.MdmaMeetsTheHostDuty := by
  intro m s
  have hduty : hostDuty ((s.writePort m .mdmaen).respond .none) (.doDma m) = true := beq_self_eq_true m
  exact ⟨rfl, _, _, exec_regWrite_portAddr .mdmaen m s, hduty, exec_doDma m _⟩

end Sys2Proof.Machine
end

section
/-! SUPPORT. The transfer-mode decoder and the address generator (spec/40_transfer_mode.md R130 to R139): the offset patterns, which
modes act alike, and what one byte move and one unit make of the state. -/

namespace Sys2Proof.Machine

/-! ## Offsets and steps -/

/-- No offset pattern reaches past the third port after the base (R131), and neither does the default past a pattern's end. -/
theorem modeOffset_le (m : BitVec 3) (j : Nat) : modeOffset m j ≤ 3 := by
  have hPatterns : ∀ m : BitVec 3, ∀ o ∈ modeOffsets.getD m.toNat [], o ≤ 3 := by decide
  by_cases hj : j < (modeOffsets.getD m.toNat []).length
  · rw [modeOffset, List.getD_eq_getElem _ _ hj]
    exact hPatterns m _ (List.getElem_mem hj)
  · rw [modeOffset, List.getD_eq_default _ _ (Nat.le_of_not_lt hj)]
    exact Nat.zero_le 3

/-- Within the first unit the byte index is the offset's index. -/
theorem bAddr_of_lt (bbad : Byte) {m : BitVec 3} {k : Nat} (hk : k < unitLen m) :
    bAddr bbad m k = bbad + BitVec.ofNat 8 (modeOffset m k) := by
  rw [bAddr, Nat.mod_eq_of_lt hk]

theorem toNat_bAddr (bbad : Byte) (m : BitVec 3) (k : Nat) :
    (bAddr bbad m k).toNat = (bbad.toNat + modeOffset m (k % unitLen m)) % 256 := by
  simp [bAddr, BitVec.toNat_add]

@[simp] theorem stepA_inc (off : Half) : stepA off 0b00 = off + 1 := rfl
@[simp] theorem stepA_fixed (off : Half) : stepA off 0b01 = off := rfl
@[simp] theorem stepA_dec (off : Half) : stepA off 0b10 = off - 1 := rfl
@[simp] theorem stepA_fixedAlt (off : Half) : stepA off 0b11 = off := rfl

/-- The step writes A1T of its channel only. -/
theorem stepA1t_eq (n : Chan) (st : BitVec 2) (s : State) :
    stepA1t n st s = s.modCh n fun _ => { s.ch n with a1t := stepA (s.ch n).a1t st } := rfl

/-! ## Modes that act alike (R132) -/

/-- The two modes have one unit length and one offset pattern. -/
structure ModesAlike (m m' : BitVec 3) : Prop where
  unitLen : unitLen m' = unitLen m
  modeOffset : ∀ j, modeOffset m' j = modeOffset m j

theorem ModesAlike.refl (m : BitVec 3) : ModesAlike m m := ⟨rfl, fun _ => rfl⟩

theorem modesAlike_two_six : ModesAlike 2 6 := ⟨rfl, fun _ => rfl⟩

theorem modesAlike_three_seven : ModesAlike 3 7 := ⟨rfl, fun _ => rfl⟩

theorem ModesAlike.bAddr {m m' : BitVec 3} (h : ModesAlike m m') (bbad : Byte) (k : Nat) : bAddr bbad m' k = bAddr bbad m k := by
  rw [Machine.bAddr, Machine.bAddr, h.unitLen, h.modeOffset]

theorem ModesAlike.dmaMove {m m' : BitVec 3} (h : ModesAlike m m') (n : Chan) (dir : Bool) (k : Nat) (s : State) :
    dmaMove n dir m' k s = dmaMove n dir m k s := by
  rw [Machine.dmaMove, Machine.dmaMove, h.bAddr]

theorem ModesAlike.hdmaMove {m m' : BitVec 3} (h : ModesAlike m m') (n : Chan) (ind : Bool) (k : Nat) (s : State) :
    hdmaMove n ind m' k s = hdmaMove n ind m k s := by
  simp only [Machine.hdmaMove, h.bAddr]

theorem ModesAlike.hdmaUnit {m m' : BitVec 3} (h : ModesAlike m m') (n : Chan) (ind : Bool) (s : State) :
    hdmaUnit n ind m' s = hdmaUnit n ind m s := by
  simp only [Machine.hdmaUnit, h.unitLen, h.hdmaMove]

/-! ## One byte (R139) -/

/-- A byte moved from the A-bus to the B-bus is a run of two accesses. -/
theorem run_aToB (b : Bus) (a : Addr) (x : Byte) :
    b.run [.aRead a (b.answerA a), .bWrite x (b.answerA a)] = some ((b.readA a).writeB x (b.answerA a)) := by
  rw [run_aRead, if_pos rfl, run_bWrite, run_nil]

/-- A byte moved from the B-bus to the A-bus is a run of two accesses. -/
theorem run_bToA (b : Bus) (a : Addr) (x : Byte) :
    b.run [.bRead x (b.answerB x), .aWrite a (b.answerB x)] = some ((b.readB x).writeA a (b.answerB x)) := by
  rw [run_bRead, if_pos rfl, run_aWrite, run_nil]

/-- The side effects of a single access are those of its turn. -/
theorem sideEffects_single (b : Bus) (e : BusEvent) : b.sideEffects [e] = (b.turn e.access).effects := List.append_nil _

/-! ## One unit (spec/42_hdma.md R198) -/

/-- The offsets of mode `m`, byte by byte of its unit (R131). -/
def unitOffsets (m : BitVec 3) : List Nat := (List.range (unitLen m)).map (modeOffset m)

theorem length_unitOffsets (m : BitVec 3) : (unitOffsets m).length = unitLen m := by simp [unitOffsets]

/-- The accesses of a unit, read off the mode's offsets. -/
theorem unitEvents_eq_unitOffsets (ind : Bool) (m : BitVec 3) (c : Channel) (vs : Nat → Byte) :
    unitEvents ind m c vs = (unitOffsets m).zipIdx.flatMap fun q =>
      [.aRead (unitAddr ind c q.2) (vs q.2), .bWrite (c.bbad + BitVec.ofNat 8 q.1) (vs q.2)] := by
  have hPairs : (unitOffsets m).zipIdx = (List.range (unitLen m)).map fun k => (modeOffset m k, k) := by
    rw [List.zipIdx_eq_zip_range', length_unitOffsets, ← List.range_eq_range']
    simpa [unitOffsets] using List.zip_map' (f := modeOffset m) (g := id) (l := List.range (unitLen m))
  rw [hPairs, List.flatMap_map, unitEvents]
  refine List.flatMap_congr fun k hk => ?_
  rw [bAddr_of_lt _ (List.mem_range.mp hk)]
  rfl

/-- A unit writes no A-bus byte. -/
theorem aWrite_notMem_unitEvents {ind : Bool} {m : BitVec 3} {c : Channel} {vs : Nat → Byte} {a : Addr} {v : Byte} :
    BusEvent.aWrite a v ∉ unitEvents ind m c vs := by
  simp [unitEvents, moveEvents]

/-- A unit writes the B-bus at the base plus its mode's offsets only. -/
theorem of_bWrite_mem_unitEvents {ind : Bool} {m : BitVec 3} {c : Channel} {vs : Nat → Byte} {x v : Byte}
    (h : BusEvent.bWrite x v ∈ unitEvents ind m c vs) : ∃ o ∈ unitOffsets m, x = c.bbad + BitVec.ofNat 8 o := by
  obtain ⟨k, hk, hx⟩ := List.mem_flatMap.mp h
  have hx : x = bAddr c.bbad m k ∧ v = vs k := by simpa [moveEvents] using hx
  exact ⟨_, List.mem_map_of_mem hk, hx.1.trans (bAddr_of_lt _ (List.mem_range.mp hk))⟩

/-- A unit in mode `m` is moved with the offsets of mode `m`. -/
theorem hdmaUnit_unitMoved (n : Chan) (ind : Bool) (m : BitVec 3) (s : State) :
    unitMoved n ind (unitOffsets m) s ((hdmaUnit n ind m s).respond .none) := by
  obtain ⟨vs, h⟩ := hdmaUnit_spec n ind m s
  refine ⟨⟨vs, ?_⟩, ?_, ⟨h.others, h.mdmaen, h.hdmaen, h.pending⟩, rfl⟩
  · rw [← unitEvents_eq_unitOffsets]
    refine ⟨h.bus, run_keepsA _ (fun a v hm => aWrite_notMem_unitEvents hm) h.bus, run_keepsB _ (fun x v hm => ?_) h.bus⟩
    obtain ⟨o, ho, hx⟩ := of_bWrite_mem_unitEvents hm
    exact ⟨o, ho, congrArg BitVec.toNat hx⟩
  · rw [length_unitOffsets]
    exact h.same

end Sys2Proof.Machine
end

section
/-! SUPPORT. Control bytes that act alike (spec/40_transfer_mode.md R132; spec/42_hdma.md R206): a simulation between a state and the
same state with one channel's DMAP changed. Every shared operation and every command keeps it when the fields it reads are alike. -/

namespace Sys2Proof.Machine

/-- The two control bytes say the same to HDMA. -/
structure HdmaAlike (b b' : Byte) : Prop where
  ind : dmapInd b' = dmapInd b
  mode : ModesAlike (dmapMode b) (dmapMode b')

/-- The two control bytes say the same to DMA. -/
structure DmaAlike (b b' : Byte) : Prop where
  dir : dmapDir b' = dmapDir b
  step : dmapStep b' = dmapStep b
  mode : ModesAlike (dmapMode b) (dmapMode b')

theorem HdmaAlike.refl (b : Byte) : HdmaAlike b b := ⟨rfl, .refl _⟩

theorem DmaAlike.refl (b : Byte) : DmaAlike b b := ⟨rfl, rfl, .refl _⟩

/-- The channel with its control byte changed by `g`. -/
def Channel.mapDmap (g : Byte → Byte) (c : Channel) : Channel := { c with dmap := g c.dmap }

/-- Updates of registers that commute, on one channel or on two. -/
theorem modCh_comm {s : State} {n k : Chan} {f g : Channel → Channel} (h : ∀ c, f (g c) = g (f c)) :
    (s.modCh n g).modCh k f = (s.modCh k f).modCh n g := by
  by_cases e : k = n
  · subst e
    rw [modCh_modCh, modCh_modCh]
    exact congrArg (s.modCh k) (funext h)
  · refine state_ext (fun j => ?_) rfl rfl rfl rfl rfl
    by_cases hj : j = k
    · subst hj
      simp [modCh_ch, e]
    · simp [modCh_ch, hj, Ne.symm e]

/-- State `t` is `s` but for the control byte of channel n, changed by `g`, and `R` relates each channel's control bytes in the two. -/
structure Alike (R : Byte → Byte → Prop) (g : Byte → Byte) (n : Chan) (s t : State) : Prop where
  eq : t = s.modCh n (Channel.mapDmap g)
  rel : ∀ k, R (s.ch k).dmap (t.ch k).dmap

namespace Alike
variable {R : Byte → Byte → Prop} {g : Byte → Byte} {n : Chan} {s t : State}

theorem ofModCh (hR : ∀ b, R b b) (h : R (s.ch n).dmap (g (s.ch n).dmap)) : Alike R g n s (s.modCh n (Channel.mapDmap g)) := by
  refine ⟨rfl, fun k => ?_⟩
  rw [modCh_ch]
  split
  · next e => exact e ▸ h
  · exact hR _

/-! ### What the two states share -/

theorem bus (h : Alike R g n s t) : t.bus = s.bus := by rw [h.eq, modCh_bus]

theorem hdmaen (h : Alike R g n s t) : t.engine.hdmaen = s.engine.hdmaen := by rw [h.eq, modCh_hdmaen]

/-- A channel's registers but DMAP. -/
theorem ch (h : Alike R g n s t) (k : Chan) : ∃ d, R (s.ch k).dmap d ∧ t.ch k = { s.ch k with dmap := d } := by
  refine ⟨_, h.rel k, ?_⟩
  rw [h.eq, modCh_ch]
  split
  · next e => rw [e]; rfl
  · rfl

theorem das (h : Alike R g n s t) (k : Chan) : (t.ch k).das = (s.ch k).das := by
  obtain ⟨d, -, hd⟩ := h.ch k
  rw [hd]

/-! ### The updates -/

theorem setBus (h : Alike R g n s t) (b : Bus) : Alike R g n (s.setBus b) (t.setBus b) := ⟨by rw [h.eq]; rfl, h.rel⟩

theorem setMdmaen (h : Alike R g n s t) (v : Byte) : Alike R g n (s.setMdmaen v) (t.setMdmaen v) := ⟨by rw [h.eq]; rfl, h.rel⟩

theorem respond (h : Alike R g n s t) (r : Response) : Alike R g n (s.respond r) (t.respond r) := ⟨by rw [h.eq]; rfl, h.rel⟩

/-- An update of a channel's registers that neither reads nor writes DMAP. -/
theorem modCh (h : Alike R g n s t) (k : Chan) {f : Channel → Channel}
    (hf : ∀ c d, f { c with dmap := d } = { f c with dmap := d }) : Alike R g n (s.modCh k f) (t.modCh k f) := by
  have hDmap : ∀ c, (f c).dmap = c.dmap := fun c => (congrArg Channel.dmap (hf c c.dmap) :)
  refine ⟨?_, fun j => ?_⟩
  · rw [h.eq]
    refine modCh_comm fun c => ?_
    rw [Channel.mapDmap, hf, Channel.mapDmap, hDmap]
  · have hAt : ∀ u : State, ((u.modCh k f).ch j).dmap = (u.ch j).dmap := fun u => by
      rw [modCh_ch]
      split
      · next e => rw [hDmap, e]
      · rfl
    rw [hAt, hAt]
    exact h.rel j

theorem setA1t (h : Alike R g n s t) (k : Chan) (v : Half) : Alike R g n (s.setA1t k v) (t.setA1t k v) := h.modCh k fun _ _ => rfl

theorem setDas (h : Alike R g n s t) (k : Chan) (v : Half) : Alike R g n (s.setDas k v) (t.setDas k v) := h.modCh k fun _ _ => rfl

theorem setA2a (h : Alike R g n s t) (k : Chan) (v : Half) : Alike R g n (s.setA2a k v) (t.setA2a k v) := h.modCh k fun _ _ => rfl

theorem setNtrl (h : Alike R g n s t) (k : Chan) (v : Byte) : Alike R g n (s.setNtrl k v) (t.setNtrl k v) :=
  h.modCh k fun _ _ => rfl

theorem setActive (h : Alike R g n s t) (k : Chan) (v : Bool) : Alike R g n (s.setActive k v) (t.setActive k v) :=
  h.modCh k fun _ _ => rfl

/-! ### DMA -/

theorem byteMove (h : Alike R g n s t) (dir : Bool) (a : Addr) (x : Byte) :
    Alike R g n (byteMove dir a x s) (byteMove dir a x t) := by
  unfold Machine.byteMove
  rw [h.bus]
  split
  · exact h.setBus _
  · exact h.setBus _

theorem dmaMove (h : Alike R g n s t) (k : Chan) (dir : Bool) (m : BitVec 3) (j : Nat) :
    Alike R g n (dmaMove k dir m j s) (dmaMove k dir m j t) := by
  obtain ⟨d, -, hd⟩ := h.ch k
  unfold Machine.dmaMove
  rw [hd]
  exact h.byteMove ..

theorem stepA1t (h : Alike R g n s t) (k : Chan) (st : BitVec 2) : Alike R g n (stepA1t k st s) (stepA1t k st t) := by
  obtain ⟨d, -, hd⟩ := h.ch k
  unfold Machine.stepA1t
  rw [hd]
  exact h.setA1t ..

theorem dmaByte (h : Alike DmaAlike g n s t) (k : Chan) (j : Nat) : Alike DmaAlike g n (dmaByte k j s) (dmaByte k j t) := by
  have hRel := h.rel k
  have hStepped := (h.dmaMove k (dmapDir (s.ch k).dmap) (dmapMode (s.ch k).dmap) j).stepA1t k (dmapStep (s.ch k).dmap)
  unfold Machine.dmaByte
  dsimp only
  rw [hRel.dir, hRel.step, hRel.mode.dmaMove, hStepped.das]
  exact hStepped.setDas ..

theorem dmaLoop (h : Alike DmaAlike g n s t) (k : Chan) (fuel j cyc : Nat) :
    Alike DmaAlike g n (dmaLoop k fuel j s cyc).1 (dmaLoop k fuel j t cyc).1 := by
  induction fuel generalizing j s t cyc with
  | zero => exact h
  | succ fuel ih =>
    have hByte := h.dmaByte k j
    simp only [Machine.dmaLoop, hByte.das]
    split
    · exact hByte
    · exact ih hByte ..

theorem dmaTurn (h : Alike DmaAlike g n s t) (m : Byte) (k : Chan) : Alike DmaAlike g n (dmaTurn m s k) (dmaTurn m t k) := by
  unfold Machine.dmaTurn dmaChannel
  split
  · exact h.dmaLoop ..
  · exact h

theorem dmaBytes (h : Alike R g n s t) (m : Byte) : dmaBytes m t = dmaBytes m s := by simp only [Machine.dmaBytes, h.das]

/-! ### HDMA -/

theorem hdmaMove (h : Alike R g n s t) (k : Chan) (ind : Bool) (m : BitVec 3) (j : Nat) :
    Alike R g n (hdmaMove k ind m j s) (hdmaMove k ind m j t) := by
  obtain ⟨d, -, hd⟩ := h.ch k
  cases ind
  · simp only [Machine.hdmaMove, hd, h.bus]
    exact ((h.setBus _).setA2a ..).setBus _
  · simp only [Machine.hdmaMove, hd, h.bus]
    exact ((h.setBus _).setDas ..).setBus _

theorem hdmaUnit (h : Alike R g n s t) (k : Chan) (ind : Bool) (m : BitVec 3) :
    Alike R g n (hdmaUnit k ind m s) (hdmaUnit k ind m t) :=
  List.foldl_rel h fun _ _ _ _ h' => h'.hdmaMove ..

theorem readTable_fst (h : Alike R g n s t) (k : Chan) : (readTable k t).1 = (readTable k s).1 := by
  obtain ⟨d, -, hd⟩ := h.ch k
  simp only [readTable, hd, h.bus]
  rfl

theorem readTable_snd (h : Alike R g n s t) (k : Chan) : Alike R g n (readTable k s).2 (readTable k t).2 := by
  obtain ⟨d, -, hd⟩ := h.ch k
  simp only [readTable, hd, h.bus]
  exact (h.setBus _).setA2a ..

theorem loadIndirect (h : Alike R g n s t) (k : Chan) : Alike R g n (loadIndirect k s) (loadIndirect k t) := by
  have hLo := h.readTable_snd k
  simp only [Machine.loadIndirect, h.readTable_fst, hLo.readTable_fst]
  exact (hLo.readTable_snd k).setDas ..

theorem loadByte (h : Alike HdmaAlike g n s t) (k : Chan) (b : Byte) : Alike HdmaAlike g n (loadByte k b s) (loadByte k b t) := by
  have hNtrl := h.setNtrl k b
  simp only [Machine.loadByte, (hNtrl.rel k).ind]
  split
  · exact h.setActive ..
  · split
    · exact (hNtrl.loadIndirect k).setActive ..
    · exact hNtrl.setActive ..

theorem loadEntry (h : Alike HdmaAlike g n s t) (k : Chan) : Alike HdmaAlike g n (loadEntry k s) (loadEntry k t) := by
  unfold Machine.loadEntry
  rw [h.readTable_fst]
  exact (h.readTable_snd k).loadByte ..

theorem initChannel (h : Alike HdmaAlike g n s t) (k : Chan) : Alike HdmaAlike g n (initChannel s k) (initChannel t k) := by
  obtain ⟨d, -, hd⟩ := h.ch k
  unfold Machine.initChannel
  rw [h.hdmaen, hd]
  split
  · exact (h.setA2a ..).loadEntry k
  · exact h.setActive ..

theorem processed (h : Alike R g n s t) (m : Byte) (k : Chan) : processed m t k = processed m s k := by
  obtain ⟨d, -, hd⟩ := h.ch k
  simp only [Machine.processed, hd, h.hdmaen]

theorem countLine (h : Alike HdmaAlike g n s t) (k : Chan) : Alike HdmaAlike g n (countLine k s) (countLine k t) := by
  obtain ⟨d, -, hd⟩ := h.ch k
  simp only [Machine.countLine, hd]
  split
  · exact (h.setNtrl ..).loadEntry k
  · exact h.setNtrl ..

theorem hdmaLine (h : Alike HdmaAlike g n s t) (k : Chan) : Alike HdmaAlike g n (hdmaLine k s) (hdmaLine k t) := by
  have hRel := h.rel k
  unfold Machine.hdmaLine
  dsimp only
  rw [hRel.ind, hRel.mode.hdmaUnit]
  exact (h.hdmaUnit ..).countLine k

end Alike

/-- `Alike` for what DO_HDMA carries: the same counts, and states alike. -/
structure LineRun.Alike (g : Byte → Byte) (n : Chan) (r q : LineRun) : Prop where
  st : Machine.Alike HdmaAlike g n r.st q.st
  nch : q.nch = r.nch
  nb : q.nb = r.nb

theorem LineRun.Alike.hdmaChannel {g : Byte → Byte} {n : Chan} {r q : LineRun} (h : LineRun.Alike g n r q) (m : Byte) (k : Chan) :
    LineRun.Alike g n (hdmaChannel m r k) (hdmaChannel m q k) := by
  unfold Machine.hdmaChannel
  rw [h.st.processed, h.nch, h.nb, (h.st.rel k).mode.unitLen]
  split
  · exact ⟨h.st.hdmaLine k, rfl, rfl⟩
  · exact h

/-! ## The three commands that read DMAP -/

/-- From states alike by `R`, whichever channel and change of DMAP they differ in, the instruction goes on to states alike. -/
def KeepsAlike (R : Byte → Byte → Prop) (i : Instr) : Prop :=
  ∀ (g : Byte → Byte) (n : Chan) (s t : State), Alike R g n s t →
    ∃ s' t', exec i s = .next s' ∧ exec i t = .next t' ∧ Alike R g n s' t'

theorem doDma_keepsAlike (m : Byte) : KeepsAlike DmaAlike (.doDma m) := by
  intro g n s t h
  refine ⟨_, _, exec_doDma m s, exec_doDma m t, ?_⟩
  have hTurns : Alike DmaAlike g n (allChans.foldl (dmaTurn m) s) (allChans.foldl (dmaTurn m) t) :=
    List.foldl_rel h fun k _ _ _ h' => h'.dmaTurn m k
  rw [doDma_cycles, doDma_cycles, h.dmaBytes]
  exact (hTurns.setMdmaen 0).respond _

theorem initHdma_keepsAlike : KeepsAlike HdmaAlike .initHdma := by
  intro g n s t h
  have hTurns : Alike HdmaAlike g n (allChans.foldl initChannel s) (allChans.foldl initChannel t) :=
    List.foldl_rel h fun k _ _ _ h' => h'.initChannel k
  exact ⟨_, _, exec_initHdma s, exec_initHdma t, hTurns.respond _⟩

theorem doHdma_keepsAlike (m : Byte) : KeepsAlike HdmaAlike (.doHdma m) := by
  intro g n s t h
  have hTurns : LineRun.Alike g n (allChans.foldl (hdmaChannel m) ⟨s, 0, 0⟩) (allChans.foldl (hdmaChannel m) ⟨t, 0, 0⟩) :=
    List.foldl_rel ⟨h, rfl, rfl⟩ fun k _ _ _ h' => h'.hdmaChannel m k
  refine ⟨_, _, rfl, rfl, ?_⟩
  rw [hTurns.nch, hTurns.nb]
  exact hTurns.st.respond _

/-- With a control byte changed to one alike, an instruction that keeps states alike answers the same state with that byte changed. -/
theorem KeepsAlike.exec_modCh {R : Byte → Byte → Prop} {i : Instr} (hi : KeepsAlike R i) (hR : ∀ b, R b b) {g : Byte → Byte}
    {n : Chan} {s t : State} (h : R (s.ch n).dmap (g (s.ch n).dmap)) (ht : exec i s = .next t) :
    exec i (s.modCh n (Channel.mapDmap g)) = .next (t.modCh n (Channel.mapDmap g)) := by
  obtain ⟨s', t', hs', ht', ha⟩ := hi g n s _ (.ofModCh hR h)
  cases hs'.symm.trans ht
  rw [ht', ha.eq]

/-! ## Bit 2 of the control byte (R132) -/

/-- Setting bit 2 changes no field but MODE. -/
theorem dmap_or_four (b : Byte) : dmapDir (b ||| 0x04) = dmapDir b ∧ dmapInd (b ||| 0x04) = dmapInd b ∧
    dmapStep (b ||| 0x04) = dmapStep b ∧ dmapMode (b ||| 0x04) = dmapMode b ||| 4 := by
  revert b; decide

/-- Modes 2 and 3 act like the modes that setting bit 2 makes of them. -/
theorem modesAlike_or_four {b : Byte} (h : dmapMode b = 2 ∨ dmapMode b = 3) :
    ModesAlike (dmapMode b) (dmapMode (b ||| 0x04)) := by
  obtain ⟨-, -, -, hMode⟩ := dmap_or_four b
  rw [hMode]
  obtain h | h := h
  · rw [h]; exact modesAlike_two_six
  · rw [h]; exact modesAlike_three_seven

theorem hdmaAlike_or_four {b : Byte} (h : dmapMode b = 2 ∨ dmapMode b = 3) : HdmaAlike b (b ||| 0x04) :=
  have ⟨_, hInd, _, _⟩ := dmap_or_four b
  ⟨hInd, modesAlike_or_four h⟩

theorem dmaAlike_or_four {b : Byte} (h : dmapMode b = 2 ∨ dmapMode b = 3) : DmaAlike b (b ||| 0x04) :=
  have ⟨hDir, _, hStep, _⟩ := dmap_or_four b
  ⟨hDir, hStep, modesAlike_or_four h⟩

end Sys2Proof.Machine
end

section
/-! The transfer mode's statements (spec/40_transfer_mode.md R130 to R148). -/

namespace Sys2Proof.Machine

/-- Settles O30: both tables, evaluated at each mode. -/
theorem transferModeTable : Obligations.TransferModeTable := ⟨rfl, rfl⟩

/-- Settles O31: the sum of two bytes is taken modulo 256, and the offset is at most 3. -/
theorem bBusAddressWraps : Obligations.BBusAddressWraps :=
  fun b m k => ⟨toNat_bAddr b m k, modeOffset_le m _⟩

/-- Settles O32: each step code selects its branch of `StepA`. -/
theorem addressStepWraps : Obligations.AddressStepWraps := by
  intro off
  refine ⟨BitVec.toNat_add off 1, stepA_fixed off, ?_, stepA_fixedAlt off, rfl, rfl⟩
  rw [stepA_dec, BitVec.toNat_sub, Nat.add_comm]
  rfl

/-- Settles O33: DMAP with bit 2 set is alike to every unit that reads it, and each command keeps states alike. -/
theorem aliasedModesBehaveAlike : Obligations.AliasedModesBehaveAlike := by
  refine ⟨⟨modesAlike_two_six.unitLen, modesAlike_three_seven.unitLen,
    fun j => ⟨modesAlike_two_six.modeOffset j, modesAlike_three_seven.modeOffset j⟩⟩, fun s n h => ?_⟩
  have hDma := dmaAlike_or_four h
  have hHdma := hdmaAlike_or_four h
  exact ⟨fun m _ => (doDma_keepsAlike m).exec_modCh DmaAlike.refl (g := (· ||| 0x04)) hDma,
    fun _ => initHdma_keepsAlike.exec_modCh HdmaAlike.refl (g := (· ||| 0x04)) hHdma,
    fun m _ => (doHdma_keepsAlike m).exec_modCh HdmaAlike.refl (g := (· ||| 0x04)) hHdma⟩

/-- Settles O35: a route row is one byte move, a run of its two accesses. -/
theorem routeRowsMoveOneByte : Obligations.RouteRowsMoveOneByte := by
  intro s n k i p st m
  constructor
  · have hRun := run_aToB s.bus (s.ch n).dmaAddr (bAddr (s.ch n).bbad m k.toNat)
    refine ⟨_, rfl, rfl, rfl, rfl, rfl, run_trace hRun, run_keepsA _ (by simp) hRun, run_keepsB _ (by simp) hRun,
      fun hKind hSpares => ?_⟩
    exact writeB_read _ _ _ hKind fun x v hm => hSpares x v ((sideEffects_single ..).symm ▸ hm)
  · have hRun := run_bToA s.bus (s.ch n).dmaAddr (bAddr (s.ch n).bbad m k.toNat)
    refine ⟨_, rfl, rfl, rfl, rfl, rfl, run_trace hRun, run_keepsB _ (by simp) hRun, run_keepsA _ (by simp) hRun,
      fun hKind hSpares => ?_⟩
    exact writeA_read _ _ _ hKind fun a v hm => hSpares a v ((sideEffects_single ..).symm ▸ hm)

/-- Settles O36: each step code selects its branch of `StepA`, and stepping A1T updates that register of its channel only. -/
theorem stepRowsStepOnce : Obligations.StepRowsStepOnce := by
  intro s n d i p m
  simp only [exec, execStepInc, execStepFixed, execStepDec, execStepFixedAlt, stepA1t_eq, stepA_inc, stepA_fixed, stepA_dec,
    stepA_fixedAlt, and_self]

/-- Settles O38: a mode row moves its mode's unit, whose offsets the table gives; aliased modes move the same unit. -/
theorem modeRowsMoveOneUnit : Obligations.ModeRowsMoveOneUnit := by
  intro s n d i p st
  have hMode2 := modesAlike_two_six.hdmaUnit n i s
  have hMode3 := modesAlike_three_seven.hdmaUnit n i s
  refine ⟨⟨_, rfl, hdmaUnit_unitMoved n i 0 s⟩, ⟨_, rfl, hdmaUnit_unitMoved n i 1 s⟩, ⟨_, rfl, hdmaUnit_unitMoved n i 2 s⟩,
    ⟨_, rfl, hdmaUnit_unitMoved n i 3 s⟩, ⟨_, rfl, hdmaUnit_unitMoved n i 4 s⟩, ⟨_, rfl, hdmaUnit_unitMoved n i 5 s⟩,
    ⟨_, rfl, hdmaUnit_unitMoved n i 6 s⟩, ⟨_, rfl, hdmaUnit_unitMoved n i 7 s⟩, ?_, ?_⟩
  · simp only [exec, execMode6, execMode2, hMode2]
  · simp only [exec, execMode7, execMode3, hMode3]

end Sys2Proof.Machine
end

section
/-! SUPPORT. DO_DMA in the terms of spec/41_dma.md: its turns are the selected channels' DMAs (R161, R162), its accesses are counted
(R171) and the addresses it writes named (R164, R165), and it is blind to the HDMA state (R170). -/

namespace Sys2Proof.Machine

/-! ## The selected channels (R161, R168) -/

/-- The state a selected channel's DMA leaves, the cycle sum left out. -/
def dmaRun (s : State) (n : Chan) : State := (dmaLoop n 65536 0 s 0).1

theorem dmaTurn_eq (m : Byte) (s : State) (n : Chan) : dmaTurn m s n = if maskBit m n then dmaRun s n else s := by
  unfold dmaTurn dmaChannel
  split
  · exact dmaLoop_state ..
  · rfl

/-- DO_DMA's turns are the DMAs of the channels the mask selects, in order. -/
theorem dmaTurns_eq (m : Byte) (s : State) : allChans.foldl (dmaTurn m) s = (allChans.filter (maskBit m)).foldl dmaRun s := by
  rw [List.foldl_filter]
  exact congrArg (allChans.foldl · s) (funext₂ fun s n => dmaTurn_eq m s n)

/-- Mask 0 selects no channel. -/
theorem selected_zero : allChans.filter (maskBit 0) = [] := by decide

/-- A mask with bit n alone selects channel n alone. -/
theorem selected_twoPow (n : Chan) : allChans.filter (maskBit (BitVec.twoPow 8 n.val)) = [n] := by
  revert n; decide

theorem dmaSelected_zero : dmaSelected 0 = 0 := by decide

theorem dmaBytes_zero (s : State) : dmaBytes 0 s = 0 := by simp [dmaBytes, maskBit]

/-! ## The accesses, counted (R171) -/

@[simp] theorem length_moveEvents (dir : Bool) (a : Addr) (x v : Byte) : (moveEvents dir a x v).length = 2 := by
  cases dir <;> rfl

theorem length_dmaEvents (c : Channel) (vs : Nat → Byte) : (dmaEvents c vs).length = 2 * dmaCount c.das := by
  simp [dmaEvents, List.length_flatMap, Nat.mul_comm]

/-- Two accesses for each byte moved. -/
theorem length_doDmaEvents (m : Byte) (s : State) (vs : Chan → Nat → Byte) :
    (doDmaEvents m s vs).length = 2 * dmaBytes m s := by
  rw [doDmaEvents, List.length_flatMap, dmaBytes, ← List.sum_map_mul_left]
  refine congrArg List.sum (List.map_congr_left fun n _ => ?_)
  split
  · exact length_dmaEvents ..
  · rfl

/-- Eight channels of at most 65536 bytes each. -/
theorem dmaBytes_le (m : Byte) (s : State) : dmaBytes m s ≤ 524288 := by
  refine (List.sum_le_card_nsmul _ 65536 fun b hb => ?_).trans_eq (by simp)
  obtain ⟨n, -, rfl⟩ := List.mem_map.mp hb
  split
  · exact dmaCount_le _
  · exact Nat.zero_le _

/-! ## The addresses written (R164, R165, R172) -/

/-- An access of a DO_DMA is one of byte k's move, k below the count of a selected channel. -/
theorem mem_doDmaEvents_iff {m : Byte} {s : State} {vs : Chan → Nat → Byte} {e : BusEvent} : e ∈ doDmaEvents m s vs ↔
    ∃ n k, maskBit m n = true ∧ k < dmaCount (s.ch n).das ∧ e ∈ moveEvents (dmapDir (s.ch n).dmap)
      (mkAddr (s.ch n).a1b (a1tAfter (s.ch n) k)) (bAddr (s.ch n).bbad (dmapMode (s.ch n).dmap) k) (vs n k) := by
  simp only [doDmaEvents, dmaEvents, List.mem_flatMap, mem_allChans, true_and, List.mem_ite_nil_right, List.mem_range,
    exists_and_left]

theorem aWrite_mem_moveEvents_iff {dir : Bool} {a a' : Addr} {x v v' : Byte} :
    BusEvent.aWrite a' v' ∈ moveEvents dir a x v ↔ dir = true ∧ a' = a ∧ v' = v := by
  cases dir <;> simp [moveEvents]

theorem bWrite_mem_moveEvents_iff {dir : Bool} {a : Addr} {x x' v v' : Byte} :
    BusEvent.bWrite x' v' ∈ moveEvents dir a x v ↔ dir = false ∧ x' = x ∧ v' = v := by
  cases dir <;> simp [moveEvents]

/-! ## Changes DMA is blind to (R170) -/

/-- The channel with other HDMA state. -/
def Channel.withHdma (x : Bool) (v : Byte) (p : Half) (c : Channel) : Channel := { c with active := x, ntrl := v, a2a := p }

/-- A change `g` of the state that leaves alone all that DO_DMA reads and does not meddle with what it writes. -/
structure DmaBlind (g : State → State) : Prop where
  bus : ∀ s, (g s).bus = s.bus
  ch : ∀ s n, ∃ x v p, (g s).ch n = (s.ch n).withHdma x v p
  setBus : ∀ s b, (g s).setBus b = g (s.setBus b)
  setA1t : ∀ s n a, (g s).setA1t n a = g (s.setA1t n a)
  setDas : ∀ s n a, (g s).setDas n a = g (s.setDas n a)
  setMdmaen : ∀ s v, (g s).setMdmaen v = g (s.setMdmaen v)
  respond : ∀ s r, (g s).respond r = g (s.respond r)

namespace DmaBlind
variable {g : State → State}

theorem das (h : DmaBlind g) (s : State) (n : Chan) : ((g s).ch n).das = (s.ch n).das := by
  obtain ⟨_, _, _, hc⟩ := h.ch s n
  rw [hc]
  rfl

theorem dmap (h : DmaBlind g) (s : State) (n : Chan) : ((g s).ch n).dmap = (s.ch n).dmap := by
  obtain ⟨_, _, _, hc⟩ := h.ch s n
  rw [hc]
  rfl

theorem byteMove (h : DmaBlind g) (dir : Bool) (a : Addr) (x : Byte) (s : State) :
    byteMove dir a x (g s) = g (byteMove dir a x s) := by
  unfold Machine.byteMove
  rw [h.bus]
  split
  · exact h.setBus ..
  · exact h.setBus ..

theorem dmaMove (h : DmaBlind g) (n : Chan) (dir : Bool) (m : BitVec 3) (k : Nat) (s : State) :
    dmaMove n dir m k (g s) = g (dmaMove n dir m k s) := by
  obtain ⟨_, _, _, hc⟩ := h.ch s n
  unfold Machine.dmaMove
  rw [hc]
  exact h.byteMove ..

theorem stepA1t (h : DmaBlind g) (n : Chan) (st : BitVec 2) (s : State) : stepA1t n st (g s) = g (stepA1t n st s) := by
  obtain ⟨_, _, _, hc⟩ := h.ch s n
  unfold Machine.stepA1t
  rw [hc]
  exact h.setA1t ..

theorem dmaByte (h : DmaBlind g) (n : Chan) (k : Nat) (s : State) : dmaByte n k (g s) = g (dmaByte n k s) := by
  simp only [Machine.dmaByte, h.dmap, h.dmaMove, h.stepA1t, h.das, h.setDas]

theorem dmaLoop (h : DmaBlind g) (n : Chan) (fuel k : Nat) (s : State) (cyc : Nat) :
    (dmaLoop n fuel k (g s) cyc).1 = g (dmaLoop n fuel k s cyc).1 := by
  induction fuel generalizing k s cyc with
  | zero => rfl
  | succ fuel ih =>
    simp only [Machine.dmaLoop, h.dmaByte, h.das]
    split
    · rfl
    · exact ih ..

theorem dmaTurns (h : DmaBlind g) (m : Byte) (s : State) :
    allChans.foldl (dmaTurn m) (g s) = g (allChans.foldl (dmaTurn m) s) := by
  rw [dmaTurns_eq, dmaTurns_eq]
  exact List.foldl_hom g fun s n => h.dmaLoop n 65536 0 s 0

theorem dmaBytes (h : DmaBlind g) (m : Byte) (s : State) : dmaBytes m (g s) = dmaBytes m s := by
  simp only [Machine.dmaBytes, h.das]

/-- DO_DMA of the changed state answers its own next state with that change. -/
theorem exec_doDma (h : DmaBlind g) {m : Byte} {s t : State} (ht : exec (.doDma m) s = .next t) :
    exec (.doDma m) (g s) = .next (g t) := by
  rw [Machine.exec_doDma, Host.Outcome.next.injEq] at ht
  subst ht
  rw [Machine.exec_doDma, h.dmaTurns, doDma_cycles, doDma_cycles, h.dmaBytes, h.setMdmaen, h.respond]

/-- Other values of a channel's HDMA registers and of HDMAEN (R170). -/
theorem hdmaState (n : Chan) (x : Bool) (v : Byte) (p : Half) (w : Byte) :
    DmaBlind fun s => (s.modCh n (Channel.withHdma x v p)).setHdmaen w where
  bus _ := rfl
  ch s k := by
    rw [setHdmaen_ch, modCh_ch]
    split
    · next e => exact ⟨x, v, p, e ▸ rfl⟩
    · exact ⟨_, _, _, rfl⟩
  setBus _ _ := rfl
  setA1t _ _ a := congrArg (State.setHdmaen · w)
    (modCh_comm (g := .withHdma x v p) (f := fun c => { c with a1t := a }) fun _ => rfl)
  setDas _ _ a := congrArg (State.setHdmaen · w)
    (modCh_comm (g := .withHdma x v p) (f := fun c => { c with das := a }) fun _ => rfl)
  setMdmaen _ _ := rfl
  respond _ _ := rfl

end DmaBlind

/-! ## One byte, and the rows (R160; spec/30_encoding.md R100 to R102) -/

/-- With its counter at 1 a channel's DMA is one byte (R163). -/
theorem dmaRun_of_das_one {s : State} {n : Chan} (h : (s.ch n).das = 1) : dmaRun s n = dmaByte n 0 s := by
  obtain ⟨_, hByte⟩ := dmaByte_spec n 0 s
  have hDone : ((dmaByte n 0 s).ch n).das = 0 := by rw [hByte.same, h]; rfl
  rw [dmaRun, dmaLoop, if_pos hDone]

/-- The last byte of a DMA leaves the counter 0. -/
theorem dmaByte_of_das_one {s : State} {n : Chan} (k : Nat) (h : (s.ch n).das = 1) :
    dmaByte n k s = (stepA1t n (dmapStep (s.ch n).dmap)
      (dmaMove n (dmapDir (s.ch n).dmap) (dmapMode (s.ch n).dmap) k s)).setDas n 0 := by
  obtain ⟨_, hMove⟩ := dmaMove_spec n (dmapDir (s.ch n).dmap) (dmapMode (s.ch n).dmap) k s
  have hStep := stepA1t_spec n (dmapStep (s.ch n).dmap) (dmaMove n (dmapDir (s.ch n).dmap) (dmapMode (s.ch n).dmap) k s)
  have hZero : (1 : Half) - 1 = 0 := rfl
  simp only [dmaByte, hStep.same, hMove.same, h, hZero]

/-- The route row of a control byte moves one byte in its direction and mode. -/
theorem exec_route (k : Half) (n : Chan) (b : Byte) (s : State) :
    exec (decodeControl (.route k) n b) s = .next ((dmaMove n (dmapDir b) (dmapMode b) k.toNat s).respond .none) := by
  cases h : dmapDir b <;> simp only [decodeControl, h] <;> rfl

/-- The step row of a control byte steps A1T by its code. -/
theorem exec_step (n : Chan) (b : Byte) (s : State) :
    exec (decodeControl .step n b) s = .next ((stepA1t n (dmapStep b) s).respond .none) := by
  have hCode : ∀ st : BitVec 2, st = 0 ∨ st = 1 ∨ st = 2 ∨ st = 3 := by decide
  obtain h | h | h | h := hCode (dmapStep b) <;> simp only [decodeControl, decodeStep, h] <;> rfl

end Sys2Proof.Machine
end

section
/-! General DMA's statements (spec/41_dma.md R160 to R172). -/

namespace Sys2Proof.Machine

/-- Settles O41: the closed form of the command. -/
theorem doDmaMovesExactlyItsBytes : Obligations.DoDmaMovesExactlyItsBytes := by
  intro m s
  obtain ⟨t, vs, h⟩ := doDma_spec m s
  exact ⟨t, vs, h.exec, h.accesses.bus, h.ch, h.mdmaen, h.hdmaen, h.accesses.pending⟩

/-- Settles O42: each selected channel adds its start and its bytes to the cycle sum. -/
theorem doDmaReturnsItsCycles : Obligations.DoDmaReturnsItsCycles := by
  intro m s
  obtain ⟨t, _, h⟩ := doDma_spec m s
  exact ⟨t, h.exec, h.response⟩

/-- Settles O43: the command's last write is that of MDMAEN. -/
theorem doDmaClearsMdmaen : Obligations.DoDmaClearsMdmaen := by
  intro m s
  obtain ⟨t, _, h⟩ := doDma_spec m s
  exact ⟨t, h.exec, h.mdmaen⟩

/-- Settles O44: mask 0 selects no channel, so there is no turn, no byte and no cost. -/
theorem doDmaOfNothing : Obligations.DoDmaOfNothing := by
  intro s
  rw [exec_doDma, dmaTurns_eq, selected_zero, doDma_cycles, dmaSelected_zero, dmaBytes_zero, Nat.zero_mul, Nat.zero_mul]
  rfl

/-- Settles O45: the closed form writes none of the HDMA state, and DO_DMA is blind to a change of it. -/
theorem doDmaLeavesHdmaStateAlone : Obligations.DoDmaLeavesHdmaStateAlone := by
  intro m s
  obtain ⟨t, _, h⟩ := doDma_spec m s
  refine ⟨t, h.exec, h.hdmaen, fun n => ?_, fun n x v p w => (DmaBlind.hdmaState n x v p w).exec_doDma h.exec⟩
  rw [h.ch n]
  split
  · exact ⟨rfl, rfl, rfl, fun _ => rfl⟩
  · next hm => exact ⟨rfl, rfl, rfl, fun hn => absurd hn hm⟩

/-- Settles O46: a run appends its accesses to the trace, two for each byte of at most eight channels. -/
theorem doDmaIsBounded : Obligations.DoDmaIsBounded := by
  intro m s
  obtain ⟨t, vs, h⟩ := doDma_spec m s
  refine ⟨t, h.exec, dmaBytes_le m s, ?_⟩
  rw [run_trace h.accesses.bus, List.length_append, length_doDmaEvents]

/-- Settles O48: a run keeps what its accesses do not write, and those of DO_DMA write where its bytes go. -/
theorem doDmaStoresOnlyWhereItMoves : Obligations.DoDmaStoresOnlyWhereItMoves := by
  intro m s
  obtain ⟨t, vs, h⟩ := doDma_spec m s
  refine ⟨t, _, h.exec, h.accesses.bus, run_keepsA _ (fun a v hv => ?_) h.accesses.bus,
    run_keepsB _ (fun x v hv => ?_) h.accesses.bus⟩
  · obtain ⟨n, k, hm, hk, hMove⟩ := mem_doDmaEvents_iff.mp hv
    obtain ⟨hDir, rfl, -⟩ := aWrite_mem_moveEvents_iff.mp hMove
    exact ⟨n, k, hm, hDir, hk, rfl⟩
  · obtain ⟨n, k, hm, hk, hMove⟩ := mem_doDmaEvents_iff.mp hv
    obtain ⟨hDir, rfl, -⟩ := bWrite_mem_moveEvents_iff.mp hMove
    exact ⟨n, k, hm, hDir, hk, rfl⟩

/-- Settles O49: the mask selects one channel, whose DMA is one byte, moved and stepped as by its rows. -/
theorem oneByteDmaIsItsRows : Obligations.OneByteDmaIsItsRows := by
  intro s u v n hDas hu hv
  rw [exec_route, Host.Outcome.next.injEq] at hu
  subst hu
  rw [exec_step, Host.Outcome.next.injEq] at hv
  subst hv
  have hTurns : allChans.foldl (dmaTurn (BitVec.twoPow 8 n.val)) s = dmaByte n 0 s := by
    rw [dmaTurns_eq, selected_twoPow, List.foldl_cons, List.foldl_nil, dmaRun_of_das_one hDas]
  refine ⟨_, exec_doDma _ s, ?_⟩
  rw [hTurns, dmaByte_of_das_one 0 hDas]
  exact ⟨rfl, fun _ => rfl⟩

end Sys2Proof.Machine
end

section
/-! SUPPORT. One channel's part of HDMA in the terms of spec/42_hdma.md: the line counter and how long an entry lasts (R199 to R201,
R207), the accesses counted and the addresses written (R198, R209), and the rows that stand for a data byte, a unit and a table byte
(R192, R197; spec/30_encoding.md R103 to R105). -/

namespace Sys2Proof.Machine

/-! ## The line counter (R199 to R201) -/

theorem lineCount_append (x : BitVec 1) (c : BitVec 7) : lineCount (x ++ c) = c := BitVec.extractLsb'_append_eq_right

@[simp] theorem lineCount_decLine (b : Byte) : lineCount (decLine b) = lineCount b - 1 := lineCount_append ..

@[simp] theorem repeatFlag_decLine (b : Byte) : repeatFlag (decLine b) = repeatFlag b := by
  rw [repeatFlag, decLine, BitVec.getLsbD_append, if_neg (by decide)]
  cases repeatFlag b <;> rfl

theorem reloadDue_iff (b : Byte) : reloadDue b = true ↔
    (repeatFlag b = false ∧ lineCount b - 1 = 0) ∨ (repeatFlag b = true ∧ lineCount b = 0) := by
  cases h : repeatFlag b <;> simp [reloadDue, h]

/-- An entry has a line left while it stands. -/
theorem entryLines_pos (b : Byte) : 0 < entryLines b := by
  unfold entryLines
  split
  · exact Nat.succ_pos _
  · split
    · decide
    · next h => exact Nat.pos_of_ne_zero fun e => h (BitVec.eq_of_toNat_eq e)

/-- The line that reloads is the entry's last. -/
theorem entryLines_of_reloadDue {b : Byte} (h : reloadDue b = true) : entryLines b = 1 := by
  obtain ⟨hRepeat, hCount⟩ | ⟨hRepeat, hCount⟩ := (reloadDue_iff b).mp h
  · have hOne : lineCount b = 1 := BitVec.sub_eq_iff_eq_add.mp hCount
    simp [entryLines, hRepeat, hOne]
  · simp [entryLines, hRepeat, hCount]

/-- Any other line leaves the entry one line shorter. -/
theorem entryLines_decLine {b : Byte} (h : reloadDue b = false) : entryLines (decLine b) + 1 = entryLines b := by
  have hDue := (reloadDue_iff b).not.mp (by simp [h])
  cases hRepeat : repeatFlag b with
  | true =>
    have hCount : lineCount b ≠ 0 := fun e => hDue (.inr ⟨hRepeat, e⟩)
    simp only [entryLines, repeatFlag_decLine, lineCount_decLine, hRepeat, if_true]
    bv_omega
  | false =>
    have hCount : lineCount b - 1 ≠ 0 := fun e => hDue (.inl ⟨hRepeat, e⟩)
    simp only [entryLines, repeatFlag_decLine, lineCount_decLine, hRepeat, Bool.false_eq_true, if_false, hCount]
    split <;> bv_omega

/-! ## The channel after some lines (R197, R199) -/

/-- A channel `j` lines on in its entry. -/
def lineAt (c : Channel) (j : Nat) : Channel :=
  { pointerPast (dmapInd c.dmap) (j * unitLen (dmapMode c.dmap)) c with ntrl := decLine^[j] c.ntrl }

theorem lineAt_zero (c : Channel) : lineAt c 0 = c := by
  cases h : dmapInd c.dmap <;> simp [lineAt, pointerPast, h]

@[simp] theorem lineCounted_ntrl (c : Channel) : (lineCounted c).ntrl = decLine c.ntrl := rfl

@[simp] theorem lineCounted_dmap (c : Channel) : (lineCounted c).dmap = c.dmap := pointerPast_dmap ..

@[simp] theorem lineCounted_active (c : Channel) : (lineCounted c).active = c.active :=
  (pointerPast_movesOnly (dmapInd c.dmap) _ c).active

theorem pointerPast_withNtrl (ind : Bool) (k : Nat) (c : Channel) (v : Byte) :
    pointerPast ind k { c with ntrl := v } = { pointerPast ind k c with ntrl := v } := by
  cases ind <;> rfl

/-- A line counted and `j` lines more. -/
theorem lineAt_lineCounted (c : Channel) (j : Nat) : lineAt (lineCounted c) j = lineAt c (j + 1) := by
  simp only [lineAt, lineCounted_dmap, lineCounted_ntrl]
  rw [lineCounted, pointerPast_withNtrl, pointerPast_add, Nat.succ_mul, Nat.add_comm]
  rfl

theorem lineAt_one (c : Channel) : lineAt c 1 = lineCounted c := by
  rw [← lineAt_lineCounted, lineAt_zero]

theorem lineDone_of_due {c : Channel} (h : reloadDue c.ntrl = true) (b lo hi : Byte) :
    lineDone c b lo hi = entryDone (lineCounted c) b lo hi := if_pos h

theorem lineDone_of_not_due {c : Channel} (h : reloadDue c.ntrl = false) (b lo hi : Byte) : lineDone c b lo hi = lineCounted c :=
  if_neg (by simp [h])

/-! ## The accesses, counted (R209) -/

theorem length_unitEvents (ind : Bool) (m : BitVec 3) (c : Channel) (vs : Nat → Byte) :
    (unitEvents ind m c vs).length = 2 * unitLen m := by
  simp [unitEvents, List.length_flatMap, Nat.mul_comm]

theorem length_entryEvents_le (c : Channel) (b lo hi : Byte) : (entryEvents c b lo hi).length ≤ 3 := by
  unfold entryEvents
  split <;> simp

theorem length_lineEvents_le (c : Channel) (vs : Nat → Byte) (b lo hi : Byte) :
    (lineEvents c vs b lo hi).length ≤ 2 * unitLen (dmapMode c.dmap) + 3 := by
  rw [lineEvents, List.length_append, length_unitEvents]
  refine Nat.add_le_add_left ?_ _
  split
  · exact length_entryEvents_le ..
  · exact Nat.zero_le 3

/-! ## The addresses written (R191, R198) -/

theorem aWrite_notMem_entryEvents {c : Channel} {b lo hi : Byte} {a : Addr} {v : Byte} :
    BusEvent.aWrite a v ∉ entryEvents c b lo hi := fun h => by
  obtain ⟨_, _, e⟩ := of_mem_entryEvents h
  cases e

theorem bWrite_notMem_entryEvents {c : Channel} {b lo hi : Byte} {x v : Byte} :
    BusEvent.bWrite x v ∉ entryEvents c b lo hi := fun h => by
  obtain ⟨_, _, e⟩ := of_mem_entryEvents h
  cases e

theorem aWrite_notMem_lineEvents {c : Channel} {vs : Nat → Byte} {b lo hi : Byte} {a : Addr} {v : Byte} :
    BusEvent.aWrite a v ∉ lineEvents c vs b lo hi := fun h => by
  obtain ⟨_, _, e⟩ | ⟨_, _, e⟩ := of_mem_lineEvents h <;> cases e

/-- A line writes the B-bus at its unit's addresses only. -/
theorem of_bWrite_mem_lineEvents {c : Channel} {vs : Nat → Byte} {b lo hi x v : Byte}
    (h : BusEvent.bWrite x v ∈ lineEvents c vs b lo hi) :
    ∃ k < unitLen (dmapMode c.dmap), x = bAddr c.bbad (dmapMode c.dmap) k := by
  obtain h | h := List.mem_append.mp h
  · obtain ⟨k, hk, hMove⟩ := List.mem_flatMap.mp h
    exact ⟨k, List.mem_range.mp hk, (bWrite_mem_moveEvents_iff.mp hMove).2.1⟩
  · split at h
    · exact absurd h bWrite_notMem_entryEvents
    · cases h

/-! ## One data byte (R197) -/

/-- The address an HDMA data byte is read at (R197). -/
def Channel.dataAddr (ind : Bool) (c : Channel) : Addr := if ind then c.indirectAddr else c.tableAddr

theorem unitAddr_zero (ind : Bool) (c : Channel) : unitAddr ind c 0 = c.dataAddr ind := by
  cases ind <;> simp [unitAddr, Channel.dataAddr, Channel.indirectAddr, Channel.tableAddr]

/-- `hdmaMove_spec` with its byte: the one the A-bus answers. -/
theorem hdmaMove_answer (n : Chan) (ind : Bool) (m : BitVec 3) (k : Nat) (s : State) :
    ChanStep n s (hdmaMove n ind m k s) (pointerPast ind 1 (s.ch n))
      (moveEvents false ((s.ch n).dataAddr ind) (bAddr (s.ch n).bbad m k) (s.bus.answerA ((s.ch n).dataAddr ind))) := by
  obtain ⟨v, h⟩ := hdmaMove_spec n ind m k s
  rw [unitAddr_zero] at h
  obtain ⟨hFirst, -⟩ := run_cons.mp h.bus
  obtain ⟨-, rfl⟩ := BusEvent.aRead.inj hFirst
  exact h

/-- A byte moved from the A-bus to the B-bus is stored at its B-bus address only. -/
theorem aToB_frame {b b' : Bus} {a : Addr} {x v : Byte} (h : b.run (moveEvents false a x v) = some b') :
    b'.trace = b.trace ++ moveEvents false a x v ∧ b.keepsA b' (moveEvents false a x v) (fun _ => False) ∧
      b.keepsB b' (moveEvents false a x v) (fun y => y = x.toNat) :=
  ⟨run_trace h, run_keepsA _ (by simp [moveEvents]) h, run_keepsB _ (by simp [moveEvents]) h⟩

/-! ## The rows (spec/30_encoding.md R104, R105) -/

/-- The MODE row of a control byte moves one unit in its addressing and mode. -/
theorem exec_mode (n : Chan) (b : Byte) (s : State) :
    exec (decodeControl .mode n b) s = .next ((hdmaUnit n (dmapInd b) (dmapMode b) s).respond .none) := by
  obtain h | h | h | h | h | h | h | h := cmd_cases (dmapMode b) <;> simp only [decodeControl, decodeMode, h] <;> rfl

/-- A table byte with bit 7 set is that bit and the line count. -/
theorem tableByte_repeat : ∀ b : Byte, b.getLsbD 7 = true → (1 : BitVec 1) ++ b.extractLsb' 0 7 = b := by decide

/-- A table byte with bit 7 clear is the line count. -/
theorem tableByte_once : ∀ b : Byte, b.getLsbD 7 = false → (0 : BitVec 1) ++ b.extractLsb' 0 7 = b := by decide

/-- The row of a table byte does what LoadEntry does with that byte. -/
theorem exec_decodeTable (n : Chan) (b : Byte) (s : State) :
    exec (decodeTable n b) s = .next ((loadByte n b s).respond .none) := by
  unfold decodeTable
  split
  · next h => rw [h]; rfl
  · split
    · next h => rw [exec, execHdmaEntryRepeat, tableByte_repeat b h]
    · next h => rw [exec, execHdmaEntry, tableByte_once b (by simpa using h)]

/-- An entry's row is its byte's, which is not the terminator. -/
theorem exec_entryRow {i : Instr} {c : BitVec 7} {b : Byte} (n : Chan) (s : State)
    (h : (i = .hdmaEntry n c ∧ c ≠ 0 ∧ b = (0 : BitVec 1) ++ c) ∨ (i = .hdmaEntryRepeat n c ∧ b = (1 : BitVec 1) ++ c)) :
    exec i s = .next ((loadByte n b s).respond .none) ∧ b ≠ 0 := by
  obtain ⟨rfl, hc, rfl⟩ | ⟨rfl, rfl⟩ := h
  · exact ⟨rfl, fun e => hc ((lineCount_append 0 c).symm.trans (congrArg lineCount e))⟩
  · exact ⟨rfl, fun e => absurd (congrArg (BitVec.extractLsb' 7 1) e) (by rw [BitVec.extractLsb'_append_eq_left]; decide)⟩

/-- The step of a table request: its byte read, and that byte's row. -/
theorem step_tableByte {s : State} {n : Chan} {rest : List Request} (h : s.pending = .table n :: rest) :
    step s = exec (decodeTable n (readTable n (s.setPending rest)).1) (readTable n (s.setPending rest)).2 :=
  step_decoded h rfl rfl

/-- The step of a table request is LoadEntry. -/
theorem step_table {s : State} {n : Chan} {rest : List Request} (h : s.pending = .table n :: rest) :
    step s = .next ((loadEntry n (s.setPending rest)).respond .none) := by
  rw [step_tableByte h, exec_decodeTable]
  rfl

theorem loadByte_setPending_respond (n : Chan) (b : Byte) (s : State) (q : List Request) (r : Response) :
    loadByte n b ((s.setPending q).respond r) = ((loadByte n b s).setPending q).respond r := by
  have hDmap : (((s.setPending q).respond r).setNtrl n b).ch n = (s.setNtrl n b).ch n := rfl
  simp only [loadByte, hDmap]
  split
  · rfl
  · split <;> rfl

/-- LoadEntry neither reads nor changes the queue and the response. -/
theorem loadEntry_setPending_respond (n : Chan) (s : State) (q : List Request) (r : Response) :
    loadEntry n ((s.setPending q).respond r) = ((loadEntry n s).setPending q).respond r :=
  loadByte_setPending_respond n _ (readTable n s).2 q r

/-- A table request waiting alone is LoadEntry, whatever the last response. -/
theorem step_table_alone (n : Chan) (s : State) (r : Response) :
    step ((s.respond r).setPending [.table n]) = .next (((loadEntry n s).setPending []).respond .none) := by
  have hLoad : loadEntry n (((s.respond r).setPending [.table n]).setPending []) = ((loadEntry n s).setPending []).respond r :=
    loadEntry_setPending_respond n s [] r
  rw [step_table rfl, hLoad]
  rfl

theorem setNtrl_respond (n : Chan) (v : Byte) (s : State) (r : Response) :
    (s.respond r).setNtrl n v = (s.setNtrl n v).respond r := rfl

end Sys2Proof.Machine
end

section
/-! SUPPORT. INIT_HDMA and DO_HDMA whole (spec/42_hdma.md R191, R195): the result of each command, the counts of the response (R203), the
one channel a mask selects, and DO_HDMA command after command. -/

namespace Sys2Proof.Machine

/-! ## The counts (R203) -/

theorem processed_eq_false_iff {m : Byte} {s : State} {n : Chan} : processed m s n = false ↔
    (s.ch n).active = false ∨ maskBit s.engine.hdmaen n = false ∨ maskBit m n = false := by
  rw [processed, Bool.and_eq_false_iff, Bool.and_eq_false_iff, or_assoc]

theorem active_of_processed {m : Byte} {s : State} {n : Chan} (h : processed m s n = true) : (s.ch n).active = true := by
  rw [processed, Bool.and_eq_true, Bool.and_eq_true] at h
  obtain ⟨⟨hActive, -⟩, -⟩ := h
  exact hActive

theorem hdmaChannel_nch (m : Byte) (r : LineRun) (n : Chan) :
    (hdmaChannel m r n).nch = r.nch + if processed m r.st n then 1 else 0 := by
  unfold hdmaChannel
  split <;> rfl

theorem hdmaChannel_nb (m : Byte) (r : LineRun) (n : Chan) :
    (hdmaChannel m r n).nb = r.nb + if processed m r.st n then unitLen (dmapMode (r.st.ch n).dmap) else 0 := by
  unfold hdmaChannel
  split <;> rfl

/-- A channel's turn leaves every other channel. -/
theorem hdmaChannel_ch_ne (m : Byte) (r : LineRun) {n k : Chan} (h : k ≠ n) : (hdmaChannel m r n).st.ch k = r.st.ch k := by
  obtain ⟨_, _, _, _, g⟩ := lineTurn_spec m r.st n
  rw [hdmaChannel_state, g.others k h]

/-- Nor does it change which other channels are processed. -/
theorem processed_hdmaChannel_ne (m : Byte) (r : LineRun) {n k : Chan} (h : k ≠ n) :
    processed m (hdmaChannel m r n).st k = processed m r.st k := by
  obtain ⟨_, _, _, _, g⟩ := lineTurn_spec m r.st n
  rw [processed, hdmaChannel_ch_ne m r h, hdmaChannel_state, g.hdmaen, processed]

theorem hdmaChannels_nch (m : Byte) (l : List Chan) (hl : l.Nodup) (r : LineRun) :
    (l.foldl (hdmaChannel m) r).nch = r.nch + l.countP (processed m r.st) := by
  induction l generalizing r with
  | nil => rfl
  | cons n l ih =>
    obtain ⟨hn, hl'⟩ := List.nodup_cons.mp hl
    have hLater : l.countP (processed m (hdmaChannel m r n).st) = l.countP (processed m r.st) :=
      List.countP_congr fun k hk => by rw [processed_hdmaChannel_ne m r fun e : k = n => hn (e ▸ hk)]
    rw [List.foldl_cons, ih hl', hLater, hdmaChannel_nch, List.countP_cons, Nat.add_assoc, Nat.add_comm (ite ..)]

theorem hdmaChannels_nb (m : Byte) (l : List Chan) (hl : l.Nodup) (r : LineRun) :
    (l.foldl (hdmaChannel m) r).nb =
      r.nb + (l.map fun n => if processed m r.st n then unitLen (dmapMode (r.st.ch n).dmap) else 0).sum := by
  induction l generalizing r with
  | nil => rfl
  | cons n l ih =>
    obtain ⟨hn, hl'⟩ := List.nodup_cons.mp hl
    have hLater : (l.map fun k => if processed m (hdmaChannel m r n).st k then
          unitLen (dmapMode ((hdmaChannel m r n).st.ch k).dmap) else 0) =
        l.map fun k => if processed m r.st k then unitLen (dmapMode (r.st.ch k).dmap) else 0 :=
      List.map_congr_left fun k hk => by
        have hkn : k ≠ n := fun e => hn (e ▸ hk)
        rw [processed_hdmaChannel_ne m r hkn, hdmaChannel_ch_ne m r hkn]
    rw [List.foldl_cons, ih hl', hLater, hdmaChannel_nb, List.map_cons, List.sum_cons, Nat.add_assoc]

/-- DO_HDMA's cycle sum (R203). -/
theorem doHdma_cycles (m : Byte) (s : State) : lineCycles (allChans.foldl (hdmaChannel m) ⟨s, 0, 0⟩) =
    hdmaProcessed m s * Config.hdmaChannelCycles + hdmaBytes m s * Config.hdmaByteCycles := by
  rw [lineCycles, hdmaChannels_nch m allChans allChans_nodup, hdmaChannels_nb m allChans allChans_nodup, Nat.zero_add, Nat.zero_add]
  rfl

/-! ## The whole commands (R191, R195) -/

/-- The accesses of an INIT_HDMA whose LoadEntry of channel n reads `b n`, `lo n` and `hi n`. -/
def initHdmaEvents (s : State) (b lo hi : Chan → Byte) : List BusEvent :=
  allChans.flatMap fun n =>
    if maskBit s.engine.hdmaen n then entryEvents { s.ch n with a2a := (s.ch n).a1t } (b n) (lo n) (hi n) else []

/-- What INIT_HDMA makes of the state, on a Bus that answers these table bytes. -/
structure InitHdmaDone (s t : State) (b lo hi : Chan → Byte) : Prop where
  exec : exec .initHdma s = .next t
  bus : s.bus.run (initHdmaEvents s b lo hi) = some t.bus
  ch : ∀ n, t.ch n = if maskBit s.engine.hdmaen n then entryDone { s.ch n with a2a := (s.ch n).a1t } (b n) (lo n) (hi n)
    else { s.ch n with active := false }
  mdmaen : t.engine.mdmaen = s.engine.mdmaen
  hdmaen : t.engine.hdmaen = s.engine.hdmaen
  response : t.response = .none
  pending : t.pending = s.pending

theorem initHdma_spec (s : State) : ∃ t b lo hi, InitHdmaDone s t b lo hi := by
  obtain ⟨d, h⟩ := initTurns_spec s
  exact ⟨_, fun n => (d n).1, fun n => (d n).2.1, fun n => (d n).2.2, exec_initHdma s, h.bus, h.ch, h.mdmaen, h.hdmaen, rfl,
    h.pending⟩

/-- The accesses of a DO_HDMA that moves the bytes `vs n` of channel n's unit and whose reload of it reads `b n`, `lo n` and `hi n`. -/
def doHdmaEvents (m : Byte) (s : State) (vs : Chan → Nat → Byte) (b lo hi : Chan → Byte) : List BusEvent :=
  allChans.flatMap fun n => if processed m s n then lineEvents (s.ch n) (vs n) (b n) (lo n) (hi n) else []

/-- What DO_HDMA makes of the state, on a Bus that answers these data and table bytes. -/
structure DoHdmaDone (m : Byte) (s t : State) (vs : Chan → Nat → Byte) (b lo hi : Chan → Byte) : Prop where
  exec : exec (.doHdma m) s = .next t
  bus : s.bus.run (doHdmaEvents m s vs b lo hi) = some t.bus
  ch : ∀ n, t.ch n = if processed m s n then lineDone (s.ch n) (b n) (lo n) (hi n) else s.ch n
  mdmaen : t.engine.mdmaen = s.engine.mdmaen
  hdmaen : t.engine.hdmaen = s.engine.hdmaen
  response : t.response =
    .cycles (BitVec.ofNat 32 (hdmaProcessed m s * Config.hdmaChannelCycles + hdmaBytes m s * Config.hdmaByteCycles))
  pending : t.pending = s.pending

theorem doHdma_spec (m : Byte) (s : State) : ∃ t vs b lo hi, DoHdmaDone m s t vs b lo hi := by
  obtain ⟨d, h⟩ := lineTurns_spec m s
  have hExec := exec_doHdma m s
  rw [doHdma_cycles] at hExec
  generalize allChans.foldl (lineTurn m) s = u at h hExec
  exact ⟨_, fun n => (d n).1, fun n => (d n).2.1, fun n => (d n).2.2.1, fun n => (d n).2.2.2, hExec, h.bus, h.ch, h.mdmaen,
    h.hdmaen, rfl, h.pending⟩

namespace DoHdmaDone
variable {m : Byte} {s t : State} {vs : Chan → Nat → Byte} {b lo hi : Chan → Byte} {n : Chan}

theorem ch_unprocessed (h : DoHdmaDone m s t vs b lo hi) (hn : processed m s n = false) : t.ch n = s.ch n := by
  rw [h.ch n, if_neg (by simp [hn])]

/-- A processed channel whose reload is due has loaded an entry after its line (R200, R201). -/
theorem ch_due (h : DoHdmaDone m s t vs b lo hi) (hn : processed m s n = true) (hDue : reloadDue (s.ch n).ntrl = true) :
    t.ch n = entryDone (lineCounted (s.ch n)) (b n) (lo n) (hi n) := by
  rw [h.ch n, if_pos hn, lineDone_of_due hDue]

/-- A processed channel whose reload is not due has only counted its line. -/
theorem ch_not_due (h : DoHdmaDone m s t vs b lo hi) (hn : processed m s n = true) (hDue : reloadDue (s.ch n).ntrl = false) :
    t.ch n = lineCounted (s.ch n) := by
  rw [h.ch n, if_pos hn, lineDone_of_not_due hDue]

/-- A channel that goes on in its entry is processed by the next DO_HDMA of the same mask. -/
theorem processed_of_not_due (h : DoHdmaDone m s t vs b lo hi) (hn : processed m s n = true)
    (hDue : reloadDue (s.ch n).ntrl = false) : processed m t n = true := by
  rwa [processed, h.hdmaen, h.ch_not_due hn hDue, lineCounted_active]

end DoHdmaDone

/-- With no channel processed there is no turn. -/
theorem doHdma_of_none {m : Byte} {s : State} (h : ∀ n, processed m s n = false) :
    exec (.doHdma m) s = .next (s.respond (.cycles 0)) := by
  have hTurns : allChans.foldl (lineTurn m) s = s := List.foldl_fixed' (fun n => by simp [lineTurn, h n]) allChans
  have hRun : allChans.foldl (hdmaChannel m) ⟨s, 0, 0⟩ = ⟨s, 0, 0⟩ :=
    List.foldl_fixed' (fun n => by simp [hdmaChannel, h n]) allChans
  rw [exec_doHdma, hTurns, hRun]
  simp [lineCycles]

/-! ## The accesses of a command (R191, R198, R209) -/

/-- The accesses of turns of which each makes at most `w n` and three table reads. -/
theorem length_turns_le {p : Chan → Bool} {E : Chan → List BusEvent} {w : Chan → Nat} (h : ∀ n, (E n).length ≤ w n + 3)
    (l : List Chan) : (l.flatMap fun n => if p n then E n else []).length ≤
      (l.map fun n => if p n then w n else 0).sum + 3 * l.countP p := by
  induction l with
  | nil => exact Nat.zero_le _
  | cons n l ih =>
    have hn := h n
    rw [List.flatMap_cons, List.length_append, List.map_cons, List.sum_cons, List.countP_cons]
    split
    · omega
    · rw [List.length_nil]; omega

theorem length_initHdmaEvents_le (s : State) (b lo hi : Chan → Byte) :
    (initHdmaEvents s b lo hi).length ≤ 3 * allChans.countP (maskBit s.engine.hdmaen) := by
  refine (length_turns_le (w := fun _ => 0) (fun n => ?_) allChans).trans_eq (by simp)
  rw [Nat.zero_add]
  exact length_entryEvents_le ..

theorem length_doHdmaEvents_le (m : Byte) (s : State) (vs : Chan → Nat → Byte) (b lo hi : Chan → Byte) :
    (doHdmaEvents m s vs b lo hi).length ≤ 2 * hdmaBytes m s + 3 * hdmaProcessed m s := by
  refine (length_turns_le (fun n => length_lineEvents_le (s.ch n) (vs n) (b n) (lo n) (hi n)) allChans).trans_eq ?_
  rw [hdmaBytes, hdmaProcessed, ← List.sum_map_mul_left]
  simp only [mul_ite, mul_zero]

/-- An access of an INIT_HDMA is one of a LoadEntry. -/
theorem of_mem_initHdmaEvents {s : State} {b lo hi : Chan → Byte} {e : BusEvent} (h : e ∈ initHdmaEvents s b lo hi) :
    ∃ c b lo hi, e ∈ entryEvents c b lo hi := by
  obtain ⟨n, -, hn⟩ := List.mem_flatMap.mp h
  split at hn
  · exact ⟨_, _, _, _, hn⟩
  · cases hn

/-- An access of a DO_HDMA is one of a processed channel's line. -/
theorem of_mem_doHdmaEvents {m : Byte} {s : State} {vs : Chan → Nat → Byte} {b lo hi : Chan → Byte} {e : BusEvent}
    (h : e ∈ doHdmaEvents m s vs b lo hi) :
    ∃ n, processed m s n = true ∧ e ∈ lineEvents (s.ch n) (vs n) (b n) (lo n) (hi n) := by
  obtain ⟨n, -, hn⟩ := List.mem_flatMap.mp h
  split at hn
  · exact ⟨n, ‹_›, hn⟩
  · cases hn

/-! ## One channel alone (R195) -/

/-- DO_HDMA's turns are those of the channels in its mask, in order. -/
theorem lineTurns_eq (m : Byte) (s : State) :
    allChans.foldl (lineTurn m) s = (allChans.filter (maskBit m)).foldl (lineTurn m) s := by
  rw [List.foldl_filter]
  refine congrArg (allChans.foldl · s) (funext₂ fun s n => ?_)
  cases h : maskBit m n <;> simp [lineTurn, processed, h]

/-- With channel n alone in the mask, DO_HDMA's turns are its line. -/
theorem lineTurns_twoPow {s : State} {n : Chan} (h : processed (BitVec.twoPow 8 n.val) s n = true) :
    allChans.foldl (lineTurn (BitVec.twoPow 8 n.val)) s = hdmaLine n s := by
  rw [lineTurns_eq, selected_twoPow, List.foldl_cons, List.foldl_nil, lineTurn, if_pos h]

/-- A unit leaves NTRL. -/
theorem hdmaUnit_ntrl (n : Chan) (ind : Bool) (m : BitVec 3) (s : State) : ((hdmaUnit n ind m s).ch n).ntrl = (s.ch n).ntrl := by
  obtain ⟨_, h⟩ := hdmaUnit_spec n ind m s
  rw [h.same, pointerPast_ntrl]

/-- A channel's unit moved and its line counted, before any reload. -/
def lineMoved (n : Chan) (s : State) : State :=
  (hdmaUnit n (dmapInd (s.ch n).dmap) (dmapMode (s.ch n).dmap) s).setNtrl n (decLine (s.ch n).ntrl)

theorem hdmaLine_eq (n : Chan) (s : State) :
    hdmaLine n s = if reloadDue (s.ch n).ntrl then loadEntry n (lineMoved n s) else lineMoved n s := by
  simp only [hdmaLine, countLine, hdmaUnit_ntrl, lineMoved]

/-! ## Line after line (R207) -/

/-- The step of a DO_HDMA command waiting. -/
theorem step_doHdma {s : State} {m : Byte} {rest : List Request} (h : s.pending = .command (commandWord 0 m 0b011) :: rest) :
    step s = exec (.doHdma m) (s.setPending rest) :=
  step_decoded h rfl (by simp [decode, decodeCommand])

/-- A run whose first step goes on. -/
theorem run_succ (M : Host.Core) {s t : M.State} (h : M.step s = .next t) (k : Nat) : M.run (k + 1) s = M.run k t := by
  rw [Host.Core.run, h]

/-- DO_HDMA commands one after another, no more than channel n's entry has lines (R207): by induction on the commands, each
counting one line of the entry and only the entry's last one reloading. -/
theorem run_doHdmas {m : Byte} {n : Chan} {rest : List Request} (j : Nat) {s : State} (hn : processed m s n = true)
    (hj : j ≤ entryLines (s.ch n).ntrl) (hp : s.pending = List.replicate j (.command (commandWord 0 m 0b011)) ++ rest) :
    ∃ t, Host.Core.run core j s = .next t ∧ t.pending = rest ∧
      (j < entryLines (s.ch n).ntrl → t.ch n = lineAt (s.ch n) j) ∧
      (j = entryLines (s.ch n).ntrl → ∃ b lo hi, t.ch n = entryDone (lineAt (s.ch n) j) b lo hi) := by
  induction j generalizing s with
  | zero => exact ⟨s, rfl, hp, fun _ => (lineAt_zero _).symm, fun h => absurd h (entryLines_pos _).ne⟩
  | succ j ih =>
    obtain ⟨t, _, b, lo, hi, h⟩ := doHdma_spec m (s.setPending (List.replicate j (.command (commandWord 0 m 0b011)) ++ rest))
    rw [run_succ core ((step_doHdma hp).trans h.exec)]
    cases hDue : reloadDue (s.ch n).ntrl with
    | true =>
      have hLast := entryLines_of_reloadDue hDue
      obtain rfl : j = 0 := by omega
      refine ⟨t, rfl, h.pending, fun hlt => absurd hLast hlt.ne', fun _ => ⟨b n, lo n, hi n, ?_⟩⟩
      rw [lineAt_one]
      exact h.ch_due hn hDue
    | false =>
      have hLines := entryLines_decLine hDue
      have hc : t.ch n = lineCounted (s.ch n) := h.ch_not_due hn hDue
      have hRest := ih (h.processed_of_not_due hn hDue) (by rw [hc, lineCounted_ntrl]; omega) h.pending
      rw [hc, lineAt_lineCounted, lineCounted_ntrl] at hRest
      obtain ⟨u, hRun, hu, hGoesOn, hReloads⟩ := hRest
      exact ⟨u, hRun, hu, fun hlt => hGoesOn (by omega), fun he => hReloads (by omega)⟩

end Sys2Proof.Machine
end

section
/-! HDMA's statements (spec/42_hdma.md R190 to R209). -/

namespace Sys2Proof.Machine

/-- Settles O8: fetching a table byte is one read at the table pointer, and its byte's row is executed in the state after it. -/
theorem stepExecutesTheTableByte : Obligations.StepExecutesTheTableByte := by
  intro s n rest hp
  have hStep := step_tableByte hp
  have h := readTable_spec n (s.setPending rest)
  exact ⟨_, hStep, rfl, h.same, h.others, h.mdmaen, h.hdmaen, h.response, h.pending⟩

/-- Settles O34: control bytes of one IND and MODE say the same to HDMA, and both commands keep states alike. -/
theorem hdmaIgnoresStepAndDir : Obligations.HdmaIgnoresStepAndDir := by
  intro s n b hInd hMode
  have hAlike : HdmaAlike (s.ch n).dmap b := ⟨hInd, hMode ▸ .refl _⟩
  exact ⟨fun _ => initHdma_keepsAlike.exec_modCh HdmaAlike.refl (g := fun _ => b) hAlike,
    fun m _ => (doHdma_keepsAlike m).exec_modCh HdmaAlike.refl (g := fun _ => b) hAlike⟩

/-- Settles O37: an addressing row is one byte moved from its pointer, a run of two accesses. -/
theorem addressingRowsMoveOneByte : Obligations.AddressingRowsMoveOneByte := by
  intro s n k d p st m
  constructor
  · have h := hdmaMove_answer n false m k.toNat s
    exact ⟨_, rfl, h.same, ⟨h.others, h.mdmaen, h.hdmaen, h.pending⟩, rfl, h.bus, aToB_frame h.bus⟩
  · have h := hdmaMove_answer n true m k.toNat s
    exact ⟨_, rfl, h.same, ⟨h.others, h.mdmaen, h.hdmaen, h.pending⟩, rfl, h.bus, aToB_frame h.bus⟩

/-- Settles O39: each row does what LoadEntry does with its byte, and the two reads of an indirect address store nothing. -/
theorem tableRowsLoadTheirEntry : Obligations.TableRowsLoadTheirEntry := by
  intro s n c
  constructor
  · obtain ⟨lo, hi, h⟩ := loadByte_spec n 0 s
    exact ⟨_, rfl, h.same, ⟨h.others, h.mdmaen, h.hdmaen, h.pending⟩, rfl, rfl⟩
  · intro b i hRow
    obtain ⟨hExec, hb⟩ := exec_entryRow n s hRow
    obtain ⟨lo, hi, h⟩ := loadByte_spec n b s
    refine ⟨_, hExec, ⟨h.others, h.mdmaen, h.hdmaen, h.pending⟩, rfl, fun hDirect => ?_, fun hIndirect => ⟨lo, hi, ?_⟩⟩
    · simp only [hb, hDirect, if_false, and_false, Bool.false_eq_true] at h
      exact ⟨(Option.some.inj h.bus).symm, h.same⟩
    · simp only [hb, hIndirect, if_false, if_true, and_true, ne_eq, not_false_eq_true] at h
      exact ⟨h.bus, run_keepsA _ (by simp) h.bus, run_keepsB _ (by simp) h.bus, h.same⟩

/-- Settles O40: the step of a table request is LoadEntry, whose closed form this is. -/
theorem loadEntryReadsOneEntry : Obligations.LoadEntryReadsOneEntry := by
  intro s n rest hp
  obtain ⟨b, lo, hi, h⟩ := loadEntry_spec n (s.setPending rest)
  exact ⟨b, lo, hi, _, step_table hp, h.bus, h.same, h.others, h.mdmaen, h.hdmaen, h.pending, rfl⟩

/-- Settles O50: the closed form of the command. -/
theorem initHdmaLoadsEveryEnabledChannel : Obligations.InitHdmaLoadsEveryEnabledChannel := by
  intro s
  obtain ⟨t, b, lo, hi, h⟩ := initHdma_spec s
  exact ⟨t, b, lo, hi, h.exec, h.bus, h.ch, h.mdmaen, h.hdmaen, h.response, h.pending⟩

/-- Settles O51: the closed form of the command. -/
theorem doHdmaRunsExactlyOneLine : Obligations.DoHdmaRunsExactlyOneLine := by
  intro m s
  obtain ⟨t, vs, b, lo, hi, h⟩ := doHdma_spec m s
  exact ⟨t, vs, b, lo, hi, h.exec, h.bus, h.ch, h.mdmaen, h.hdmaen, h.pending⟩

/-- Settles O52: each processed channel adds itself and its unit's bytes to the counts. -/
theorem doHdmaReturnsItsCycles : Obligations.DoHdmaReturnsItsCycles := by
  intro m s
  obtain ⟨t, _, _, _, _, h⟩ := doHdma_spec m s
  exact ⟨t, h.exec, h.response⟩

/-- Settles O53: a channel that is not processed has no turn. -/
theorem unprocessedChannelsAreUntouched : Obligations.UnprocessedChannelsAreUntouched := by
  intro m s
  obtain ⟨t, _, _, _, _, h⟩ := doHdma_spec m s
  exact ⟨fun hNone => doHdma_of_none fun n => processed_eq_false_iff.mpr (hNone n), t, h.exec,
    fun n hn => h.ch_unprocessed (processed_eq_false_iff.mpr hn)⟩

/-- Settles O54: the decremented NTRL is made of the repeat flag and the counter minus 1, which is taken modulo 128. -/
theorem lineCounterGoesDownModulo128 : Obligations.LineCounterGoesDownModulo128 := by
  intro b
  refine ⟨?_, repeatFlag_decLine b, fun h => ?_⟩
  · rw [lineCount_decLine, BitVec.toNat_sub, Nat.add_comm]
    rfl
  · rw [lineCount_decLine, h]
    rfl

/-- Settles O55: the closed form of a processed channel's line, when its reload is due and when it is not. -/
theorem reloadExactlyWhenDue : Obligations.ReloadExactlyWhenDue := by
  intro m s n hn
  obtain ⟨t, _, b, lo, hi, h⟩ := doHdma_spec m s
  rw [← reloadDue_iff]
  refine ⟨t, h.exec, fun hDue => ⟨b n, lo n, hi n, h.ch_due hn hDue⟩, fun hDue => ?_⟩
  have hc := h.ch_not_due hn (Bool.eq_false_iff.mpr hDue)
  exact ⟨hc, by rw [hc, lineCounted_active, active_of_processed hn]⟩

/-- Settles O56: DO_HDMA commands one after another, by induction on them. -/
theorem entryLastsItsLines : Obligations.EntryLastsItsLines :=
  fun _ _ _ j _ hn hj hp => run_doHdmas j hn hj hp

/-- Settles O57: a run keeps what its accesses do not write; INIT_HDMA's only read, and DO_HDMA's write where its units go. -/
theorem hdmaStoresOnlyItsUnits : Obligations.HdmaStoresOnlyItsUnits := by
  refine ⟨fun s => ?_, fun m s => ?_⟩
  · obtain ⟨t, b, lo, hi, h⟩ := initHdma_spec s
    refine ⟨t, _, h.exec, h.bus, run_keepsA _ (fun a v hv => ?_) h.bus, run_keepsB _ (fun x v hv => ?_) h.bus⟩
    · obtain ⟨_, _, _, _, hEntry⟩ := of_mem_initHdmaEvents hv
      exact aWrite_notMem_entryEvents hEntry
    · obtain ⟨_, _, _, _, hEntry⟩ := of_mem_initHdmaEvents hv
      exact bWrite_notMem_entryEvents hEntry
  · obtain ⟨t, vs, b, lo, hi, h⟩ := doHdma_spec m s
    refine ⟨t, _, h.exec, h.bus, run_keepsA _ (fun a v hv => ?_) h.bus, run_keepsB _ (fun x v hv => ?_) h.bus⟩
    · obtain ⟨_, -, hLine⟩ := of_mem_doHdmaEvents hv
      exact aWrite_notMem_lineEvents hLine
    · obtain ⟨n, hn, hLine⟩ := of_mem_doHdmaEvents hv
      obtain ⟨k, hk, rfl⟩ := of_bWrite_mem_lineEvents hLine
      exact ⟨n, k, hn, hk, rfl⟩

/-- Settles O58: a run appends its accesses to the trace, and each turn makes at most its unit's and three more. -/
theorem hdmaCommandsAreBounded : Obligations.HdmaCommandsAreBounded := by
  refine ⟨fun s => ?_, fun m s => ?_⟩
  · obtain ⟨t, b, lo, hi, h⟩ := initHdma_spec s
    refine ⟨t, h.exec, ?_⟩
    rw [run_trace h.bus, List.length_append]
    exact Nat.add_le_add_left (length_initHdmaEvents_le ..) _
  · obtain ⟨t, vs, b, lo, hi, h⟩ := doHdma_spec m s
    refine ⟨t, h.exec, ?_⟩
    rw [run_trace h.bus, List.length_append, Nat.add_assoc]
    exact Nat.add_le_add_left (length_doHdmaEvents_le ..) _

/-- Settles O59: the mask selects one channel, whose line is its unit and its counter, then LoadEntry when due, and a table request's
step is LoadEntry. -/
theorem oneChannelLineIsItsRows : Obligations.OneChannelLineIsItsRows := by
  intro s u n hn hu
  rw [exec_mode, Host.Outcome.next.injEq] at hu
  subst hu
  refine ⟨_, exec_doHdma _ s, ?_⟩
  rw [lineTurns_twoPow hn, hdmaLine_eq, lineMoved]
  refine ⟨fun hDue => ?_, fun hDue v hv => ?_⟩
  · rw [if_neg (by simp [hDue])]
    exact ⟨rfl, fun _ => rfl⟩
  · rw [if_pos hDue]
    rw [setNtrl_respond, step_table_alone, Host.Outcome.next.injEq] at hv
    subst hv
    exact ⟨rfl, fun _ => rfl⟩

end Sys2Proof.Machine
end

section
/-! SUPPORT. The register window by its ports (spec/30_encoding.md R96 to R99, spec/43_register_access.md R230 to R237): which addresses
select nothing, what a REG_READ and a REG_WRITE do at an address, and what a port reads after a write of a port. -/

namespace Sys2Proof

/-! ## Addresses -/

theorem chanRegIndex_decoded (r : ChanReg) : (chanRegIndex r).toNat < 0xC ∨ (chanRegIndex r).toNat = 0xF := by
  cases r <;> decide

theorem toNat_portAddr_chan (n : Chan) (r : ChanReg) :
    (portAddr (.chan n r)).toNat = 0x4300 + 0x10 * n.val + (chanRegIndex r).toNat := by
  have hn := n.isLt
  have hr := (chanRegIndex r).isLt
  rw [portAddr_chan, BitVec.toNat_ofNat]
  omega

/-- An address R99 leaves undecoded selects no port: each port's address is in a block at a decoded index, or is a mask's. -/
theorem windowPort_eq_none {a : Half}
    (h : ¬ (0x4300 ≤ a.toNat ∧ a.toNat ≤ 0x437F) ∨ a.toNat % 16 = 0xC ∨ a.toNat % 16 = 0xD ∨ a.toNat % 16 = 0xE)
    (hMdmaen : a ≠ 0x420B) (hHdmaen : a ≠ 0x420C) : windowPort a = none := by
  refine Option.eq_none_iff_forall_ne_some.mpr fun p hp => ?_
  have ha := portAddr_windowPort a p hp
  cases p with
  | chan n r =>
    have hn := n.isLt
    have hr := chanRegIndex_decoded r
    rw [← ha, toNat_portAddr_chan] at h
    omega
  | mdmaen => exact hMdmaen ha.symm
  | hdmaen => exact hHdmaen ha.symm

/-- The three indexes of a block that select nothing (R97). -/
theorem windowPort_holeAddr : ∀ n : Chan, ∀ r ∈ [0xC, 0xD, 0xE], windowPort (BitVec.ofNat 16 (0x4300 + 0x10 * n.val + r)) = none := by
  decide

theorem portAddr_unusedB (n : Chan) : portAddr (.chan n .unusedB) = BitVec.ofNat 16 (0x430B + 0x10 * n.val) := by
  revert n
  decide

theorem portAddr_unusedF (n : Chan) : portAddr (.chan n .unusedF) = BitVec.ofNat 16 (0x430F + 0x10 * n.val) := by
  revert n
  decide

/-- The register indexes that reach one byte: each its own, and the two of UNUSED (R236). -/
inductive ChanReg.SameByte : ChanReg → ChanReg → Prop where
  | refl (r : ChanReg) : SameByte r r
  | unusedBF : SameByte .unusedB .unusedF
  | unusedFB : SameByte .unusedF .unusedB

theorem ChanReg.SameByte.symm {r q : ChanReg} (h : r.SameByte q) : q.SameByte r := by
  cases h <;> constructor

theorem ChanReg.SameByte.trans {p q r : ChanReg} (h : p.SameByte q) (g : q.SameByte r) : p.SameByte r := by
  cases h with
  | refl => exact g
  | unusedBF | unusedFB => cases g <;> constructor

/-- Both addresses of UNUSED are ports' of the one byte. -/
theorem exists_unused_port {n : Chan} {a : Half}
    (h : a ∈ [BitVec.ofNat 16 (0x430B + 0x10 * n.val), BitVec.ofNat 16 (0x430F + 0x10 * n.val)]) :
    ∃ r, ChanReg.SameByte .unusedB r ∧ portAddr (.chan n r) = a := by
  rw [← portAddr_unusedB, ← portAddr_unusedF, List.mem_pair] at h
  obtain rfl | rfl := h
  · exact ⟨.unusedB, .refl _, rfl⟩
  · exact ⟨.unusedF, .unusedBF, rfl⟩

end Sys2Proof

namespace Sys2Proof.Machine

/-! ## A byte read after a write -/

theorem readByte_writeByte_of_sameByte (c : Channel) (d : Byte) {r q : ChanReg} (h : r.SameByte q) :
    (c.writeByte d r).readByte q = d := by
  cases h with
  | refl => exact readByte_writeByte_same c d r
  | unusedBF | unusedFB => rfl

/-- A write of a byte leaves every other byte of the channel, the other byte of its 16-bit register too (R237): register by register. -/
theorem readByte_writeByte_of_not_sameByte (c : Channel) (d : Byte) {r q : ChanReg} (h : ¬ r.SameByte q) :
    (c.writeByte d r).readByte q = c.readByte q := by
  cases r <;> cases q <;>
    simp [Channel.writeByte, Channel.readByte, ChanReg.SameByte.refl, ChanReg.SameByte.unusedBF, ChanReg.SameByte.unusedFB] at h ⊢

@[simp] theorem readPort_respond (s : State) (r : Response) (p : WindowPort) : (s.respond r).readPort p = s.readPort p := by
  cases p <;> rfl

/-- A port reads as before a write of a port that does not reach its byte. -/
theorem readPort_writePort_of_not_sameByte (s : State) (d : Byte) {p q : WindowPort}
    (h : ∀ n r r', p = .chan n r → q = .chan n r' → ¬ r.SameByte r') : (s.writePort d p).readPort q = s.readPort q := by
  cases p with
  | mdmaen | hdmaen => cases q <;> rfl
  | chan n r =>
    cases q with
    | mdmaen | hdmaen => rfl
    | chan k r' =>
      simp only [State.writePort, State.readPort, modCh_ch]
      split
      · next e => rw [readByte_writeByte_of_not_sameByte _ d (h n r r' rfl (e ▸ rfl)), e]
      · rfl

/-- A write of a port changes HDMAEN only at HDMAEN's. -/
theorem writePort_hdmaen {s : State} {d : Byte} {p : WindowPort} (h : p ≠ .hdmaen) :
    (s.writePort d p).engine.hdmaen = s.engine.hdmaen := by
  cases p with
  | chan n r => rfl
  | mdmaen => rfl
  | hdmaen => exact absurd rfl h

/-! ## REG_READ and REG_WRITE at an address -/

theorem exec_regRead_of_port {a : Half} {p : WindowPort} (h : windowPort a = some p) (s : State) :
    exec (.regRead a) s = accessPort p .read s := by
  simp only [exec, execRegRead, h]

theorem exec_regRead_of_none {a : Half} (h : windowPort a = none) (s : State) :
    exec (.regRead a) s = .refused .undecodedRead := by
  simp only [exec, execRegRead, h]

theorem exec_regWrite_of_none {a : Half} (h : windowPort a = none) (d : Byte) (s : State) :
    exec (.regWrite a d) s = .refused .undecodedWrite := by
  simp only [exec, execRegWrite, h]

/-- A REG_READ at a channel register's address answers its byte, in every state (R233). -/
theorem exec_regRead_portAddr (n : Chan) (r : ChanReg) (s : State) :
    exec (.regRead (portAddr (.chan n r))) s = .next (s.respond (.data ((s.ch n).readByte r))) :=
  exec_regRead_of_port (windowPort_portAddr _) s

/-- A read goes on exactly where the port answers a byte (R233, R234). -/
theorem accessPort_read_next_iff {p : WindowPort} {s t : State} :
    accessPort p .read s = .next t ↔ ∃ v, s.readPort p = some v ∧ s.respond (.data v) = t := by
  cases p <;> simp [accessPort, State.readPort]

/-- Reading a channel register's byte back after a write that reaches it. -/
theorem exec_regRead_writePort (s : State) (d : Byte) (n : Chan) {r q : ChanReg} (h : r.SameByte q) :
    ∃ u, exec (.regRead (portAddr (.chan n q))) ((s.writePort d (.chan n r)).respond .none) = .next u ∧ u.response = .data d := by
  refine ⟨_, exec_regRead_portAddr n q _, ?_⟩
  rw [respond_response, respond_ch, State.writePort, modCh_ch_same, readByte_writeByte_of_sameByte _ d h]

end Sys2Proof.Machine
end

section
/-! The register window's statements (spec/43_register_access.md R230 to R237). -/

namespace Sys2Proof.Machine

/-- Settles O18: the address of index r is its register's port's. -/
theorem regReadReturnsTheByte : Obligations.RegReadReturnsTheByte := by
  intro s n
  have hRead (r : ChanReg) : exec (.regRead (BitVec.ofNat 16 (0x4300 + 0x10 * n.val + (chanRegIndex r).toNat))) s =
      .next (s.respond (.data ((s.ch n).readByte r))) := by
    rw [← portAddr_chan, exec_regRead_portAddr]
  exact ⟨hRead .dmap, hRead .bbad, hRead .a1tLo, hRead .a1tHi, hRead .a1b, hRead .dasLo, hRead .dasHi, hRead .dasb, hRead .a2aLo,
    hRead .a2aHi, hRead .ntrl, hRead .unusedB, hRead .unusedF, fun r hr => exec_regRead_of_none (windowPort_holeAddr n r hr) s⟩

/-- Settles O19: the address of index r is its register's port's. -/
theorem regWriteStoresTheByte : Obligations.RegWriteStoresTheByte := by
  intro s n d
  have hWrite (r : ChanReg) : exec (.regWrite (BitVec.ofNat 16 (0x4300 + 0x10 * n.val + (chanRegIndex r).toNat)) d) s =
      .next ((s.modCh n fun c => c.writeByte d r).respond .none) := by
    rw [← portAddr_chan, exec_regWrite_portAddr, State.writePort]
  exact ⟨hWrite .dmap, hWrite .bbad, hWrite .a1tLo, hWrite .a1tHi, hWrite .a1b, hWrite .dasLo, hWrite .dasHi, hWrite .dasb,
    hWrite .a2aLo, hWrite .a2aHi, hWrite .ntrl, hWrite .unusedB, hWrite .unusedF,
    fun r hr => exec_regWrite_of_none (windowPort_holeAddr n r hr) d s⟩

/-- Settles O20: both addresses are the masks' ports'. -/
theorem maskWritesOnlyStore : Obligations.MaskWritesOnlyStore :=
  fun s d => ⟨exec_regWrite_portAddr .mdmaen d s, exec_regWrite_portAddr .hdmaen d s⟩

/-- Settles O21: both addresses are the masks' ports', which answer no read. -/
theorem maskReadsAreRefused : Obligations.MaskReadsAreRefused :=
  fun s => ⟨exec_regRead_of_port (windowPort_portAddr .mdmaen) s, exec_regRead_of_port (windowPort_portAddr .hdmaen) s⟩

/-- Settles O22: such an address selects no port. -/
theorem undecodedAddressesAreRefused : Obligations.UndecodedAddressesAreRefused := by
  intro a d s h hMdmaen hHdmaen
  have hNone := windowPort_eq_none h hMdmaen hHdmaen
  exact ⟨exec_regRead_of_none hNone s, exec_regWrite_of_none hNone d s⟩

/-- Settles O23: each row is an access of its port. -/
theorem windowRowsAccessTheirByte : Obligations.WindowRowsAccessTheirByte := by
  intro s n d
  have hRead (r : ChanReg) := exec_portInstr .read (.chan n r) s
  have hWrite (r : ChanReg) := exec_portInstr (.write d) (.chan n r) s
  exact ⟨hRead .dmap, hRead .bbad, hRead .a1tLo, hRead .a1tHi, hRead .a1b, hRead .dasLo, hRead .dasHi, hRead .dasb, hRead .a2aLo,
    hRead .a2aHi, hRead .ntrl, hRead .unusedB, hRead .unusedF, exec_portInstr .read .mdmaen s, exec_portInstr .read .hdmaen s,
    hWrite .dmap, hWrite .bbad, hWrite .a1tLo, hWrite .a1tHi, hWrite .a1b, hWrite .dasLo, hWrite .dasHi, hWrite .dasb,
    hWrite .a2aLo, hWrite .a2aHi, hWrite .ntrl, hWrite .unusedB, hWrite .unusedF, exec_portInstr (.write d) .mdmaen s,
    exec_portInstr (.write d) .hdmaen s⟩

/-- Settles O25: the write is one of the port at its address; another address reaches the same byte only as UNUSED's second. -/
theorem regWriteChangesExactlyOneByte : Obligations.RegWriteChangesExactlyOneByte := by
  intro a d s t h
  obtain ⟨p, hp, rfl⟩ := regWrite_next h
  obtain rfl := portAddr_windowPort a p hp
  refine ⟨writePort_bus s d p, writePort_pending s d p, writePort_active s d p, fun b hb hUnused u hu => ?_, fun hm hh => ?_,
    fun hm => writePort_mdmaen fun e => hm (e ▸ rfl), fun hh => writePort_hdmaen fun e => hh (e ▸ rfl)⟩
  · obtain ⟨q, hq, hRead⟩ := regRead_next hu
    obtain rfl := portAddr_windowPort b q hq
    obtain ⟨v, hv, rfl⟩ := accessPort_read_next_iff.mp hRead
    have hOther (n r r') (hpr : p = .chan n r) (hqr : q = .chan n r') : ¬ r.SameByte r' := by
      subst hpr hqr
      rintro (_ | _ | _)
      · exact hb rfl
      · exact hUnused n (.inl ⟨portAddr_unusedB n, portAddr_unusedF n⟩)
      · exact hUnused n (.inr ⟨portAddr_unusedF n, portAddr_unusedB n⟩)
    have hAfter : ((s.writePort d p).respond .none).readPort q = some v := by
      rw [readPort_respond, readPort_writePort_of_not_sameByte s d hOther, hv]
    exact ⟨_, (exec_regRead_of_port hq _).trans (accessPort_read_next_iff.mpr ⟨v, hAfter, rfl⟩), rfl⟩
  · cases p with
    | chan n r => exact exec_regRead_writePort s d n (.refl r)
    | mdmaen => exact absurd rfl hm
    | hdmaen => exact absurd rfl hh

/-- Settles O26: both addresses are ports of the one byte. -/
theorem unusedByteHasTwoAddresses : Obligations.UnusedByteHasTwoAddresses := by
  intro s n d a ha b hb
  obtain ⟨r, hr, rfl⟩ := exists_unused_port ha
  obtain ⟨q, hq, rfl⟩ := exists_unused_port hb
  obtain ⟨u, hu, hd⟩ := exec_regRead_writePort s d n (hr.symm.trans hq)
  exact ⟨_, u, exec_regWrite_portAddr _ d s, hu, hd⟩

end Sys2Proof.Machine
end

section
/-! SUPPORT. How an instruction ends (spec/60_exceptions.md R260, R262): completed when the engine admits it, refused by name when it
does not; window accesses by their port. -/

namespace Sys2Proof.Machine

/-- How an instruction ends, by whether the engine admits it (R260, R262): there is no other way. -/
inductive Answered : Bool → Outcome → Prop where
  | completed (t : State) : Answered true (.next t)
  | undecodedRead : Answered false (.refused .undecodedRead)
  | undecodedWrite : Answered false (.refused .undecodedWrite)

theorem Answered.completes_or_refused {b : Bool} {o : Outcome} (h : Answered b o) :
    (b = true → ∃ t, o = .next t) ∧ (b = false → o = .refused .undecodedRead ∨ o = .refused .undecodedWrite) := by
  cases h with
  | completed t => exact ⟨fun _ => ⟨t, rfl⟩, nofun⟩
  | undecodedRead => exact ⟨nofun, fun _ => .inl rfl⟩
  | undecodedWrite => exact ⟨nofun, fun _ => .inr rfl⟩

/-- A window row names a byte of the window; of those only the masks answer no read (R234). -/
theorem admitted_portInstr (acc : Access) (p : WindowPort) :
    admitted (portInstr acc p) = match acc, p with
      | .read, .chan _ _ => true
      | .read, _ => false
      | .write _, _ => true := by
  cases p with
  | chan n r => cases acc <;> cases r <;> rfl
  | mdmaen | hdmaen => cases acc <;> rfl

theorem admitted_regRead_of_port {a : Half} {p : WindowPort} (h : windowPort a = some p) :
    admitted (.regRead a) = admitted (portInstr .read p) := by
  rw [admitted_portInstr]
  simp only [admitted, h]
  cases p <;> rfl

theorem admitted_regWrite_of_port {a : Half} {p : WindowPort} (h : windowPort a = some p) (d : Byte) :
    admitted (.regWrite a d) = true := by
  simp only [admitted, h, Option.isSome_some]

theorem portInstr_answered (acc : Access) (p : WindowPort) (s : State) :
    Answered (admitted (portInstr acc p)) (exec (portInstr acc p) s) := by
  rw [admitted_portInstr, exec_portInstr, accessPort_spec]
  cases acc with
  | read =>
    cases p with
    | chan n r => exact .completed _
    | mdmaen | hdmaen => exact .undecodedRead
  | write d => cases p <;> exact .completed _

theorem regRead_answered (a : Half) (s : State) : Answered (admitted (.regRead a)) (exec (.regRead a) s) := by
  cases h : windowPort a with
  | none =>
    rw [exec_regRead_of_none h, show admitted (.regRead a) = false by simp only [admitted, h]]
    exact .undecodedRead
  | some p =>
    rw [exec_regRead_of_port h, admitted_regRead_of_port h, ← exec_portInstr]
    exact portInstr_answered .read p s

theorem regWrite_answered (a : Half) (d : Byte) (s : State) :
    Answered (admitted (.regWrite a d)) (exec (.regWrite a d) s) := by
  cases h : windowPort a with
  | none =>
    rw [exec_regWrite_of_none h, show admitted (.regWrite a d) = false by simp only [admitted, h, Option.isSome_none]]
    exact .undecodedWrite
  | some p =>
    obtain rfl := portAddr_windowPort a p h
    rw [exec_regWrite_portAddr, admitted_regWrite_of_port h]
    exact .completed _

/-- Every instruction ends so: REG_READ, REG_WRITE and the window rows by their port; each of the others is one `.next`. -/
theorem exec_answered (i : Instr) (s : State) : Answered (admitted i) (exec i s) := by
  cases i with
  | regRead a => exact regRead_answered a s
  | regWrite a d => exact regWrite_answered a d s
  | regDmap c acc => exact portInstr_answered acc (.chan c .dmap) s
  | regBbad c acc => exact portInstr_answered acc (.chan c .bbad) s
  | regA1tLo c acc => exact portInstr_answered acc (.chan c .a1tLo) s
  | regA1tHi c acc => exact portInstr_answered acc (.chan c .a1tHi) s
  | regA1b c acc => exact portInstr_answered acc (.chan c .a1b) s
  | regDasLo c acc => exact portInstr_answered acc (.chan c .dasLo) s
  | regDasHi c acc => exact portInstr_answered acc (.chan c .dasHi) s
  | regDasb c acc => exact portInstr_answered acc (.chan c .dasb) s
  | regA2aLo c acc => exact portInstr_answered acc (.chan c .a2aLo) s
  | regA2aHi c acc => exact portInstr_answered acc (.chan c .a2aHi) s
  | regNtrl c acc => exact portInstr_answered acc (.chan c .ntrl) s
  | regUnusedB c acc => exact portInstr_answered acc (.chan c .unusedB) s
  | regUnusedF c acc => exact portInstr_answered acc (.chan c .unusedF) s
  | regMdmaen acc => exact portInstr_answered acc .mdmaen s
  | regHdmaen acc => exact portInstr_answered acc .hdmaen s
  | initHdma | doHdma | doDma => exact .completed _
  | mode0 | mode1 | mode2 | mode3 | mode4 | mode5 | mode6 | mode7 => exact .completed _
  | stepInc | stepFixed | stepDec | stepFixedAlt | dirAtoB | dirBtoA => exact .completed _
  | hdmaDirect | hdmaIndirect | hdmaEnd | hdmaEntry | hdmaEntryRepeat => exact .completed _

theorem step_idle {s : State} (h : s.pending = []) : step s = .next s := by
  simp only [step, h]

end Sys2Proof.Machine
end

section
/-! The statements on exceptions and idling (spec/60_exceptions.md R260, R262, R273). -/

namespace Sys2Proof.Machine

/-- Settles O9: an instruction completes when it is admitted, and is refused by name when it is not. -/
theorem admittedInstructionsNeverFail : Obligations.AdmittedInstructionsNeverFail :=
  fun i s => (exec_answered i s).completes_or_refused

/-- Settles O10: reset leaves no request waiting. -/
theorem idleEngineHoldsItsState : Obligations.IdleEngineHoldsItsState :=
  ⟨fun _ h => step_idle h, fun _ => step_idle rfl⟩

end Sys2Proof.Machine
end

section
/-! SUPPORT. The reset state by its registers (spec/70_reset_and_hazards.md R280 to R282), and the bytes of a DO_DMA of one channel
(R292). -/

namespace Sys2Proof.Machine

/-! ## The draw, read through the register indexes (R280; spec/30_encoding.md R97) -/

theorem lowByte_append (hi lo : Byte) : lowByte (hi ++ lo) = lo := BitVec.extractLsb'_append_eq_right

theorem highByte_append (hi lo : Byte) : highByte (hi ++ lo) = hi := BitVec.extractLsb'_append_eq_left

/-- Register index r below 12 selects a register byte, which is byte r of the channel's part of the draw (log 16). -/
theorem exists_chanReg_draw : ∀ r : Fin 12, ∃ q : ChanReg, (chanRegIndex q).toNat = r.val ∧
    ∀ draw n, (Channel.ofDraw draw n).readByte q = drawByte draw n r
  | 0x0 => ⟨.dmap, rfl, fun _ _ => rfl⟩
  | 0x1 => ⟨.bbad, rfl, fun _ _ => rfl⟩
  | 0x2 => ⟨.a1tLo, rfl, fun _ _ => lowByte_append ..⟩
  | 0x3 => ⟨.a1tHi, rfl, fun _ _ => highByte_append ..⟩
  | 0x4 => ⟨.a1b, rfl, fun _ _ => rfl⟩
  | 0x5 => ⟨.dasLo, rfl, fun _ _ => lowByte_append ..⟩
  | 0x6 => ⟨.dasHi, rfl, fun _ _ => highByte_append ..⟩
  | 0x7 => ⟨.dasb, rfl, fun _ _ => rfl⟩
  | 0x8 => ⟨.a2aLo, rfl, fun _ _ => lowByte_append ..⟩
  | 0x9 => ⟨.a2aHi, rfl, fun _ _ => highByte_append ..⟩
  | 0xA => ⟨.ntrl, rfl, fun _ _ => rfl⟩
  | 0xB => ⟨.unusedB, rfl, fun _ _ => rfl⟩

/-! ## No channel active (R282) -/

theorem resetWith_active (draw : Vector Byte 96) (n : Chan) : ((State.resetWith draw).ch n).active = false := by
  rw [resetWith_ch, Channel.ofDraw]

theorem processed_resetWith (m : Byte) (draw : Vector Byte 96) (n : Chan) : processed m (State.resetWith draw) n = false :=
  processed_eq_false_iff.mpr (.inl (resetWith_active draw n))

/-! ## One channel's DO_DMA (R292) -/

theorem maskBit_twoPow_self (n : Chan) : maskBit (BitVec.twoPow 8 n.val) n = true := by
  revert n; decide

/-- The bytes a DO_DMA moves are those of the channels its mask selects. -/
theorem dmaBytes_eq (m : Byte) (s : State) :
    dmaBytes m s = ((allChans.filter (maskBit m)).map fun n => dmaCount (s.ch n).das).sum := by
  rw [dmaBytes, List.sum_map_ite]
  simp only [Bool.decide_eq_true, List.map_const', List.sum_replicate, smul_zero, Nat.add_zero]

/-- A DO_DMA of one channel moves that channel's bytes. -/
theorem dmaBytes_twoPow (n : Chan) (s : State) : dmaBytes (BitVec.twoPow 8 n.val) s = dmaCount (s.ch n).das := by
  rw [dmaBytes_eq, selected_twoPow, List.map_singleton, List.sum_singleton]

end Sys2Proof.Machine
end

section
/-! The statements on reset and the hazards (spec/70_reset_and_hazards.md R280 to R283, R292). -/

namespace Sys2Proof.Machine

/-- Settles O47: the mask selects channel n alone, and its counter 0 counts 65536 bytes. -/
theorem zeroCounterMovesAllBytes : Obligations.ZeroCounterMovesAllBytes := by
  intro s n hDas
  obtain ⟨t, vs, h⟩ := doDma_spec (BitVec.twoPow 8 n.val) s
  refine ⟨t, h.exec, ?_, ?_⟩
  · rw [run_trace h.accesses.bus, List.length_append, length_doDmaEvents, dmaBytes_twoPow, hDas, dmaCount, if_pos rfl]
  · rw [h.ch n, if_pos (maskBit_twoPow_self n), dmaDone]

/-- Settles O13: reset leaves the Bus and the queue empty, whatever the draw; an empty Bus is in canonical form. -/
theorem resetBusIsCanonical : Obligations.ResetBusIsCanonical :=
  fun _ => ⟨(canonical_iff _).mpr ⟨rfl, rfl, rfl, rfl⟩, rfl, rfl, rfl, rfl, rfl, rfl, rfl, rfl, rfl⟩

/-- Settles O16: a DO_HDMA processes active channels only, and no channel is active. -/
theorem resetLeavesMasksAndFlagsClear : Obligations.ResetLeavesMasksAndFlagsClear :=
  fun draw => ⟨rfl, rfl, resetWith_active draw, fun m => doHdma_of_none (processed_resetWith m draw)⟩

/-- Settles O17: the address of index r is that of a register's port, and the register's byte is the draw's. -/
theorem resetRegistersReadTheDraw : Obligations.ResetRegistersReadTheDraw := by
  intro draw n r
  obtain ⟨q, hIndex, hByte⟩ := exists_chanReg_draw r
  rw [← hIndex, ← portAddr_chan, exec_regRead_portAddr, resetWith_ch, hByte]

end Sys2Proof.Machine
end

section
/-! SUPPORT. The encoder against the decoder, one family of forms at a time: request words, window addresses, control bytes and table
bytes (spec/30_encoding.md R91 to R105). -/

namespace Sys2Proof

open Machine

/-! ## Request words (R91, R93) -/

/-- `command_fields`, by what the fields are. -/
theorem commandWord_eq {w : Req} {a : Half} {d : Byte} {c : BitVec 3} (hz : w.extractLsb' 27 5 = 0)
    (ha : w.extractLsb' 11 16 = a) (hd : w.extractLsb' 3 8 = d) (hc : w.extractLsb' 0 3 = c) : commandWord a d c = w := by
  rw [← ha, ← hd, ← hc, command_fields w hz]

/-- A command's row fixes every field its operands do not carry, so the encoder writes the word again. -/
theorem encode_of_decodeCommand {w : Req} {i : Instr} (h : decodeCommand w = .ok i) : encode i = .command w ∧ i.wf = true := by
  rw [decodeCommand_rows] at h
  split_ifs at h with hRead hWrite hInit hHdma hDma <;> cases h
  · obtain ⟨hz, hd, hc⟩ := hRead
    exact ⟨congrArg InstrWord.command (commandWord_eq hz rfl hd hc), rfl⟩
  · obtain ⟨hz, hc⟩ := hWrite
    exact ⟨congrArg InstrWord.command (commandWord_eq hz rfl rfl hc), rfl⟩
  · obtain ⟨hz, ha, hd, hc⟩ := hInit
    exact ⟨congrArg InstrWord.command (commandWord_eq hz ha hd hc), rfl⟩
  · obtain ⟨hz, ha, hc⟩ := hHdma
    exact ⟨congrArg InstrWord.command (commandWord_eq hz ha rfl hc), rfl⟩
  · obtain ⟨hz, ha, hc⟩ := hDma
    exact ⟨congrArg InstrWord.command (commandWord_eq hz ha rfl hc), rfl⟩

/-! ## Window addresses (R96 to R98) -/

/-- A window row is written as its port's address. -/
theorem encode_portInstr (acc : Access) (p : WindowPort) :
    encode (portInstr acc p) = .window acc (portAddr p) ∧ (portInstr acc p).wf = true := by
  cases p with
  | chan n r => cases r <;> exact ⟨rfl, rfl⟩
  | mdmaen | hdmaen => exact ⟨rfl, rfl⟩

theorem encode_of_decodeWindow {acc : Access} {a : Half} {i : Instr} (h : decodeWindow acc a = .ok i) :
    encode i = .window acc a ∧ i.wf = true := by
  unfold decodeWindow at h
  split at h
  · next p hp =>
    cases h
    rw [← portAddr_windowPort a p hp]
    exact encode_portInstr acc p
  · cases h

/-! ## Control bytes (R100 to R104) -/

theorem stepCode_cases (st : BitVec 2) : st = 0 ∨ st = 1 ∨ st = 2 ∨ st = 3 := by
  revert st; decide

/-- Each unit's rows split by one field, and the row keeps the other four as operands. -/
theorem encode_decodeControl (u : CtlUnit) (n : Chan) (b : Byte) :
    encode (decodeControl u n b) = .control u n b ∧ (decodeControl u n b).wf = true := by
  rw [← dmapPack_fields b]
  generalize dmapDir b = d, dmapInd b = i, dmapU5 b = p, dmapStep b = st, dmapMode b = m
  cases u with
  | mode =>
    obtain rfl | rfl | rfl | rfl | rfl | rfl | rfl | rfl := cmd_cases m <;>
      simp [decodeControl, decodeMode, encode, Instr.wf]
  | step => obtain rfl | rfl | rfl | rfl := stepCode_cases st <;> simp [decodeControl, decodeStep, encode, Instr.wf]
  | route k => cases d <;> simp [decodeControl, encode, Instr.wf]
  | addressing k => cases i <;> simp [decodeControl, encode, Instr.wf]

/-! ## Table bytes (R105) -/

/-- The line count of a byte that is no terminator and has bit 7 clear is not 0. -/
theorem encode_decodeTable (n : Chan) (b : Byte) :
    encode (decodeTable n b) = .table n b ∧ (decodeTable n b).wf = true := by
  unfold decodeTable
  split
  · next hEnd => rw [hEnd]; exact ⟨rfl, rfl⟩
  · next hEntry =>
    split
    · next h7 => exact ⟨congrArg (InstrWord.table n) (tableByte_repeat b h7), rfl⟩
    · next h7 =>
      have hb := tableByte_once b (by simpa using h7)
      refine ⟨congrArg (InstrWord.table n) hb, bne_iff_ne.mpr fun hc => hEntry ?_⟩
      rw [← hb, hc]; rfl

theorem bit7_append (x : BitVec 1) (c : BitVec 7) : (x ++ c : Byte).getLsbD 7 = x.getLsbD 0 := by
  rw [BitVec.getLsbD_append]; rfl

theorem decodeTable_repeat (n : Chan) (c : BitVec 7) : decodeTable n ((1 : BitVec 1) ++ c) = .hdmaEntryRepeat n c := by
  have h7 : ((1 : BitVec 1) ++ c : Byte).getLsbD 7 = true := bit7_append 1 c
  have h0 : ((1 : BitVec 1) ++ c : Byte) ≠ 0 := fun h => absurd h7 (by rw [h]; decide)
  rw [decodeTable, if_neg h0, if_pos h7, BitVec.extractLsb'_append_eq_right]

theorem decodeTable_once (n : Chan) {c : BitVec 7} (hc : c ≠ 0) : decodeTable n ((0 : BitVec 1) ++ c) = .hdmaEntry n c := by
  have h7 : ¬((0 : BitVec 1) ++ c : Byte).getLsbD 7 = true := by rw [bit7_append]; decide
  have h0 : ((0 : BitVec 1) ++ c : Byte) ≠ 0 := fun h => hc ((lineCount_append 0 c).symm.trans (congrArg lineCount h))
  rw [decodeTable, if_neg h0, if_neg h7, BitVec.extractLsb'_append_eq_right]

end Sys2Proof
end

section
/-! The round trips of the encoding and the spec's own words (spec/30_encoding.md sections 1 to 4, spec/95_test_vectors.md 2.1). -/

namespace Sys2Proof

/-- Settles O1: the decoder reads each field back from where the row's encoding puts it. Well-formedness is needed for HDMA.ENTRY only,
whose byte at line count 0 is the terminator's. -/
theorem decodeUndoesEncode : Obligations.DecodeUndoesEncode := by
  intro i hWf
  cases i with
  | regRead a | regWrite a d | initHdma | doHdma m | doDma m => simp [encode, decode, decodeCommand_rows]
  | regDmap c acc | regBbad c acc | regA1tLo c acc | regA1tHi c acc | regA1b c acc | regDasLo c acc | regDasHi c acc
  | regDasb c acc | regA2aLo c acc | regA2aHi c acc | regNtrl c acc | regUnusedB c acc | regUnusedF c acc =>
    exact decode_portAddr acc (.chan c _)
  | regMdmaen acc | regHdmaen acc => exact decode_portAddr acc _
  | mode0 | mode1 | mode2 | mode3 | mode4 | mode5 | mode6 | mode7 => simp [encode, decode, decodeControl, decodeMode]
  | stepInc | stepFixed | stepDec | stepFixedAlt => simp [encode, decode, decodeControl, decodeStep]
  | dirAtoB | dirBtoA | hdmaDirect | hdmaIndirect => simp [encode, decode, decodeControl]
  | hdmaEnd n => rfl
  | hdmaEntry n c => exact congrArg Except.ok (decodeTable_once n (bne_iff_ne.mp hWf))
  | hdmaEntryRepeat n c => exact congrArg Except.ok (decodeTable_repeat n c)

/-- Settles O2: in each family the fields the decoder reads make up the whole form. -/
theorem encodeUndoesDecode : Obligations.EncodeUndoesDecode := by
  intro f i h
  cases f with
  | command w => exact encode_of_decodeCommand h
  | window acc a => exact encode_of_decodeWindow h
  | control u n b => cases h; exact encode_decodeControl u n b
  | table n b => cases h; exact encode_decodeTable n b

/-- Settles O5: the decoder evaluated on the written-out words. -/
theorem specWordsDecode : Obligations.SpecWordsDecode := by
  unfold Obligations.SpecWordsDecode
  decide

end Sys2Proof
end
